-- ==== Sys2Proof/Word.lean ====
section
/-! DEFINITION. The widths of the machine's values (00_scope.md R5, R7): all unsigned, none signed. -/

namespace Sys2Proof

/-- An 8-bit value: a V register, a timer, a memory cell, an immediate kk (R21, R28, R32, R92). -/
abbrev Byte := BitVec 8

/-- A 16-bit value: I, PC, a stack slot, an opcode (R23, R24, R27, R90). -/
abbrev Word := BitVec 16

/-- The 12-bit immediate nnn (R92). -/
abbrev Imm12 := BitVec 12

/-- The number of a general register, 0 to 15 (R21). -/
abbrev RegIx := Fin 16

/-- The number of a keyboard latch, 0 to 15 (R31). -/
abbrev KeyIx := Fin 16

/-- The 4-bit count n of Dxyn, 0 to 15 (R92). -/
abbrev Count := Fin 16

end Sys2Proof
end

