-- ==== Sys2Proof/Syntax.lean ====
section
/-! DEFINITION. The instruction set: one constructor of `Instr` per row of spec/opcode_table.json, and the 35 canonical
keys that name them (30_encoding.md R95). Nibbles the decoder does not inspect (R91) are no operand. -/

namespace Sys2Proof

/-- The instructions (R95), with the operands of their formats (R91, R92). -/
inductive Instr where
  /-- 00E0 CLS (R227). -/
  | cls
  /-- 00EE RET (R152). -/
  | ret
  /-- 0nnn SYS nnn (R151); the x position must not be 0 (R93). -/
  | sys (nnn : Imm12)
  /-- 1nnn JP nnn (R153). -/
  | jp (nnn : Imm12)
  /-- 2nnn CALL nnn (R154). -/
  | call (nnn : Imm12)
  /-- 3xkk SE Vx, kk (R155). -/
  | seImm (x : RegIx) (kk : Byte)
  /-- 4xkk SNE Vx, kk (R156). -/
  | sneImm (x : RegIx) (kk : Byte)
  /-- 5xy0 SE Vx, Vy (R157). -/
  | seReg (x y : RegIx)
  /-- 6xkk LD Vx, kk (R171). -/
  | ldImm (x : RegIx) (kk : Byte)
  /-- 7xkk ADD Vx, kk (R172). -/
  | addImm (x : RegIx) (kk : Byte)
  /-- 8xy0 LD Vx, Vy (R173). -/
  | ldReg (x y : RegIx)
  /-- 8xy1 OR Vx, Vy (R174). -/
  | orReg (x y : RegIx)
  /-- 8xy2 AND Vx, Vy (R175). -/
  | andReg (x y : RegIx)
  /-- 8xy3 XOR Vx, Vy (R176). -/
  | xorReg (x y : RegIx)
  /-- 8xy4 ADD Vx, Vy (R177). -/
  | addReg (x y : RegIx)
  /-- 8xy5 SUB Vx, Vy (R178). -/
  | subReg (x y : RegIx)
  /-- 8xy6 SHR Vx (R179): y is decoded and ignored. -/
  | shr (x y : RegIx)
  /-- 8xy7 SUBN Vx, Vy (R180). -/
  | subn (x y : RegIx)
  /-- 8xyE SHL Vx (R181): y is decoded and ignored. -/
  | shl (x y : RegIx)
  /-- 9xy0 SNE Vx, Vy (R158). -/
  | sneReg (x y : RegIx)
  /-- Annn LD I, nnn (R201). -/
  | ldI (nnn : Imm12)
  /-- Bnnn JP V0, nnn (R159). -/
  | jpV0 (nnn : Imm12)
  /-- Cxkk RND Vx, kk (R182). -/
  | rnd (x : RegIx) (kk : Byte)
  /-- Dxyn DRW Vx, Vy, n (R228). -/
  | drw (x y : RegIx) (n : Count)
  /-- Ex9E SKP Vx (R241). -/
  | skp (x : RegIx)
  /-- ExA1 SKNP Vx (R242). -/
  | sknp (x : RegIx)
  /-- Fx07 LD Vx, DT (R243). -/
  | ldVxDT (x : RegIx)
  /-- Fx15 LD DT, Vx (R245). -/
  | ldDTVx (x : RegIx)
  /-- Fx18 LD ST, Vx (R246). -/
  | ldSTVx (x : RegIx)
  /-- Fx0A LD Vx, K (R244). -/
  | ldVxK (x : RegIx)
  /-- Fx1E ADD I, Vx (R202). -/
  | addI (x : RegIx)
  /-- Fx29 LD F, Vx (R203). -/
  | ldF (x : RegIx)
  /-- Fx33 LD B, Vx (R204). -/
  | ldB (x : RegIx)
  /-- Fx55 LD [I], Vx (R205). -/
  | storeRegs (x : RegIx)
  /-- Fx65 LD Vx, [I] (R206). -/
  | loadRegs (x : RegIx)
  deriving DecidableEq, Repr

/-- The 35 canonical keys of R95, in its order. The dispatch table and the hook port are keyed by them (R102, R315). -/
inductive Key where
  | k00E0 | k00EE | k0nnn | k1nnn | k2nnn | k3xkk | k4xkk | k5xy0 | k9xy0 | k6xkk | k7xkk
  | k8xy0 | k8xy1 | k8xy2 | k8xy3 | k8xy4 | k8xy5 | k8xy6 | k8xy7 | k8xyE
  | kAnnn | kBnnn | kCxkk | kDxyn | kEx9E | kExA1
  | kFx07 | kFx15 | kFx18 | kFx0A | kFx1E | kFx29 | kFx33 | kFx55 | kFx65
  deriving DecidableEq, Repr

/-- The position of a key in the table of R95, counted from 0. -/
def Key.index : Key → Fin 35
  | .k00E0 => 0 | .k00EE => 1 | .k0nnn => 2 | .k1nnn => 3 | .k2nnn => 4 | .k3xkk => 5 | .k4xkk => 6
  | .k5xy0 => 7 | .k9xy0 => 8 | .k6xkk => 9 | .k7xkk => 10
  | .k8xy0 => 11 | .k8xy1 => 12 | .k8xy2 => 13 | .k8xy3 => 14 | .k8xy4 => 15 | .k8xy5 => 16
  | .k8xy6 => 17 | .k8xy7 => 18 | .k8xyE => 19
  | .kAnnn => 20 | .kBnnn => 21 | .kCxkk => 22 | .kDxyn => 23 | .kEx9E => 24 | .kExA1 => 25
  | .kFx07 => 26 | .kFx15 => 27 | .kFx18 => 28 | .kFx0A => 29 | .kFx1E => 30 | .kFx29 => 31
  | .kFx33 => 32 | .kFx55 => 33 | .kFx65 => 34

/-- All 35 keys, in the order of R95. -/
def Key.all : List Key :=
  [.k00E0, .k00EE, .k0nnn, .k1nnn, .k2nnn, .k3xkk, .k4xkk, .k5xy0, .k9xy0, .k6xkk, .k7xkk]
  ++ [.k8xy0, .k8xy1, .k8xy2, .k8xy3, .k8xy4, .k8xy5, .k8xy6, .k8xy7, .k8xyE]
  ++ [.kAnnn, .kBnnn, .kCxkk, .kDxyn, .kEx9E, .kExA1]
  ++ [.kFx07, .kFx15, .kFx18, .kFx0A, .kFx1E, .kFx29, .kFx33, .kFx55, .kFx65]

/-- The normative name of a key (R11, R95): the string a host passes to the hook port. -/
def Key.name : Key → String
  | .k00E0 => "00E0" | .k00EE => "00EE" | .k0nnn => "0nnn" | .k1nnn => "1nnn" | .k2nnn => "2nnn"
  | .k3xkk => "3xkk" | .k4xkk => "4xkk" | .k5xy0 => "5xy0" | .k9xy0 => "9xy0" | .k6xkk => "6xkk"
  | .k7xkk => "7xkk" | .k8xy0 => "8xy0" | .k8xy1 => "8xy1" | .k8xy2 => "8xy2" | .k8xy3 => "8xy3"
  | .k8xy4 => "8xy4" | .k8xy5 => "8xy5" | .k8xy6 => "8xy6" | .k8xy7 => "8xy7" | .k8xyE => "8xyE"
  | .kAnnn => "Annn" | .kBnnn => "Bnnn" | .kCxkk => "Cxkk" | .kDxyn => "Dxyn" | .kEx9E => "Ex9E"
  | .kExA1 => "ExA1" | .kFx07 => "Fx07" | .kFx15 => "Fx15" | .kFx18 => "Fx18" | .kFx0A => "Fx0A"
  | .kFx1E => "Fx1E" | .kFx29 => "Fx29" | .kFx33 => "Fx33" | .kFx55 => "Fx55" | .kFx65 => "Fx65"

/-- The key whose name is the string, if there is one (R319: any other string is refused). -/
def Key.ofName (name : String) : Option Key :=
  Key.all.find? (fun k => k.name == name)

/-- The key of an instruction (R95). -/
def Instr.key : Instr → Key
  | .cls => .k00E0
  | .ret => .k00EE
  | .sys _ => .k0nnn
  | .jp _ => .k1nnn
  | .call _ => .k2nnn
  | .seImm _ _ => .k3xkk
  | .sneImm _ _ => .k4xkk
  | .seReg _ _ => .k5xy0
  | .ldImm _ _ => .k6xkk
  | .addImm _ _ => .k7xkk
  | .ldReg _ _ => .k8xy0
  | .orReg _ _ => .k8xy1
  | .andReg _ _ => .k8xy2
  | .xorReg _ _ => .k8xy3
  | .addReg _ _ => .k8xy4
  | .subReg _ _ => .k8xy5
  | .shr _ _ => .k8xy6
  | .subn _ _ => .k8xy7
  | .shl _ _ => .k8xyE
  | .sneReg _ _ => .k9xy0
  | .ldI _ => .kAnnn
  | .jpV0 _ => .kBnnn
  | .rnd _ _ => .kCxkk
  | .drw _ _ _ => .kDxyn
  | .skp _ => .kEx9E
  | .sknp _ => .kExA1
  | .ldVxDT _ => .kFx07
  | .ldDTVx _ => .kFx15
  | .ldSTVx _ => .kFx18
  | .ldVxK _ => .kFx0A
  | .addI _ => .kFx1E
  | .ldF _ => .kFx29
  | .ldB _ => .kFx33
  | .storeRegs _ => .kFx55
  | .loadRegs _ => .kFx65

end Sys2Proof
end

