-- ==== Sys2Proof/WellFormed.lean ====
section
/-! DEFINITION. Which terms of `Instr` an opcode can encode (30_encoding.md R93). The operand types already bound every
field; the one relation left is that of format NNN with n1 = 0. -/

namespace Sys2Proof

/-- R93: "in format NNN with n1 = 0 the "x" position must be nonzero"; in every other format all operand values are legal. -/
def Instr.wf : Instr → Bool
  | .sys nnn => decide (0x100 ≤ nnn.toNat)
  | _ => true

end Sys2Proof
end

