-- ==== Sys2Proof/Decode.lean ====
section
/-! DEFINITION. The decoder of 30_encoding.md R96, total on every word and on every list of bytes, rejecting by name; after
it the encoder, from the canonical encodings of R97, and the opcode table of R104 as data. -/

namespace Sys2Proof

/-! ### Nibbles and operand fields (00_scope.md R8, 30_encoding.md R92) -/

/-- n1 = c[15:12]. -/
def n1 (c : Word) : BitVec 4 := c.extractLsb' 12 4
/-- n2 = c[11:8]. -/
def n2 (c : Word) : BitVec 4 := c.extractLsb' 8 4
/-- n3 = c[7:4]. -/
def n3 (c : Word) : BitVec 4 := c.extractLsb' 4 4
/-- n4 = c[3:0]. -/
def n4 (c : Word) : BitVec 4 := c.extractLsb' 0 4
/-- x = c[11:8], a register number. -/
def fieldX (c : Word) : RegIx := (n2 c).toFin
/-- y = c[7:4], a register number. -/
def fieldY (c : Word) : RegIx := (n3 c).toFin
/-- n = c[3:0], a count. -/
def fieldN (c : Word) : Count := (n4 c).toFin
/-- kk = c[7:0]. -/
def fieldKK (c : Word) : Byte := c.extractLsb' 0 8
/-- nnn = c[11:0]. -/
def fieldNNN (c : Word) : Imm12 := c.extractLsb' 0 12

/-! ### The decoder -/

/-- Why the decoder gives no instruction. -/
inductive DecodeError where
  /-- No key matches: the condition UnknownOpcode, "carrying the raw 16-bit value" (R94, R99). -/
  | unknownOpcode (c : Word)
  /-- Fewer than two bytes were given: an instruction is exactly two (R90). -/
  | truncated
  deriving DecidableEq, Repr

/-- n1 = 0x0 of R96: n2 first, then n4; n3 is not inspected. -/
def decode0 (c : Word) : Except DecodeError Instr :=
  if n2 c ≠ 0x0#4 then .ok (.sys (fieldNNN c))
  else if n4 c = 0x0#4 then .ok .cls
  else if n4 c = 0xE#4 then .ok .ret
  else .error (.unknownOpcode c)

/-- n1 = 0x8 of R96: n4 selects the operation. -/
def decode8 (c : Word) : Except DecodeError Instr :=
  match n4 c with
  | 0x0#4 => .ok (.ldReg (fieldX c) (fieldY c))
  | 0x1#4 => .ok (.orReg (fieldX c) (fieldY c))
  | 0x2#4 => .ok (.andReg (fieldX c) (fieldY c))
  | 0x3#4 => .ok (.xorReg (fieldX c) (fieldY c))
  | 0x4#4 => .ok (.addReg (fieldX c) (fieldY c))
  | 0x5#4 => .ok (.subReg (fieldX c) (fieldY c))
  | 0x6#4 => .ok (.shr (fieldX c) (fieldY c))
  | 0x7#4 => .ok (.subn (fieldX c) (fieldY c))
  | 0xE#4 => .ok (.shl (fieldX c) (fieldY c))
  | _ => .error (.unknownOpcode c)

/-- n1 = 0xE of R96: n4 selects; n3 is not inspected. -/
def decodeE (c : Word) : Except DecodeError Instr :=
  match n4 c with
  | 0xE#4 => .ok (.skp (fieldX c))
  | 0x1#4 => .ok (.sknp (fieldX c))
  | _ => .error (.unknownOpcode c)

/-- n1 = 0xF of R96: the nine pairs (n3, n4), here the byte n3 n4. -/
def decodeF (c : Word) : Except DecodeError Instr :=
  match fieldKK c with
  | 0x07#8 => .ok (.ldVxDT (fieldX c))
  | 0x0A#8 => .ok (.ldVxK (fieldX c))
  | 0x15#8 => .ok (.ldDTVx (fieldX c))
  | 0x18#8 => .ok (.ldSTVx (fieldX c))
  | 0x1E#8 => .ok (.addI (fieldX c))
  | 0x29#8 => .ok (.ldF (fieldX c))
  | 0x33#8 => .ok (.ldB (fieldX c))
  | 0x55#8 => .ok (.storeRegs (fieldX c))
  | 0x65#8 => .ok (.loadRegs (fieldX c))
  | _ => .error (.unknownOpcode c)

/-- `Decode(c)` of R96, line for line. It reads nothing but c (R94). -/
def decode (c : Word) : Except DecodeError Instr :=
  match n1 c with
  | 0x0#4 => decode0 c
  | 0x1#4 => .ok (.jp (fieldNNN c))
  | 0x2#4 => .ok (.call (fieldNNN c))
  | 0x3#4 => .ok (.seImm (fieldX c) (fieldKK c))
  | 0x4#4 => .ok (.sneImm (fieldX c) (fieldKK c))
  | 0x5#4 => .ok (.seReg (fieldX c) (fieldY c))
  | 0x6#4 => .ok (.ldImm (fieldX c) (fieldKK c))
  | 0x7#4 => .ok (.addImm (fieldX c) (fieldKK c))
  | 0x8#4 => decode8 c
  | 0x9#4 => .ok (.sneReg (fieldX c) (fieldY c))
  | 0xA#4 => .ok (.ldI (fieldNNN c))
  | 0xB#4 => .ok (.jpV0 (fieldNNN c))
  | 0xC#4 => .ok (.rnd (fieldX c) (fieldKK c))
  | 0xD#4 => .ok (.drw (fieldX c) (fieldY c) (fieldN c))
  | 0xE#4 => decodeE c
  | _ => decodeF c

/-- The word of two bytes in memory order: big-endian, `c = mem[PC] * 256 + mem[PC+1]` (20_memory.md R64). -/
def wordOfBytes (hi lo : Byte) : Word := hi ++ lo

/-- The two bytes of a word in memory order (R64). -/
def bytesOfWord (c : Word) : List Byte := [c.extractLsb' 8 8, c.extractLsb' 0 8]

/-- Decode the instruction at the head of a byte list and give the rest of the list (R90: always two bytes). -/
def decodeBytes : List Byte → Except DecodeError (Instr × List Byte)
  | hi :: lo :: rest =>
    match decode (wordOfBytes hi lo) with
    | .ok i => .ok (i, rest)
    | .error e => .error e
  | _ => .error .truncated

/-! ### The encoder -/

/-- A nibble from a register number or a count. -/
def nib (r : Fin 16) : BitVec 4 := BitVec.ofFin r

/-- Format NNN (R91). -/
def encNNN (a : BitVec 4) (nnn : Imm12) : Word := a ++ nnn
/-- Format XKK (R91); also XK and XF, whose low byte selects. -/
def encXKK (a : BitVec 4) (x : RegIx) (kk : Byte) : Word := (a ++ nib x : BitVec 8) ++ kk
/-- Formats XY, XYO and XYN (R91). -/
def encXYN (a : BitVec 4) (x y : RegIx) (d : BitVec 4) : Word := ((a ++ nib x : BitVec 8) ++ nib y : BitVec 12) ++ d

/-- The canonical encoding of an instruction (R97). -/
def encode : Instr → Word
  | .cls => 0x00E0#16
  | .ret => 0x00EE#16
  | .sys nnn => encNNN 0x0#4 nnn
  | .jp nnn => encNNN 0x1#4 nnn
  | .call nnn => encNNN 0x2#4 nnn
  | .seImm x kk => encXKK 0x3#4 x kk
  | .sneImm x kk => encXKK 0x4#4 x kk
  | .seReg x y => encXYN 0x5#4 x y 0x0#4
  | .ldImm x kk => encXKK 0x6#4 x kk
  | .addImm x kk => encXKK 0x7#4 x kk
  | .ldReg x y => encXYN 0x8#4 x y 0x0#4
  | .orReg x y => encXYN 0x8#4 x y 0x1#4
  | .andReg x y => encXYN 0x8#4 x y 0x2#4
  | .xorReg x y => encXYN 0x8#4 x y 0x3#4
  | .addReg x y => encXYN 0x8#4 x y 0x4#4
  | .subReg x y => encXYN 0x8#4 x y 0x5#4
  | .shr x y => encXYN 0x8#4 x y 0x6#4
  | .subn x y => encXYN 0x8#4 x y 0x7#4
  | .shl x y => encXYN 0x8#4 x y 0xE#4
  | .sneReg x y => encXYN 0x9#4 x y 0x0#4
  | .ldI nnn => encNNN 0xA#4 nnn
  | .jpV0 nnn => encNNN 0xB#4 nnn
  | .rnd x kk => encXKK 0xC#4 x kk
  | .drw x y n => encXYN 0xD#4 x y (nib n)
  | .skp x => encXKK 0xE#4 x 0x9E#8
  | .sknp x => encXKK 0xE#4 x 0xA1#8
  | .ldVxDT x => encXKK 0xF#4 x 0x07#8
  | .ldDTVx x => encXKK 0xF#4 x 0x15#8
  | .ldSTVx x => encXKK 0xF#4 x 0x18#8
  | .ldVxK x => encXKK 0xF#4 x 0x0A#8
  | .addI x => encXKK 0xF#4 x 0x1E#8
  | .ldF x => encXKK 0xF#4 x 0x29#8
  | .ldB x => encXKK 0xF#4 x 0x33#8
  | .storeRegs x => encXKK 0xF#4 x 0x55#8
  | .loadRegs x => encXKK 0xF#4 x 0x65#8

/-- The bytes of an instruction in memory order (R64, R90). -/
def encodeBytes (i : Instr) : List Byte := bytesOfWord (encode i)

/-! ### The opcode table as data (R104) -/

/-- One row of spec/opcode_table.json: an opcode c belongs to the row when `c & mask = match` and the constraint holds.
`n2NonZero` is the constraint of row 0nnn. The canonical mask and match are those of R97 (equal to mask and match where the
table gives none). -/
structure OpcodeRow where
  mask : Word
  value : Word
  n2NonZero : Bool
  canonicalMask : Word
  canonicalValue : Word
  deriving DecidableEq, Repr

/-- A row without a constraint and without a narrower canonical encoding. -/
def plainRow (mask value : Word) : OpcodeRow := ⟨mask, value, false, mask, value⟩

/-- The row of a key. -/
def Key.row : Key → OpcodeRow
  | .k00E0 => ⟨0xFF0F#16, 0x0000#16, false, 0xFFFF#16, 0x00E0#16⟩
  | .k00EE => ⟨0xFF0F#16, 0x000E#16, false, 0xFFFF#16, 0x00EE#16⟩
  | .k0nnn => ⟨0xF000#16, 0x0000#16, true, 0xF000#16, 0x0000#16⟩
  | .k1nnn => plainRow 0xF000#16 0x1000#16
  | .k2nnn => plainRow 0xF000#16 0x2000#16
  | .k3xkk => plainRow 0xF000#16 0x3000#16
  | .k4xkk => plainRow 0xF000#16 0x4000#16
  | .k5xy0 => ⟨0xF000#16, 0x5000#16, false, 0xF00F#16, 0x5000#16⟩
  | .k6xkk => plainRow 0xF000#16 0x6000#16
  | .k7xkk => plainRow 0xF000#16 0x7000#16
  | .k8xy0 => plainRow 0xF00F#16 0x8000#16
  | .k8xy1 => plainRow 0xF00F#16 0x8001#16
  | .k8xy2 => plainRow 0xF00F#16 0x8002#16
  | .k8xy3 => plainRow 0xF00F#16 0x8003#16
  | .k8xy4 => plainRow 0xF00F#16 0x8004#16
  | .k8xy5 => plainRow 0xF00F#16 0x8005#16
  | .k8xy6 => plainRow 0xF00F#16 0x8006#16
  | .k8xy7 => plainRow 0xF00F#16 0x8007#16
  | .k8xyE => plainRow 0xF00F#16 0x800E#16
  | .k9xy0 => ⟨0xF000#16, 0x9000#16, false, 0xF00F#16, 0x9000#16⟩
  | .kAnnn => plainRow 0xF000#16 0xA000#16
  | .kBnnn => plainRow 0xF000#16 0xB000#16
  | .kCxkk => plainRow 0xF000#16 0xC000#16
  | .kDxyn => plainRow 0xF000#16 0xD000#16
  | .kEx9E => ⟨0xF00F#16, 0xE00E#16, false, 0xF0FF#16, 0xE09E#16⟩
  | .kExA1 => ⟨0xF00F#16, 0xE001#16, false, 0xF0FF#16, 0xE0A1#16⟩
  | .kFx07 => plainRow 0xF0FF#16 0xF007#16
  | .kFx15 => plainRow 0xF0FF#16 0xF015#16
  | .kFx18 => plainRow 0xF0FF#16 0xF018#16
  | .kFx0A => plainRow 0xF0FF#16 0xF00A#16
  | .kFx1E => plainRow 0xF0FF#16 0xF01E#16
  | .kFx29 => plainRow 0xF0FF#16 0xF029#16
  | .kFx33 => plainRow 0xF0FF#16 0xF033#16
  | .kFx55 => plainRow 0xF0FF#16 0xF055#16
  | .kFx65 => plainRow 0xF0FF#16 0xF065#16

/-- The opcode belongs to the row (R104). -/
def OpcodeRow.accepts (r : OpcodeRow) (c : Word) : Bool :=
  decide (c &&& r.mask = r.value) && (!r.n2NonZero || decide (n2 c ≠ 0x0#4))

/-- The opcode is the canonical encoding of the row's key (R97, R104). -/
def OpcodeRow.acceptsCanonical (r : OpcodeRow) (c : Word) : Bool :=
  decide (c &&& r.canonicalMask = r.canonicalValue) && (!r.n2NonZero || decide (n2 c ≠ 0x0#4))

/-! ### The host's question -/

/-- The word that `nbits` low bits of `w` stand for: bits above `nbits` are 0, and an instruction has 16 bits (R90). -/
def tableWord (nbits w : Nat) : Word := BitVec.ofNat 16 (w % 2 ^ nbits)

/-- The instruction the decoder reads from a row of spec/opcode_table.json whose bits are `w`: the word's two bytes are laid
out as in memory and given to the decoder. No instruction is longer than 16 bits. -/
def decodeTableWord (nbits w : Nat) : Option Instr :=
  if 16 < nbits then none
  else
    match decodeBytes (bytesOfWord (tableWord nbits w)) with
    | .ok (i, _) => some i
    | .error _ => none

end Sys2Proof
end

