-- ==== Sys2Proof/Machine/Flags.lean ====
section
/-! DEFINITION. The values VF receives (10_state.md R22; 42_load_arith_logic.md R170, R183): each computed from the operands as
read, never from a register already overwritten, and stored as the byte 0 or 1 (92_eei_decisions.md D27). -/

namespace Sys2Proof.Machine

/-- The byte of a flag: 1 for true, 0 for false (R22). -/
def flagByte (b : Bool) : Byte := if b then 1#8 else 0#8

/-- 8xy4: the unwrapped sum exceeds 255 (R177). -/
def carry (a b : Byte) : Byte := flagByte (decide (255 < a.toNat + b.toNat))

/-- 8xy5, 8xy7: minuend and subtrahend; 0 on borrow, 1 otherwise (R178, R180). -/
def notBorrow (minuend subtrahend : Byte) : Byte := flagByte (decide (¬ minuend.toNat < subtrahend.toNat))

/-- 8xy6: the bit shifted out at the bottom (R179). -/
def shiftedOutLow (a : Byte) : Byte := a &&& 1#8

/-- 8xyE: the bit shifted out at the top (R181). -/
def shiftedOutHigh (a : Byte) : Byte := flagByte (decide (a &&& 0x80#8 ≠ 0#8))

/-- Fx1E: the unwrapped sum exceeds 65535 (R202). -/
def indexOverflow (i : Word) (a : Byte) : Byte := flagByte (decide (65535 < i.toNat + a.toNat))

end Sys2Proof.Machine
end

