-- ==== Sys2Proof/Config.lean ====
section
/-! DEFINITION. What an implementation fixes (the OPEN parameters of 00_scope.md R5) and the free byte of `Random()`.
The free value of hooked host code is `Config.hostHandler` and `Config.hostCallback` in Machine/Handler.lean, because
their types mention State. -/

namespace Sys2Proof

/-- The OPEN parameters of R5 (92_eei_decisions.md D2, D3). The spec gives no value for any of them: the model takes them as
an argument, carried unchanged in the read-only field `cfg` of State. -/
structure Config where
  /-- DISPLAY_COLS (R220). -/
  cols : Nat
  /-- DISPLAY_ROWS (R220). -/
  rows : Nat
  /-- FONT_OFFSET (R33). -/
  fontOffset : Nat
  /-- FONT_GLYPH_SIZE (R33). -/
  glyphSize : Nat
  /-- FONT_TABLE: 16 glyphs of FONT_GLYPH_SIZE bytes (R33). -/
  fontTable : List Byte
  deriving DecidableEq, Repr

/-- The constraints of R6 on the OPEN parameters, and the length of FONT_TABLE that R5 gives. -/
def Config.valid (c : Config) : Bool :=
  decide (8 ≤ c.cols) && decide (1 ≤ c.rows) && decide (1 ≤ c.glyphSize)
    && decide (c.fontOffset + 16 * c.glyphSize ≤ 0x200)
    && decide (c.fontTable.length = 16 * c.glyphSize)

/-- FREE VALUE (R184, D17): the byte of the n-th unsupplied `Random()` draw. It has no body, so nothing can be proved of it. -/
opaque Config.freeByte : Nat → Byte

end Sys2Proof
end

