-- ==== Sys2Proof/Machine/Params.lean ====
section
/-! DEFINITION. The constants of 00_scope.md R5, the reset contents of memory (10_state.md R33, R45), and the default values
of the OPEN parameters, which only `State.reset` uses (PRESUMED, notes/assumptions 4 and 5). -/

namespace Sys2Proof.Machine

/-- MEM_SIZE (R5, R32). -/
def memSize : Nat := 4096

/-- PROGRAM_OFFSET (R5). -/
def programOffset : Nat := 0x200

/-- ROM_MAX = MEM_SIZE - PROGRAM_OFFSET = 3584 (R5, R276). -/
def romMax : Nat := memSize - programOffset

/-- PC after reset: "PC at program offset" (R45, R343). -/
def resetPc : Word := 0x200#16

/-- IPC: "instructions-per-cycle, default 9" (R5, R40). -/
def defaultIpc : Nat := 9

/-- FREQ: nominally 60 Hz (R5, R40). -/
def defaultFreq : Nat := 60

/-- PACING at `State.reset`. DESIGN CHOICE: the spec gives no default; no rule reads it (R266; notes/assumptions/7). -/
def defaultPacing : Bool := false

/-- The default FONT_TABLE of R33, glyphs 0 to 7 (PRESUMED: the spec marks it as general knowledge). -/
def fontLow : List Byte :=
  [0xF0#8, 0x90#8, 0x90#8, 0x90#8, 0xF0#8] ++ [0x20#8, 0x60#8, 0x20#8, 0x20#8, 0x70#8]
  ++ [0xF0#8, 0x10#8, 0xF0#8, 0x80#8, 0xF0#8] ++ [0xF0#8, 0x10#8, 0xF0#8, 0x10#8, 0xF0#8]
  ++ [0x90#8, 0x90#8, 0xF0#8, 0x10#8, 0x10#8] ++ [0xF0#8, 0x80#8, 0xF0#8, 0x10#8, 0xF0#8]
  ++ [0xF0#8, 0x80#8, 0xF0#8, 0x90#8, 0xF0#8] ++ [0xF0#8, 0x10#8, 0x20#8, 0x40#8, 0x40#8]

/-- The default FONT_TABLE of R33, glyphs 8 to F (PRESUMED). -/
def fontHigh : List Byte :=
  [0xF0#8, 0x90#8, 0xF0#8, 0x90#8, 0xF0#8] ++ [0xF0#8, 0x90#8, 0xF0#8, 0x10#8, 0xF0#8]
  ++ [0xF0#8, 0x90#8, 0xF0#8, 0x90#8, 0x90#8] ++ [0xE0#8, 0x90#8, 0xE0#8, 0x90#8, 0xE0#8]
  ++ [0xF0#8, 0x80#8, 0x80#8, 0x80#8, 0xF0#8] ++ [0xE0#8, 0x90#8, 0x90#8, 0x90#8, 0xE0#8]
  ++ [0xF0#8, 0x80#8, 0xF0#8, 0x80#8, 0xF0#8] ++ [0xF0#8, 0x80#8, 0xF0#8, 0x80#8, 0x80#8]

/-- The defaults of the OPEN parameters (R5, R33): 64 by 32 pixels, font at 0 with 5 bytes a glyph. PRESUMED. -/
def defaultConfig : Config :=
  { cols := 64, rows := 32, fontOffset := 0x000, glyphSize := 5, fontTable := fontLow ++ fontHigh }

/-- The byte at address `a` right after reset, and so what an address that memory does not list reads as: the font
pre-load of R33 (`mem[FONT_OFFSET + i] = FONT_TABLE[i]` for `i < 16 * FONT_GLYPH_SIZE`), zero elsewhere (R45, D12). -/
def resetByte (cfg : Config) (a : Nat) : Byte :=
  if cfg.fontOffset ≤ a ∧ a < cfg.fontOffset + 16 * cfg.glyphSize then cfg.fontTable.getD (a - cfg.fontOffset) 0#8 else 0#8

end Sys2Proof.Machine
end

