-- ==== Sys2Proof/Machine/State.lean ====
section
/-! DEFINITION. The state of the block, whole (10_state.md R20): MachineState, scheduler, dispatch and condition state; the
reasons a step can stop; and the state after reset (R45). -/

namespace Sys2Proof.Machine

/-- The fatal conditions a step can raise (60_exceptions.md R300, R302 to R305). -/
inductive Condition where
  /-- 2nnn at SP = 15 (R302). -/
  | stackOverflow
  /-- 00EE at SP = 0 (R303). -/
  | stackUnderflow
  /-- An access of `count` bytes at `addr` that leaves memory (R304): fetch, Dxyn, Fx33, Fx55, Fx65. -/
  | outOfBoundsMem (addr count : Nat)
  /-- Ex9E, ExA1 with V[x] of 16 or more (R305). -/
  | outOfBoundsKey (index : Nat)
  deriving DecidableEq, Repr

/-- A name for a piece of host code: a replacement handler or a callback (R315, R317). What it does is the host's; State
holds only the name. -/
abbrev HostCode := Nat

/-- What the hook port installed for a key (R315, R317, R318). -/
inductive Hook where
  /-- `hook(key, handler)`: the handler runs in place of the base handler (R315). -/
  | replace (handler : HostCode)
  /-- `pre_hook(key, callback)`: callback, then base handler (R317). -/
  | pre (callback : HostCode)
  /-- `post_hook(key, callback)`: base handler, then callback (R318). -/
  | post (callback : HostCode)
  deriving DecidableEq, Repr

/-- Sparse memory: (address, byte) pairs in one canonical form (`Memory.wf`). An unlisted address reads as `resetByte`. -/
abbrev Memory := List Host.Cell

/-- The pixel grid: a list of rows, row 0 on top, each a list of pixels, column 0 leftmost (R34, R220). -/
abbrev Grid := List (List Bool)

/-- The state of the block (R20). -/
structure State where
  /-- V[0..15]; VF is V[15] (R21, R22). -/
  v : Vector Byte 16
  /-- I (R23). -/
  i : Word
  /-- PC (R24). -/
  pc : Word
  /-- SP: the number of return addresses on the stack (R26). -/
  sp : Fin 16
  /-- stack[0..15] (R27). -/
  stack : Vector Word 16
  /-- DT (R28). -/
  dt : Byte
  /-- ST (R29). -/
  st : Byte
  /-- Key[0..15] (R31). -/
  key : Vector Bool 16
  /-- mem (R32). -/
  mem : Memory
  /-- pix (R34). -/
  pix : Grid
  /-- disp_changed (R35). -/
  dispChanged : Bool
  /-- buzzer_changed (R36). -/
  buzzerChanged : Bool
  /-- keyq, oldest first (R37). -/
  keyq : List KeyIx
  /-- held (R38). -/
  held : Option KeyIx
  /-- cycle_index (R39). -/
  cycleIndex : Nat
  /-- IPC (R40). -/
  ipc : Nat
  /-- FREQ (R40); no rule reads it. DESIGN CHOICE: a natural number of Hz, 0 included; the spec gives no type and no legal
  values (notes/assumptions/32). -/
  freq : Nat
  /-- PACING (R40); no rule reads it. -/
  pacing : Bool
  /-- hooks, one option per key, at the place `Key.index` gives (R41). -/
  hooks : Vector (Option Hook) 35
  /-- halted (R42). -/
  halted : Option Condition
  /-- ulog, oldest first (R43). -/
  ulog : List Word
  /-- The OPEN parameters (R5, R46): read by every step, written by nothing. -/
  cfg : Config
  /-- MODEL's own: draws the host has supplied for `Random()`, the next one first (R184, R275). -/
  draws : List Byte
  /-- MODEL's own: the index of the next free value (notes/assumptions/8, 9). -/
  freeIndex : Nat
  deriving DecidableEq, Repr

/-- Reasons a step ends in a fault: none. The spec describes what every condition does to the state (R135, R137, R307), so
each one is a next state: the fatal ones set `halted`. That no constructor stands here says so (notes/assumptions/3). -/
inductive Fault where
  deriving DecidableEq, Repr

/-- Reasons a step ends in a refusal. -/
inductive Refusal where
  /-- Raised by an arm of `exec` whose instruction has no meaning yet; no arm does. Safe: the model would stop. -/
  | notModelled (mnemonic : String)
  deriving DecidableEq, Repr

/-- The state after construction with the given parameters and configuration registers (R45, R341): `hooks` all none. -/
def State.initial (cfg : Config) (ipc freq : Nat) (pacing : Bool) : State :=
  { v := Vector.replicate 16 0#8
    i := 0#16
    pc := resetPc
    sp := 0
    stack := Vector.replicate 16 0#16
    dt := 0#8
    st := 0#8
    key := Vector.replicate 16 false
    mem := []
    pix := List.replicate cfg.rows (List.replicate cfg.cols false)
    dispChanged := false
    buzzerChanged := false
    keyq := []
    held := none
    cycleIndex := 0
    ipc := ipc
    freq := freq
    pacing := pacing
    hooks := Vector.replicate 35 none
    halted := none
    ulog := []
    cfg := cfg
    draws := []
    freeIndex := 0 }

/-- The machine right after reset (R45), with the default parameters of R5 and the default IPC and FREQ of R44. -/
def State.reset : State :=
  State.initial defaultConfig defaultIpc defaultFreq defaultPacing

end Sys2Proof.Machine
end

