-- ==== Sys2Proof/Machine/Grid.lean ====
section
/-! DEFINITION. The display buffer's operations (44_display.md R220 to R226), on the grid alone. -/

namespace Sys2Proof.Machine

/-- pix[r][c]; a position outside the grid reads as 0 (no rule reads one). -/
def Grid.get (g : Grid) (r c : Nat) : Bool := (g.getD r []).getD c false

/-- pix[r][c] <- pix[r][c] ^ 1. -/
def Grid.flip (g : Grid) (r c : Nat) : Grid := g.modify r (fun row => row.modify c not)

/-- pix[r][c] <- b; nothing outside the grid. -/
def Grid.set (g : Grid) (r c : Nat) (b : Bool) : Grid := g.modify r (fun row => row.set c b)

/-- Some pixel is 1. -/
def Grid.anySet (g : Grid) : Bool := g.any (fun row => row.any id)

/-- Every pixel 0. -/
def Grid.blank (rows cols : Nat) : Grid := List.replicate rows (List.replicate cols false)

/-- The grid has DISPLAY_ROWS rows of DISPLAY_COLS pixels (R34). -/
def Grid.wf (rows cols : Nat) (g : Grid) : Bool :=
  decide (g.length = rows) && g.all (fun row => decide (row.length = cols))

/-- What a draw carries from pixel to pixel: the grid, whether a set pixel was erased (R224), and whether any pixel was
flipped (R225). -/
structure Drawing where
  pix : Grid
  collision : Bool
  touched : Bool
  deriving DecidableEq, Repr

/-- One pixel of R223: column `x + j` of display row `row`, from bit `7 - j` of the sprite byte (R221). A pixel past the
right edge is dropped. -/
def drawPixel (cols x row : Nat) (b : Byte) (d : Drawing) (j : Nat) : Drawing :=
  if x + j < cols ∧ b.getLsbD (7 - j) = true then
    { pix := d.pix.flip row (x + j)
      collision := d.collision || d.pix.get row (x + j)
      touched := true }
  else d

/-- One row of R223, pixels j = 0 to 7. -/
def drawRow (cols x row : Nat) (b : Byte) (d : Drawing) : Drawing :=
  (List.range 8).foldl (drawPixel cols x row b) d

/-- The row loop of R223 from sprite row `r` on: a row at or below the bottom edge is skipped. -/
def drawRows (rows cols x y : Nat) : Nat → List Byte → Drawing → Drawing
  | _, [], d => d
  | r, b :: bs, d => drawRows rows cols x y (r + 1) bs (if rows ≤ y + r then d else drawRow cols x (y + r) b d)

/-- `DrawSprite(x, y, bytes)` of R223, with the collision result and whether a pixel was flipped. -/
def blitSprite (rows cols x y : Nat) (bytes : List Byte) (g : Grid) : Drawing :=
  if cols ≤ x then { pix := g, collision := false, touched := false }
  else drawRows rows cols x y 0 bytes { pix := g, collision := false, touched := false }

end Sys2Proof.Machine
end

