-- ==== Sys2Proof/Machine/Memory.lean ====
section
/-! DEFINITION. Memory as sparse data in canonical form (10_state.md R32; 20_memory.md R60, R63): reading and writing one byte
and a run of bytes in ascending order. `base` is what an unlisted address reads as. -/

namespace Sys2Proof.Machine

/-- The byte at address `a`. -/
def Memory.read (base : Nat → Byte) : Memory → Nat → Byte
  | [], a => base a
  | (a', b) :: m, a => if a = a' then b else Memory.read base m a

/-- Put an entry in front, unless it says what the address reads as anyway. -/
def Memory.cons (base : Nat → Byte) (a : Nat) (b : Byte) (m : Memory) : Memory :=
  if b = base a then m else (a, b) :: m

/-- Write one byte, keeping the canonical form. -/
def Memory.write (base : Nat → Byte) : Memory → Nat → Byte → Memory
  | [], a, b => Memory.cons base a b []
  | (a', b') :: m, a, b =>
    if a < a' then Memory.cons base a b ((a', b') :: m)
    else if a = a' then Memory.cons base a b m
    else (a', b') :: Memory.write base m a b

/-- Write a list of bytes to ascending addresses (R65). -/
def Memory.writeRun (base : Nat → Byte) : Memory → Nat → List Byte → Memory
  | m, _, [] => m
  | m, a, b :: bs => Memory.writeRun base (Memory.write base m a b) (a + 1) bs

/-- Read `n` bytes from ascending addresses, lowest first (R9). -/
def Memory.readRun (base : Nat → Byte) (m : Memory) (a n : Nat) : List Byte :=
  (List.range n).map (fun k => Memory.read base m (a + k))

/-- Every listed address is at least `lo` and inside memory, addresses rise strictly, and no entry equals what its address reads
as unlisted. -/
def Memory.wfFrom (base : Nat → Byte) : Nat → Memory → Bool
  | _, [] => true
  | lo, (a, b) :: m => decide (lo ≤ a) && decide (a < memSize) && decide (b ≠ base a) && Memory.wfFrom base (a + 1) m

/-- The canonical form of memory: equal memories are equal lists. -/
def Memory.wf (base : Nat → Byte) (m : Memory) : Bool := Memory.wfFrom base 0 m

/-- An access of `n` bytes at `a` is in bounds (R63); an access of no byte always is. -/
def inBounds (a n : Nat) : Bool := decide (n = 0) || decide (a + n ≤ memSize)

end Sys2Proof.Machine
end

