-- ==== Sys2Proof/Machine/Operands.lean ====
section
/-! DEFINITION. Operand forms (30_encoding.md R92; 00_scope.md R9): registers x and y, the range V[0..x], the immediates kk and
nnn, digits, and the font address. -/

namespace Sys2Proof.Machine

/-- VF is V[15] (10_state.md R21). -/
def vf : RegIx := 15

/-- V[r] (R21). -/
def State.reg (s : State) (r : RegIx) : Byte := s.v[r.val]

/-- nnn "zero-extended to 16 bits" (R92). -/
def zext16 (nnn : Imm12) : Word := nnn.setWidth 16

/-- The registers 0 to x in ascending order (43_index_memory.md R205, R206). -/
def regsUpTo (x : RegIx) : List RegIx := (List.finRange 16).filter (fun k => decide (k.val ≤ x.val))

/-- The values V[0], …, V[x] (R205). -/
def State.regRange (s : State) (x : RegIx) : List Byte := (regsUpTo x).map s.reg

/-- The decimal digits of a byte: hundreds, tens, ones (R204). -/
def bcdDigits (a : Byte) : List Byte :=
  [BitVec.ofNat 8 (a.toNat / 100), BitVec.ofNat 8 (a.toNat / 10 % 10), BitVec.ofNat 8 (a.toNat % 10)]

/-- `(FONT_OFFSET + a * FONT_GLYPH_SIZE) mod 65536`; a is the whole byte, not its low nibble (R203). -/
def fontAddress (cfg : Config) (a : Byte) : Word := BitVec.ofNat 16 (cfg.fontOffset + a.toNat * cfg.glyphSize)

/-- The least k with Key[k] true (45_keyboard_timers.md R244). -/
def State.lowestKey (s : State) : Option KeyIx := (List.finRange 16).find? (fun k => s.key[k.val])

/-- A key index as the byte Fx0A stores (R244). -/
def keyByte (k : KeyIx) : Byte := BitVec.ofNat 8 k.val

end Sys2Proof.Machine
end

