-- ==== Sys2Proof/Machine/Ops.lean ====
section
/-! DEFINITION. The named operations over registers, memory, stack, display, keys and draws, and what a condition does to the
state. Every meaning is written over these. -/

namespace Sys2Proof.Machine

/-! ### Registers (10_state.md R21 to R30) -/

/-- V[r] <- b. -/
def State.setReg (s : State) (r : RegIx) (b : Byte) : State := { s with v := s.v.set r.val b }

/-- I <- w. -/
def State.setI (s : State) (w : Word) : State := { s with i := w }

/-- PC <- w. Nothing is checked (41_control_flow.md R150b). -/
def State.setPC (s : State) (w : Word) : State := { s with pc := w }

/-- "Skip next instruction": PC <- (PC + 2) mod 65536 when the test holds (R150a). -/
def State.skipIf (s : State) (b : Bool) : State := if b then s.setPC (s.pc + 2#16) else s

/-- DT <- b. -/
def State.setDT (s : State) (b : Byte) : State := { s with dt := b }

/-- `SetST(b)` of R30: a zero/nonzero transition sets buzzer_changed. -/
def State.setST (s : State) (b : Byte) : State :=
  { s with
    st := b
    buzzerChanged := s.buzzerChanged || (decide (s.st = 0#8) != decide (b = 0#8)) }

/-- V[k] <- m_k for the listed registers and bytes, in order (43_index_memory.md R206). -/
def State.setRegs (s : State) : List RegIx → List Byte → State
  | r :: rs, b :: bs => (s.setReg r b).setRegs rs bs
  | _, _ => s

/-! ### Conditions (60_exceptions.md R301, R307) -/

/-- TAKING A FATAL CONDITION (R137, R307): `halted` is set to the condition and nothing else changes. There is no handler, no
vector and no saved PC (R311). There is no return from it either (R313): only `reset()` clears the latch. -/
def State.raise (s : State) (c : Condition) : State := { s with halted := some c }

/-- The recoverable condition UnknownOpcode (R135, R301): the raw word is appended to ulog and nothing else changes. -/
def State.reportUnknown (s : State) (c : Word) : State := { s with ulog := s.ulog ++ [c] }

/-- The end of an operation that may raise: its result, or the state it began in with the condition taken (R137). -/
def settle (s : State) : Except Condition State → Host.Outcome State Fault Refusal
  | .ok t => .next t
  | .error c => .next (s.raise c)

/-! ### Memory (20_memory.md R61 to R65) -/

/-- The byte at an address, as the machine reads it. -/
def State.byteAt (s : State) (a : Nat) : Byte := Memory.read (resetByte s.cfg) s.mem a

/-- `MemRead(a, n)` (R9): the whole range is checked first (R63). -/
def State.memRead (s : State) (a n : Nat) : Except Condition (List Byte) :=
  if inBounds a n then .ok (Memory.readRun (resetByte s.cfg) s.mem a n) else .error (.outOfBoundsMem a n)

/-- Write a run of bytes without a check. -/
def State.putRun (s : State) (a : Nat) (bytes : List Byte) : State :=
  { s with mem := Memory.writeRun (resetByte s.cfg) s.mem a bytes }

/-- `MemWrite(a, n, bytes)` (R9): the whole range is checked first (R63). -/
def State.memWrite (s : State) (a : Nat) (bytes : List Byte) : Except Condition State :=
  if inBounds a bytes.length then .ok (s.putRun a bytes) else .error (.outOfBoundsMem a bytes.length)

/-! ### The call stack (10_state.md R26, R27) -/

/-- `stack[SP++] = w`; SP = 15 raises StackOverflow before anything is written (41_control_flow.md R154). -/
def State.push (s : State) (w : Word) : Except Condition State :=
  if s.sp = 15 then .error .stackOverflow
  else .ok { s with stack := s.stack.set s.sp.val w, sp := s.sp + 1 }

/-- `PC = stack[--SP]`; SP = 0 raises StackUnderflow (R152). The slot keeps its value. -/
def State.popPC (s : State) : Except Condition State :=
  if s.sp = 0 then .error .stackUnderflow
  else .ok { s with pc := s.stack[(s.sp - 1).val], sp := s.sp - 1 }

/-! ### Display (44_display.md R222, R223) -/

/-- `Clear()` of R222: disp_changed is assigned whether any pixel was set, then every pixel is 0. -/
def State.clearDisplay (s : State) : State :=
  { s with
    dispChanged := s.pix.anySet
    pix := Grid.blank s.cfg.rows s.cfg.cols }

/-- `DrawSprite(x, y, bytes)` on the state (R223), with its collision result; the change flag is OR-ed (R225). -/
def State.drawSprite (s : State) (x y : Byte) (bytes : List Byte) : State × Bool :=
  let d := blitSprite s.cfg.rows s.cfg.cols x.toNat y.toNat bytes s.pix
  ({ s with pix := d.pix, dispChanged := s.dispChanged || d.touched }, d.collision)

/-! ### Keyboard (45_keyboard_timers.md R247) -/

/-- Key[a] for a whole byte a; 16 or more is OutOfBounds (key). -/
def State.keyAt (s : State) (a : Byte) : Except Condition Bool :=
  if h : a.toNat < 16 then .ok s.key[a.toNat] else .error (.outOfBoundsKey a.toNat)

/-- Key[k] <- b. -/
def State.setKey (s : State) (k : KeyIx) (b : Bool) : State := { s with key := s.key.set k.val b }

/-! ### Random draws (42_load_arith_logic.md R184) -/

/-- `Random()`: the next draw the host supplied, or else a free value. -/
def State.random (s : State) : Byte × State :=
  match s.draws with
  | b :: bs => (b, { s with draws := bs })
  | [] => (Config.freeByte s.freeIndex, { s with freeIndex := s.freeIndex + 1 })

end Sys2Proof.Machine
end

