-- ==== Sys2Proof/Machine/Arithmetic.lean ====
section
/-! DEFINITION. Register load, arithmetic, logic, shift and random instructions (42_load_arith_logic.md). Operands are read first;
the writes follow in the order the document lists them, and the later write to VF stays (R170e). -/

namespace Sys2Proof.Machine

/-- 6xkk (R171): "`V[x]=kk`". -/
def execLdImm (x : RegIx) (kk : Byte) (s : State) : Host.Outcome State Fault Refusal := .next (s.setReg x kk)

/-- 7xkk (R172): "`V[x]+=kk` (mod 256)"; VF is not written. -/
def execAddImm (x : RegIx) (kk : Byte) (s : State) : Host.Outcome State Fault Refusal := .next (s.setReg x (s.reg x + kk))

/-- 8xy0 (R173): "`V[x] = V[y]`". -/
def execLdReg (x y : RegIx) (s : State) : Host.Outcome State Fault Refusal := .next (s.setReg x (s.reg y))

/-- 8xy1 (R174): "`V[x] OR=V[y]`". -/
def execOrReg (x y : RegIx) (s : State) : Host.Outcome State Fault Refusal := .next (s.setReg x (s.reg x ||| s.reg y))

/-- 8xy2 (R175): `V[x] AND= V[y]`. -/
def execAndReg (x y : RegIx) (s : State) : Host.Outcome State Fault Refusal := .next (s.setReg x (s.reg x &&& s.reg y))

/-- 8xy3 (R176): `V[x] XOR= V[y]`. -/
def execXorReg (x y : RegIx) (s : State) : Host.Outcome State Fault Refusal := .next (s.setReg x (s.reg x ^^^ s.reg y))

/-- 8xy4 (R177): the sum, then the carry. -/
def execAddReg (x y : RegIx) (s : State) : Host.Outcome State Fault Refusal :=
  .next ((s.setReg x (s.reg x + s.reg y)).setReg vf (carry (s.reg x) (s.reg y)))

/-- 8xy5 (R178): V[x] - V[y], then not-borrow. -/
def execSubReg (x y : RegIx) (s : State) : Host.Outcome State Fault Refusal :=
  .next ((s.setReg x (s.reg x - s.reg y)).setReg vf (notBorrow (s.reg x) (s.reg y)))

/-- 8xy6 (R179): the flag first, then the shifted value; y is ignored. -/
def execShr (x _y : RegIx) (s : State) : Host.Outcome State Fault Refusal :=
  .next ((s.setReg vf (shiftedOutLow (s.reg x))).setReg x (s.reg x >>> 1))

/-- 8xy7 (R180): V[y] - V[x] into V[y], then not-borrow. -/
def execSubn (x y : RegIx) (s : State) : Host.Outcome State Fault Refusal :=
  .next ((s.setReg y (s.reg y - s.reg x)).setReg vf (notBorrow (s.reg y) (s.reg x)))

/-- 8xyE (R181): the flag first, then the shifted value; y is ignored. -/
def execShl (x _y : RegIx) (s : State) : Host.Outcome State Fault Refusal :=
  .next ((s.setReg vf (shiftedOutHigh (s.reg x))).setReg x (s.reg x <<< 1))

/-- Cxkk (R182): "`V[x] = random_byte() & kk`". -/
def execRnd (x : RegIx) (kk : Byte) (s : State) : Host.Outcome State Fault Refusal :=
  .next (s.random.2.setReg x (s.random.1 &&& kk))

end Sys2Proof.Machine
end

