-- ==== Sys2Proof/Machine/ControlFlow.lean ====
section
/-! DEFINITION. Control-flow instructions (41_control_flow.md). The state given to a meaning is the one after the fetch: PC is
already A + 2 (40_step_fetch_dispatch.md R131). -/

namespace Sys2Proof.Machine

/-- 0nnn (R151): "no-op". -/
def execSys (_nnn : Imm12) (s : State) : Host.Outcome State Fault Refusal := .next s

/-- 00EE (R152): "`PC = stack[--SP]` (return)". -/
def execRet (s : State) : Host.Outcome State Fault Refusal := settle s s.popPC

/-- 1nnn (R153): "`PC = nnn`". -/
def execJp (nnn : Imm12) (s : State) : Host.Outcome State Fault Refusal := .next (s.setPC (zext16 nnn))

/-- 2nnn (R154): "`stack[SP++] = PC; PC = nnn`". -/
def execCall (nnn : Imm12) (s : State) : Host.Outcome State Fault Refusal :=
  settle s ((s.push s.pc).map (fun t => t.setPC (zext16 nnn)))

/-- 3xkk (R155): "skip next instruction if `V[x]==kk`". -/
def execSeImm (x : RegIx) (kk : Byte) (s : State) : Host.Outcome State Fault Refusal :=
  .next (s.skipIf (decide (s.reg x = kk)))

/-- 4xkk (R156): skip if `V[x] ≠ kk`. -/
def execSneImm (x : RegIx) (kk : Byte) (s : State) : Host.Outcome State Fault Refusal :=
  .next (s.skipIf (decide (s.reg x ≠ kk)))

/-- 5xy0 (R157): "skip if `V[x]==V[y]`". -/
def execSeReg (x y : RegIx) (s : State) : Host.Outcome State Fault Refusal :=
  .next (s.skipIf (decide (s.reg x = s.reg y)))

/-- 9xy0 (R158): skip if `V[x] ≠ V[y]`. -/
def execSneReg (x y : RegIx) (s : State) : Host.Outcome State Fault Refusal :=
  .next (s.skipIf (decide (s.reg x ≠ s.reg y)))

/-- Bnnn (R159): "`PC = V[0]+nnn`"; not reduced mod 4096. -/
def execJpV0 (nnn : Imm12) (s : State) : Host.Outcome State Fault Refusal :=
  .next (s.setPC ((s.reg 0).setWidth 16 + zext16 nnn))

end Sys2Proof.Machine
end

