-- ==== Sys2Proof/Machine/Display.lean ====
section
/-! DEFINITION. The display instructions (44_display.md R227, R228). -/

namespace Sys2Proof.Machine

/-- 00E0 (R227): "clear display". -/
def execCls (s : State) : Host.Outcome State Fault Refusal := .next s.clearDisplay

/-- Draw the sprite bytes at (V[x], V[y]) and put the collision into VF (R228). -/
def State.drawAt (s : State) (x y : RegIx) (bytes : List Byte) : State :=
  (s.drawSprite (s.reg x) (s.reg y) bytes).1.setReg vf (flagByte (s.drawSprite (s.reg x) (s.reg y) bytes).2)

/-- Dxyn (R228): all n bytes at I are read and checked before any pixel changes. -/
def execDrw (x y : RegIx) (n : Count) (s : State) : Host.Outcome State Fault Refusal :=
  settle s ((s.memRead s.i.toNat n.val).map (s.drawAt x y))

end Sys2Proof.Machine
end

