-- ==== Sys2Proof/Machine/IndexMemory.lean ====
section
/-! DEFINITION. Address-register and memory instructions (43_index_memory.md). The effective address is I plus an offset as a
plain number, and no instruction here changes I by accessing memory (R200). -/

namespace Sys2Proof.Machine

/-- Annn (R201): "`I=nnn`". -/
def execLdI (nnn : Imm12) (s : State) : Host.Outcome State Fault Refusal := .next (s.setI (zext16 nnn))

/-- Fx1E (R202): I + V[x] mod 65536, then VF = 16-bit overflow. -/
def execAddI (x : RegIx) (s : State) : Host.Outcome State Fault Refusal :=
  .next ((s.setI (s.i + (s.reg x).setWidth 16)).setReg vf (indexOverflow s.i (s.reg x)))

/-- Fx29 (R203): "`I = font_offset + V[x]*font_glyph_size`". -/
def execLdF (x : RegIx) (s : State) : Host.Outcome State Fault Refusal := .next (s.setI (fontAddress s.cfg (s.reg x)))

/-- Fx33 (R204): "store BCD digits of `V[x]` into `memory[I..I+3]` (hundreds, tens, ones)". -/
def execLdB (x : RegIx) (s : State) : Host.Outcome State Fault Refusal :=
  settle s (s.memWrite s.i.toNat (bcdDigits (s.reg x)))

/-- Fx55 (R205): "store `V[0..=x]` into `memory[I..]`". -/
def execStoreRegs (x : RegIx) (s : State) : Host.Outcome State Fault Refusal :=
  settle s (s.memWrite s.i.toNat (s.regRange x))

/-- Fx65 (R206): "load `memory[I..]` into `V[0..=x]`". -/
def execLoadRegs (x : RegIx) (s : State) : Host.Outcome State Fault Refusal :=
  settle s ((s.memRead s.i.toNat (x.val + 1)).map (s.setRegs (regsUpTo x)))

end Sys2Proof.Machine
end

