-- ==== Sys2Proof/Machine/KeyboardTimers.lean ====
section
/-! DEFINITION. Keyboard and timer instructions (45_keyboard_timers.md). -/

namespace Sys2Proof.Machine

/-- Ex9E (R241): "skip if key `V[x]` pressed". -/
def execSkp (x : RegIx) (s : State) : Host.Outcome State Fault Refusal :=
  settle s ((s.keyAt (s.reg x)).map s.skipIf)

/-- ExA1 (R242): skip if key `V[x]` not pressed. -/
def execSknp (x : RegIx) (s : State) : Host.Outcome State Fault Refusal :=
  settle s ((s.keyAt (s.reg x)).map (fun p => s.skipIf (!p)))

/-- Fx07 (R243): "`V[x]=DT`". -/
def execLdVxDT (x : RegIx) (s : State) : Host.Outcome State Fault Refusal := .next (s.setReg x s.dt)

/-- Fx15 (R245): "`DT=V[x]`". -/
def execLdDTVx (x : RegIx) (s : State) : Host.Outcome State Fault Refusal := .next (s.setDT (s.reg x))

/-- Fx18 (R246): "`ST=V[x]`", through SetST. -/
def execLdSTVx (x : RegIx) (s : State) : Host.Outcome State Fault Refusal := .next (s.setST (s.reg x))

/-- Fx0A (R244): the lowest-indexed pressed key, or PC back to this instruction. -/
def execLdVxK (x : RegIx) (s : State) : Host.Outcome State Fault Refusal :=
  match s.lowestKey with
  | some k => .next (s.setReg x (keyByte k))
  | none => .next (s.setPC (s.pc - 2#16))

end Sys2Proof.Machine
end

