-- ==== Sys2Proof/Machine/Handler.lean ====
section
/-! DEFINITION. Dispatch through the hook table (40_step_fetch_dispatch.md R133; 60_exceptions.md R315 to R320). What hooked host
code does is not the spec's (U17): it is a free value, a list of writes to MachineState chosen by an opaque constant. -/

namespace Sys2Proof

namespace Machine

/-- One write of host code to MachineState (R20, R320: "full access to MachineState"). Any change of MachineState is a list of
these; the scheduler's state, the hook table, `halted` and `ulog` are not MachineState. -/
inductive HostWrite where
  | reg (r : RegIx) (b : Byte)
  | index (w : Word)
  | pc (w : Word)
  | sp (n : Fin 16)
  | slot (n : Fin 16) (w : Word)
  | dt (b : Byte)
  | st (b : Byte)
  | key (k : KeyIx) (b : Bool)
  | mem (a : Fin 4096) (b : Byte)
  | pixel (r c : Nat) (b : Bool)
  | dispChanged (b : Bool)
  | buzzerChanged (b : Bool)
  deriving DecidableEq, Repr

/-- What a piece of host code did: its writes in order, and the fatal condition it raised, if any. -/
structure HostEffect where
  writes : List HostWrite
  raised : Option Condition
  deriving DecidableEq, Repr, Inhabited

end Machine

/-- FREE VALUE (R320, U17): what a replacement handler does, given the opcode of the step and the state. No body. -/
opaque Config.hostHandler : Machine.HostCode → Word → Machine.State → Machine.HostEffect

/-- FREE VALUE (R317, R318, U17): what a callback does, given the state. No body. -/
opaque Config.hostCallback : Machine.HostCode → Machine.State → Machine.HostEffect

namespace Machine

/-- One write of host code. ST goes through SetST, as every write of ST does (10_state.md R30). -/
def State.hostWrite (s : State) : HostWrite → State
  | .reg r b => s.setReg r b
  | .index w => s.setI w
  | .pc w => s.setPC w
  | .sp n => { s with sp := n }
  | .slot n w => { s with stack := s.stack.set n.val w }
  | .dt b => s.setDT b
  | .st b => s.setST b
  | .key k b => s.setKey k b
  | .mem a b => s.putRun a.val [b]
  | .pixel r c b => { s with pix := s.pix.set r c b }
  | .dispChanged b => { s with dispChanged := b }
  | .buzzerChanged b => { s with buzzerChanged := b }

/-- The effect of host code: its writes in order, then the condition it raised. The index of the next free value moves on, so
that the next call may do something else. -/
def State.hostEffect (s : State) (e : HostEffect) : State :=
  let t := e.writes.foldl State.hostWrite { s with freeIndex := s.freeIndex + 1 }
  match e.raised with
  | none => t
  | some c => t.raise c

/-- `hooks[key]` (R41). -/
def State.hookOf (s : State) (k : Key) : Option Hook := s.hooks[k.index.val]

/-- The base handler, then the callback unless the base handler raised a fatal condition (R318). DESIGN CHOICE: the base
handler's effect stays where the callback raises (notes/assumptions/10). -/
def runPost (cb : HostCode) (i : Instr) (s : State) : Host.Outcome State Fault Refusal :=
  match exec i s with
  | .next t => if t.halted.isSome then .next t else .next (t.hostEffect (Config.hostCallback cb t))
  | .fault r => .fault r
  | .refused r => .refused r

/-- The callback, then the base handler (R317); a callback that raises ends the step (R137). DESIGN CHOICE: the callback's
writes stay where it, or the base handler after it, raises a fatal condition (notes/assumptions/10). -/
def runPre (cb : HostCode) (i : Instr) (s : State) : Host.Outcome State Fault Refusal :=
  let t := s.hostEffect (Config.hostCallback cb s)
  if t.halted.isSome then .next t else exec i t

/-- `Handler(key)(state, c)` of R133 and R134: the replacement where `hooks[key]` holds one, the base handler otherwise. -/
def runHandler (i : Instr) (c : Word) (s : State) : Host.Outcome State Fault Refusal :=
  match s.hookOf i.key with
  | none => exec i s
  | some (.replace h) => .next (s.hostEffect (Config.hostHandler h c s))
  | some (.pre cb) => runPre cb i s
  | some (.post cb) => runPost cb i s

end Machine

end Sys2Proof
end

