-- ==== Sys2Proof/Machine/Fetch.lean ====
section
/-! DEFINITION. The CPU step (40_step_fetch_dispatch.md R131 to R137), which Machine/Step.lean only calls, and the placing of a
word where the step fetches. -/

namespace Sys2Proof.Machine

/-- `fetch()` of R131: both bytes are checked before either is read, and PC advances by 2 before dispatch. -/
def State.fetch (s : State) : Except Condition (Word × State) :=
  (s.memRead s.pc.toNat 2).map
    (fun bytes => (wordOfBytes (bytes.getD 0 0#8) (bytes.getD 1 0#8), s.setPC (s.pc + 2#16)))

/-- Decode and dispatch (R132, R133); a word that no key matches is reported and skipped (R135). -/
def runWord (c : Word) (s : State) : Host.Outcome State Fault Refusal :=
  match decode c with
  | .ok i => runHandler i c s
  | .error _ => .next (s.reportUnknown c)

/-- `step()` of R134. While `halted` is set it does nothing at all (R136); a fetch that raises leaves everything else as it
was (R137). -/
def cpuStep (s : State) : Host.Outcome State Fault Refusal :=
  if s.halted.isSome then .next s
  else
    match s.fetch with
    | .ok (c, t) => runWord c t
    | .error e => .next (s.raise e)

/-- The program counter a fetch can use: PC where its two bytes lie in memory, else the program offset. -/
def State.fetchPC (s : State) : Word := if inBounds s.pc.toNat 2 then s.pc else resetPc

/-- The hook table without a hook on the key that the word decodes to. -/
def State.unhookWord (s : State) (c : Word) : Vector (Option Hook) 35 :=
  match decode c with
  | .ok i => s.hooks.set i.key.index.val none
  | .error _ => s.hooks

/-- The state in which the very next step fetches the word `c` and runs the base handler of what it decodes to: the two bytes
stand at PC (20_memory.md R64), PC can be fetched from, the core is not halted, and no hook stands on the key. -/
def State.placeWord (s : State) (c : Word) : State :=
  { s.putRun s.fetchPC.toNat (bytesOfWord c) with
    pc := s.fetchPC
    halted := none
    hooks := s.unhookWord c }

end Sys2Proof.Machine
end

