-- ==== Sys2Proof/Machine/Step.lean ====
section
/-! DEFINITION. One step of the machine: the transaction `step()` of 48_scheduler_cycle.md R278, which is the CPU step of
40_step_fetch_dispatch.md R134. -/

namespace Sys2Proof.Machine

/-- One CPU step (R134). -/
def step (s : State) : Host.Outcome State Fault Refusal := cpuStep s

/-- `s` with the opcode whose bits are `w` where `step` fetches its next instruction. -/
def State.withFetchWord (s : State) (nbits w : Nat) : State := s.placeWord (tableWord nbits w)

end Sys2Proof.Machine
end

