-- ==== Sys2Proof/Machine/HostPorts.lean ====
section
/-! DEFINITION. The host's transactions that run no instruction (48_scheduler_cycle.md R270 to R273, R276, R279;
60_exceptions.md R315 to R319; 70_reset_and_hazards.md R340 to R342). Each is total: it answers a state or a refusal to the
host, and a refusal changes nothing and does not halt the core (R306, D22). -/

namespace Sys2Proof.Machine

/-- What a transaction refuses the host for (R306, R319). DESIGN CHOICE: what a refusal carries beside its name, but for the
length of RomTooLarge, which R276 states (notes/assumptions/34). -/
inductive HostError where
  /-- `load_rom` of a list longer than ROM_MAX (R276). -/
  | romTooLarge (len : Nat)
  /-- A key index, an action index or a variable index out of range (R270, R271, R279): the one index that was refused; for
  `mem_bcd` the first address alone. -/
  | outOfBounds (index : Nat)
  /-- A string that is not one of the 35 keys (R319). -/
  | unknownKey (name : String)
  /-- A construction with IPC = 0 (R40) or with parameters that violate R6. -/
  | badConfiguration
  deriving DecidableEq, Repr

/-! ### Construction and reset -/

/-- Construction of the block (R341, D20): refused with IPC = 0 (R40, U18) or with OPEN parameters outside R6. Any
FREQ is accepted, 0 too: DESIGN CHOICE (notes/assumptions/32). -/
def construct (cfg : Config) (ipc freq : Nat) (pacing : Bool) : Except HostError State :=
  if cfg.valid && decide (1 ≤ ipc) then .ok (State.initial cfg ipc freq pacing) else .error .badConfiguration

/-- `reset()` of R340. Hooks, IPC, FREQ, PACING and the parameters stay (R342); so do the model's own fields. -/
def State.hostReset (s : State) : State :=
  { State.initial s.cfg s.ipc s.freq s.pacing with
    hooks := s.hooks
    draws := s.draws
    freeIndex := s.freeIndex }

/-! ### Loading -/

/-- `load_rom(bytes)` of R276: copied to the program offset, or refused whole. -/
def State.loadRom (s : State) (bytes : List Byte) : Except HostError State :=
  if bytes.length ≤ romMax then .ok (s.putRun programOffset bytes) else .error (.romTooLarge bytes.length)

/-! ### Keys -/

/-- A host's key index as a latch number (R270, R271). -/
def keyIx (k : Nat) : Except HostError KeyIx := if h : k < 16 then .ok ⟨k, h⟩ else .error (.outOfBounds k)

/-- `queue_key(k)` of R270: appended to the FIFO. -/
def State.queueKey (s : State) (k : Nat) : Except HostError State :=
  (keyIx k).map (fun i => { s with keyq := s.keyq ++ [i] })

/-- `take_action(i)` of R270 with the profile's list of actions: 0 is no key, i is `actions[i-1]`. A refusal
carries the action index where that is above N, and the key index where that is 16 or more. -/
def State.takeAction (s : State) (actions : List Nat) : Nat → Except HostError State
  | 0 => .ok s
  | i + 1 =>
    match actions[i]? with
    | some k => s.queueKey k
    | none => .error (.outOfBounds (i + 1))

/-- `key_down(i)` of R271. -/
def State.keyDown (s : State) (k : Nat) : Except HostError State := (keyIx k).map (fun i => s.setKey i true)

/-- `key_up(i)` of R271. -/
def State.keyUp (s : State) (k : Nat) : Except HostError State := (keyIx k).map (fun i => s.setKey i false)

/-! ### Queries -/

/-- `get_buzzer_state()` (R272): ST > 0. -/
def State.buzzer (s : State) : Bool := decide (s.st ≠ 0#8)

/-- `OutputChanged()` of R273: the OR of both change flags, which it clears. -/
def State.outputChanged (s : State) : Bool × State :=
  (s.dispChanged || s.buzzerChanged, { s with dispChanged := false, buzzerChanged := false })

/-- A profile variable (R279). -/
inductive Variable where
  | memBcd (index : Nat)
  | register (index : Nat)
  deriving DecidableEq, Repr

/-- `get_variable` (R279): the two read formulas, or a refusal of an index outside memory or the register file. -/
def State.getVariable (s : State) : Variable → Except HostError Nat
  | .memBcd a =>
    if a + 2 < memSize then
      .ok ((s.byteAt a).toNat * 100 + (s.byteAt (a + 1)).toNat * 10 + (s.byteAt (a + 2)).toNat)
    else .error (.outOfBounds a)
  | .register r => if h : r < 16 then .ok (s.reg ⟨r, h⟩).toNat else .error (.outOfBounds r)

/-! ### The hook port -/

/-- `hooks[key] <- h` for the key of that name, or a refusal of any other string (R315, R319). -/
def State.setHook (s : State) (name : String) (h : Option Hook) : Except HostError State :=
  match Key.ofName name with
  | some k => .ok { s with hooks := s.hooks.set k.index.val h }
  | none => .error (.unknownKey name)

/-- `hook(key, handler)` (R315): overwrites, does not stack. -/
def State.hook (s : State) (name : String) (handler : HostCode) : Except HostError State :=
  s.setHook name (some (.replace handler))

/-- `unhook(key)` (R316, R319). -/
def State.unhook (s : State) (name : String) : Except HostError State := s.setHook name none

/-- `pre_hook(key, callback)` (R317): wraps the base handler, whatever hook stood there (R319). -/
def State.preHook (s : State) (name : String) (callback : HostCode) : Except HostError State :=
  s.setHook name (some (.pre callback))

/-- `post_hook(key, callback)` (R318): wraps the base handler, whatever hook stood there (R319). -/
def State.postHook (s : State) (name : String) (callback : HostCode) : Except HostError State :=
  s.setHook name (some (.post callback))

/-- The host supplies the byte of a `Random()` draw to come (R184, R275). -/
def State.supplyRandom (s : State) (b : Byte) : State := { s with draws := s.draws ++ [b] }

end Sys2Proof.Machine
end

