-- ==== Sys2Proof/Machine/Scheduler.lean ====
section
/-! DEFINITION. The scheduler's `cycle()` (48_scheduler_cycle.md R260 to R274) and the Frame it emits. Pacing (step 4) has no
effect on state and is left out (R266). -/

namespace Sys2Proof.Machine

/-- The value of one profile variable in a Frame: what `get_variable` answers for it (R269, R279). -/
inductive VarValue where
  | value (n : Nat)
  | refused (e : HostError)
  deriving DecidableEq, Repr

/-- A profile's variables: name and what to read (R279, R280). An input of the host. -/
abbrev Profile := List (String × Variable)

/-- A Frame (R269). -/
structure Frame where
  index : Nat
  pixels : Grid
  buzzer : Bool
  changed : Bool
  vars : List (String × VarValue)
  deriving DecidableEq, Repr

/-- What `cycle()` returns: a Frame, or the fatal condition in its place (R274). -/
inductive CycleReply where
  | frame (f : Frame)
  | fatal (c : Condition)
  deriving DecidableEq, Repr

/-- Step 1 of R261: at most one queued key, the oldest, becomes a pressed line (R262). -/
def State.injectKey (s : State) : State :=
  match s.keyq with
  | [] => s
  | k :: ks => { s.setKey k true with keyq := ks, held := some k }

/-- Step 2 of R261: up to n CPU steps, ending at the first that sets `halted` (R263, R274). -/
def runBatch : Nat → State → Host.Outcome State Fault Refusal
  | 0, s => .next s
  | n + 1, s =>
    match step s with
    | .next t => if t.halted.isSome then .next t else runBatch n t
    | .fault r => .fault r
    | .refused r => .refused r

/-- A timer's decrement, saturating at 0 (R264). -/
def timerTick (b : Byte) : Byte := if b = 0#8 then 0#8 else b - 1#8

/-- Step 3 of R261: DT, then ST through SetST (R265). -/
def State.tickTimers (s : State) : State := (s.setDT (timerTick s.dt)).setST (timerTick s.st)

/-- Step 5 of R261: the line set in step 1 is released (R267). -/
def State.releaseKey (s : State) : State :=
  match s.held with
  | none => s
  | some k => { s.setKey k false with held := none }

/-- The variables of a Frame (R269). -/
def State.frameVariables (s : State) (p : Profile) : List (String × VarValue) :=
  p.map (fun nv => (nv.1, match s.getVariable nv.2 with | .ok n => .value n | .error e => .refused e))

/-- Step 6 of R261: the Frame, built by the clearing query, and the next cycle index (R268). -/
def State.emitFrame (s : State) (p : Profile) : State × Frame :=
  ({ s.outputChanged.2 with cycleIndex := s.cycleIndex + 1 },
    { index := s.cycleIndex
      pixels := s.pix
      buzzer := s.buzzer
      changed := s.outputChanged.1
      vars := s.frameVariables p })

/-- Steps 3 to 6 of R261, once the batch has run. -/
def State.endCycle (s : State) (p : Profile) : State × Frame := s.tickTimers.releaseKey.emitFrame p

/-- `cycle()` of R261. While halted it changes nothing and returns the condition; a batch that halts ends the cycle there
(R274). -/
def cycle (p : Profile) (s : State) : Host.Outcome (State × CycleReply) Fault Refusal :=
  match s.halted with
  | some c => .next (s, .fatal c)
  | none =>
    match runBatch s.ipc s.injectKey with
    | .next t =>
      match t.halted with
      | some c => .next (t, .fatal c)
      | none => .next ((t.endCycle p).1, .frame (t.endCycle p).2)
    | .fault r => .fault r
    | .refused r => .refused r

end Sys2Proof.Machine
end

