-- ==== Sys2Proof/Machine/Transactions.lean ====
section
/-! DEFINITION. The interface of the block: the closed list of transactions of 48_scheduler_cycle.md R275, each with its reply.
Transactions are serial (R283): one is applied to the state that the one before left. -/

namespace Sys2Proof.Machine

/-- The transactions of R275. -/
inductive Transaction where
  | reset
  | loadRom (bytes : List Byte)
  | cycle (profile : Profile)
  | step
  | queueKey (k : Nat)
  | keyDown (k : Nat)
  | keyUp (k : Nat)
  | getDisplayBuffer
  | getBuzzerState
  | outputChanged
  | getVariable (x : Variable)
  | hook (key : String) (handler : HostCode)
  | unhook (key : String)
  | preHook (key : String) (callback : HostCode)
  | postHook (key : String) (callback : HostCode)
  | readLog
  | supplyRandom (b : Byte)
  deriving DecidableEq, Repr

/-- What a transaction returns to the host. -/
inductive Reply where
  | done
  | frame (f : Frame)
  | fatal (c : Condition)
  | pixels (g : Grid)
  | bit (b : Bool)
  | number (n : Nat)
  | log (l : List Word)
  | refused (e : HostError)
  deriving DecidableEq, Repr

/-- A state-changing port: its new state, or its refusal and no change (R306). -/
def portReply (s : State) : Except HostError State → State × Reply
  | .ok t => (t, .done)
  | .error e => (s, .refused e)

/-- What `step()` returns: nothing, or the fatal condition (R278, R307d). -/
def stepReply (s : State) : Reply :=
  match s.halted with
  | none => .done
  | some c => .fatal c

/-- What `cycle()` returns, as a reply (R261). -/
def CycleReply.toReply : CycleReply → Reply
  | .frame f => .frame f
  | .fatal c => .fatal c

/-- `step()` as a transaction (R278). -/
def stepTransaction (s : State) : Host.Outcome (State × Reply) Fault Refusal :=
  match Machine.step s with
  | .next t => .next (t, stepReply t)
  | .fault r => .fault r
  | .refused r => .refused r

/-- `cycle()` as a transaction (R261). -/
def cycleTransaction (p : Profile) (s : State) : Host.Outcome (State × Reply) Fault Refusal :=
  match Machine.cycle p s with
  | .next (t, r) => .next (t, r.toReply)
  | .fault r => .fault r
  | .refused r => .refused r

/-- The reply of `get_variable` (R279). -/
def variableReply : Except HostError Nat → Reply
  | .ok n => .number n
  | .error e => .refused e

/-- One transaction (R275): the state it leaves and what it returns. -/
def transact (x : Transaction) (s : State) : Host.Outcome (State × Reply) Fault Refusal :=
  match x with
  | .reset => .next (s.hostReset, .done)
  | .loadRom bytes => .next (portReply s (s.loadRom bytes))
  | .cycle p => cycleTransaction p s
  | .step => stepTransaction s
  | .queueKey k => .next (portReply s (s.queueKey k))
  | .keyDown k => .next (portReply s (s.keyDown k))
  | .keyUp k => .next (portReply s (s.keyUp k))
  | .getDisplayBuffer => .next (s, .pixels s.pix)
  | .getBuzzerState => .next (s, .bit s.buzzer)
  | .outputChanged => .next (s.outputChanged.2, .bit s.outputChanged.1)
  | .getVariable x => .next (s, variableReply (s.getVariable x))
  | .hook key h => .next (portReply s (s.hook key h))
  | .unhook key => .next (portReply s (s.unhook key))
  | .preHook key cb => .next (portReply s (s.preHook key cb))
  | .postHook key cb => .next (portReply s (s.postHook key cb))
  | .readLog => .next (s, .log s.ulog)
  | .supplyRandom b => .next (s.supplyRandom b, .done)

/-- A list of transactions, in order (R283). -/
def transactAll : List Transaction → State → Host.Outcome State Fault Refusal
  | [], s => .next s
  | x :: xs, s =>
    match transact x s with
    | .next (t, _) => transactAll xs t
    | .fault r => .fault r
    | .refused r => .refused r

end Sys2Proof.Machine
end

