-- ==== Sys2Proof/Safety.lean ====
section
/-! DEFINITION. What claims are stated in: which states are well formed (10_state.md R47), what it is for a run to go on, to park
or to halt (70_reset_and_hazards.md R357), and the frames that say what an instruction leaves alone. -/

namespace Sys2Proof.Machine

/-! ### Invariants -/

/-- What holds in every state between two steps, inside a cycle or outside one: memory is in canonical form, the grid has the
display's dimensions (R34), and the parameters and IPC are legal (R6, R40). The ranges of R47 are in the types. -/
structure State.StepInv (s : State) : Prop where
  cfg_valid : s.cfg.valid = true
  ipc_pos : 1 ≤ s.ipc
  mem_wf : Memory.wf (resetByte s.cfg) s.mem = true
  pix_wf : Grid.wf s.cfg.rows s.cfg.cols s.pix = true

/-- What holds between two transactions (R47): `StepInv`, and no key is held while the core is not halted. -/
structure State.Inv (s : State) : Prop extends State.StepInv s where
  held_free : s.halted = none → s.held = none

/-- "no hook installed" (60_exceptions.md R320): every key has its base handler. -/
def State.NoHooks (s : State) : Prop := ∀ k : Key, s.hookOf k = none

/-! ### Runs -/

/-- `n` CPU steps. -/
def runSteps : Nat → State → Host.Outcome State Fault Refusal
  | 0, s => .next s
  | n + 1, s =>
    match step s with
    | .next t => runSteps n t
    | .fault r => .fault r
    | .refused r => .refused r

/-- Halted (R357b): a fatal condition stopped the core. Never a success. -/
def State.Halted (s : State) : Prop := s.halted ≠ none

/-- Parked (R357a): not halted, and every further step leaves MachineState as it is, but for the timers, whatever keys the host
presses (a waiting Fx0A is not parked). DESIGN CHOICE: the whole State is compared, the model's own `freeIndex` too, which
hooked host code always moves, so a loop through a hooked key is never parked (notes/assumptions/33). -/
def State.Parked (s : State) : Prop :=
  s.halted = none ∧
    ∀ (keys : Vector Bool 16) (n : Nat),
      ∃ t, runSteps n { s with key := keys } = .next t ∧ t = { s with key := keys, dt := t.dt, st := t.st }

/-! ### Frames -/

/-- Every byte of memory reads as before. -/
def SameMemory (s t : State) : Prop := ∀ a : Nat, t.byteAt a = s.byteAt a

/-- Every byte of memory outside the `n` bytes at `a` reads as before. -/
def SameMemoryOutside (a n : Nat) (s t : State) : Prop :=
  ∀ b : Nat, (b < a ∨ a + n ≤ b) → t.byteAt b = s.byteAt b

/-- Only registers in `rs` may differ: every other register, and every other part of the state, is as before. -/
def OnlyRegs (rs : List RegIx) (s t : State) : Prop :=
  t = { s with v := t.v } ∧ (∀ r : RegIx, r ∉ rs → t.reg r = s.reg r) ∧ SameMemory s t

/-- Only PC may differ. -/
def OnlyPC (s t : State) : Prop := t = { s with pc := t.pc } ∧ SameMemory s t

/-- Only `halted` differs, and it holds the condition (40_step_fetch_dispatch.md R137). -/
def HaltsWith (c : Condition) (s t : State) : Prop := t = { s with halted := some c } ∧ SameMemory s t

/-! ### What an instruction is, fetched -/

/-- `c` is the word at PC, big-endian: `c = mem[PC] * 256 + mem[PC+1]` (20_memory.md R64), both bytes inside memory. -/
def State.FetchesWord (s : State) (c : Word) : Prop :=
  s.pc.toNat + 2 ≤ 4096 ∧ c.toNat = (s.byteAt s.pc.toNat).toNat * 256 + (s.byteAt (s.pc.toNat + 1)).toNat

/-- The sprite bit that falls on display row `r`, column `c`, for a sprite at column `x`, row `y`: sprite row `r - y`, bit
`7 - (c - x)` of its byte (44_display.md R221). -/
def spriteBit (bytes : List Byte) (x y r c : Nat) : Bool :=
  decide (y ≤ r ∧ r < y + bytes.length ∧ x ≤ c ∧ c < x + 8) && (bytes.getD (r - y) 0#8).getLsbD (7 - (c - x))

/-- The `n` bytes from address `a` on. -/
def State.bytesAt (s : State) (a n : Nat) : List Byte := (List.range n).map (fun k => s.byteAt (a + k))

/-- The condition that an instruction raises in a state, by the table of 60_exceptions.md R300 (R302 to R305): false for every
instruction that the table does not list. -/
def Raises (s : State) (c : Condition) : Instr → Prop
  | .call _ => s.sp = 15 ∧ c = .stackOverflow
  | .ret => s.sp = 0 ∧ c = .stackUnderflow
  | .drw _ _ n => n.val ≠ 0 ∧ 4096 < s.i.toNat + n.val ∧ c = .outOfBoundsMem s.i.toNat n.val
  | .ldB _ => 4096 < s.i.toNat + 3 ∧ c = .outOfBoundsMem s.i.toNat 3
  | .storeRegs x => 4096 < s.i.toNat + (x.val + 1) ∧ c = .outOfBoundsMem s.i.toNat (x.val + 1)
  | .loadRegs x => 4096 < s.i.toNat + (x.val + 1) ∧ c = .outOfBoundsMem s.i.toNat (x.val + 1)
  | .skp x => 16 ≤ (s.reg x).toNat ∧ c = .outOfBoundsKey (s.reg x).toNat
  | .sknp x => 16 ≤ (s.reg x).toNat ∧ c = .outOfBoundsKey (s.reg x).toNat
  | _ => False

/-- A skip from an instruction at `a`: A + 4 when the test holds, A + 2 otherwise (10_state.md R25). -/
def skipTarget (a : Word) (b : Bool) : Word := if b then a + 4#16 else a + 2#16

/-- PC after a step that raised nothing, by the table of R25, for an instruction fetched in state `s` (PC = A). -/
def pcAfter (s : State) : Instr → Word
  | .jp nnn => zext16 nnn
  | .call nnn => zext16 nnn
  | .ret => s.stack[(s.sp - 1).val]
  | .jpV0 nnn => (s.reg 0).setWidth 16 + zext16 nnn
  | .seImm x kk => skipTarget s.pc (decide (s.reg x = kk))
  | .sneImm x kk => skipTarget s.pc (decide (s.reg x ≠ kk))
  | .seReg x y => skipTarget s.pc (decide (s.reg x = s.reg y))
  | .sneReg x y => skipTarget s.pc (decide (s.reg x ≠ s.reg y))
  | .skp x => skipTarget s.pc (decide (s.key[(s.reg x).toNat]? = some true))
  | .sknp x => skipTarget s.pc (decide (s.key[(s.reg x).toNat]? = some false))
  | .ldVxK _ => if ∃ k : KeyIx, s.key[k.val] = true then s.pc + 2#16 else s.pc
  | _ => s.pc + 2#16

/-- The seven flag writers (R22). -/
def IsFlagWriter : Instr → Prop
  | .addReg _ _ => True
  | .subReg _ _ => True
  | .subn _ _ => True
  | .shr _ _ => True
  | .shl _ _ => True
  | .drw _ _ _ => True
  | .addI _ => True
  | _ => False

/-- The instruction names register F as its destination (R22, R44). -/
def NamesVF : Instr → Prop
  | .ldImm x _ => x = vf
  | .addImm x _ => x = vf
  | .ldReg x _ => x = vf
  | .orReg x _ => x = vf
  | .andReg x _ => x = vf
  | .xorReg x _ => x = vf
  | .addReg x _ => x = vf
  | .subReg x _ => x = vf
  | .shr x _ => x = vf
  | .subn _ y => y = vf
  | .shl x _ => x = vf
  | .rnd x _ => x = vf
  | .ldVxDT x => x = vf
  | .ldVxK x => x = vf
  | .loadRegs x => x = vf
  | _ => False

end Sys2Proof.Machine
end

