-- ==== Sys2Proof/Certificates/Slice0/Obligations.lean ====
section
/-! DEFINITION. The statements for the provers, one per obligation of OBLIGATIONS.json. Each docstring names the rules it
formalises; where a clause rests on a decision of the spec (D<n> of 92_eei_decisions.md) or of the model, it names the log entry.
A state `s` given to `exec` is the state after the fetch: PC is A + 2 (40_step_fetch_dispatch.md R131). -/

open Sys2Proof Sys2Proof.Machine

/-! ### Encoding -/

/-- R97 (derived there), R90, R64: decoding the canonical encoding of any well-formed instruction gives it back, as a word and
at the head of any byte list. -/
def Obligations.DecodeOfEncodeIsIdentity : Prop :=
  ∀ i : Instr, i.wf = true →
    decode (encode i) = .ok i ∧ ∀ rest : List Byte, decodeBytes (encodeBytes i ++ rest) = .ok (i, rest)

/-- R93, R97: what the decoder yields is well formed, and a canonical word is the encoding of what it decodes to. -/
def Obligations.DecodedWordReencodes : Prop :=
  ∀ (c : Word) (i : Instr), decode c = .ok i →
    i.wf = true ∧ (i.key.row.acceptsCanonical c = true → encode i = c)

/-- R104, R101 (R96 is decision D4, log 11): a word decodes to a key exactly when the key's row of the opcode table accepts it;
so every word belongs to at most one row. -/
def Obligations.DecoderAgreesWithOpcodeTable : Prop :=
  (∀ (c : Word) (k : Key), (∃ i, decode c = .ok i ∧ i.key = k) ↔ k.row.accepts c = true)
    ∧ ∀ (c : Word) (j k : Key), j.row.accepts c = true → k.row.accepts c = true → j = k

/-- R99 (derived there; that nibbles the decoder does not name are not inspected is decision D4, log 11): the words the decoder
fails on, all of them, and it fails carrying the raw word (R94). -/
def Obligations.UnknownOpcodesAreThese : Prop :=
  ∀ c : Word,
    (decode c = .error (.unknownOpcode c) ↔
      (n1 c = 0x0#4 ∧ n2 c = 0x0#4 ∧ n4 c ≠ 0x0#4 ∧ n4 c ≠ 0xE#4)
        ∨ (n1 c = 0x8#4 ∧ n4 c ∈ [0x8#4, 0x9#4, 0xA#4, 0xB#4, 0xC#4, 0xD#4, 0xF#4])
        ∨ (n1 c = 0xE#4 ∧ n4 c ≠ 0x1#4 ∧ n4 c ≠ 0xE#4)
        ∨ (n1 c = 0xF#4
            ∧ fieldKK c ∉ [0x07#8, 0x0A#8, 0x15#8, 0x18#8, 0x1E#8, 0x29#8, 0x33#8, 0x55#8, 0x65#8]))
      ∧ ∀ e, decode c = .error e → e = .unknownOpcode c

/-- R92: the operand fields of every word, as numbers. And a sanity statement: words written out from the patterns of R95, one
per family (S1, S13 and the spec's examples). -/
def Obligations.SampleWordsDecode : Prop :=
  (∀ c : Word,
    (n1 c).toNat = c.toNat / 4096 ∧ (n2 c).toNat = c.toNat / 256 % 16 ∧ (n3 c).toNat = c.toNat / 16 % 16
      ∧ (n4 c).toNat = c.toNat % 16
      ∧ (fieldX c).val = c.toNat / 256 % 16 ∧ (fieldY c).val = c.toNat / 16 % 16 ∧ (fieldN c).val = c.toNat % 16
      ∧ (fieldKK c).toNat = c.toNat % 256 ∧ (fieldNNN c).toNat = c.toNat % 4096)
  ∧ decode 0x00E0#16 = .ok .cls ∧ decode 0x00EE#16 = .ok .ret ∧ decode 0x2210#16 = .ok (.call 0x210#12)
    ∧ decode 0x600A#16 = .ok (.ldImm 0 0x0A#8) ∧ decode 0x8127#16 = .ok (.subn 1 2)
    ∧ decode 0xA300#16 = .ok (.ldI 0x300#12) ∧ decode 0xF033#16 = .ok (.ldB 0)
    ∧ decode 0xD12A#16 = .ok (.drw 1 2 10) ∧ decode 0xE59E#16 = .ok (.skp 5) ∧ decode 0xF318#16 = .ok (.ldSTVx 3)

/-- R98 (decision D4, log 11): a word whose uninspected nibble is not the key's decodes to the key all the same. -/
def Obligations.AliasWordsDecodeToTheirKey : Prop :=
  ∀ c : Word,
    (n1 c = 0x0#4 → n2 c = 0x0#4 → n4 c = 0x0#4 → decode c = .ok .cls)
      ∧ (n1 c = 0x0#4 → n2 c = 0x0#4 → n4 c = 0xE#4 → decode c = .ok .ret)
      ∧ (n1 c = 0x5#4 → decode c = .ok (.seReg (n2 c).toFin (n3 c).toFin))
      ∧ (n1 c = 0x9#4 → decode c = .ok (.sneReg (n2 c).toFin (n3 c).toFin))
      ∧ (n1 c = 0xE#4 → n4 c = 0xE#4 → decode c = .ok (.skp (n2 c).toFin))
      ∧ (n1 c = 0xE#4 → n4 c = 0x1#4 → decode c = .ok (.sknp (n2 c).toFin))

/-! ### The step -/

/-- R64, with R131 to R134: where the big-endian word at PC decodes to an instruction whose key has no hook, a step of a core
that is not halted is `exec` of it on the state whose PC has moved past the word. -/
def Obligations.StepRunsDecodedInstruction : Prop :=
  ∀ (s : State) (c : Word) (i : Instr),
    s.halted = none → s.FetchesWord c → decode c = .ok i → s.hookOf i.key = none →
      step s = exec i { s with pc := s.pc + 2#16 }

/-- R301: an unknown word is appended to the log and skipped, and nothing else changes. -/
def Obligations.UnknownWordIsLoggedAndSkipped : Prop :=
  ∀ (s : State) (c : Word) (e : DecodeError),
    s.halted = none → s.FetchesWord c → decode c = .error e →
      step s = .next { s with pc := s.pc + 2#16, ulog := s.ulog ++ [c] }

/-- R131, R137 (decisions D8, D10; log 3, 14): a fetch whose bytes do not both lie in memory halts the core and leaves everything
else as it was, PC too. -/
def Obligations.FetchOutsideMemoryHalts : Prop :=
  ∀ s : State, s.halted = none → 4096 < s.pc.toNat + 2 →
    ∃ t, step s = .next t ∧ HaltsWith (.outOfBoundsMem s.pc.toNat 2) s t

/-- R136 (decision D10, log 3): a step or a cycle of a halted core changes nothing, and the cycle returns the condition. -/
def Obligations.HaltedMachineDoesNothing : Prop :=
  ∀ (s : State) (c : Condition) (p : Profile), s.halted = some c →
    step s = .next s ∧ cycle p s = .next (s, .fatal c)

/-- R133, R315, R317, R318 (decision D18): a step on a hooked key runs the host's code (a free value, log 9) in place of, before
or after the base handler; the callback of a post-hook does not run after a fatal condition. The model's choices, all of log
10: in each clause, what host code wrote before it raised stays (DESIGN CHOICE); in the pre clause, a callback that raises ends
the step before the base handler (DEDUCED), and what it wrote stays where the base handler raises (DESIGN CHOICE); in the post
clause, the base handler's effect stays where the callback raises (DESIGN CHOICE). -/
def Obligations.HookedStepRunsHostCode : Prop :=
  ∀ (s : State) (c : Word) (i : Instr) (code : HostCode),
    s.halted = none → s.FetchesWord c → decode c = .ok i →
      (s.hookOf i.key = some (.replace code) →
        step s = .next (({ s with pc := s.pc + 2#16 } : State).hostEffect
          (Config.hostHandler code c { s with pc := s.pc + 2#16 })))
      ∧ (s.hookOf i.key = some (.pre code) →
          ∀ t : State, t = ({ s with pc := s.pc + 2#16 } : State).hostEffect
              (Config.hostCallback code { s with pc := s.pc + 2#16 }) →
            step s = if t.halted = none then exec i t else .next t)
      ∧ (s.hookOf i.key = some (.post code) →
          ∃ t, exec i { s with pc := s.pc + 2#16 } = .next t
            ∧ step s = .next (if t.halted = none then t.hostEffect (Config.hostCallback code t) else t))

/-! ### Load, arithmetic, logic, shift, random -/

/-- R171 to R176: the encodings of 6xkk, 7xkk, 8xy0, 8xy1, 8xy2, 8xy3, their results, and that nothing but V[x] changes (VF too
stays, unless x = F). -/
def Obligations.LoadAndLogicResults : Prop :=
  (∀ c : Word,
    (n1 c = 0x6#4 → decode c = .ok (.ldImm (fieldX c) (fieldKK c)))
      ∧ (n1 c = 0x7#4 → decode c = .ok (.addImm (fieldX c) (fieldKK c)))
      ∧ (n1 c = 0x8#4 → n4 c = 0x0#4 → decode c = .ok (.ldReg (fieldX c) (fieldY c)))
      ∧ (n1 c = 0x8#4 → n4 c = 0x1#4 → decode c = .ok (.orReg (fieldX c) (fieldY c)))
      ∧ (n1 c = 0x8#4 → n4 c = 0x2#4 → decode c = .ok (.andReg (fieldX c) (fieldY c)))
      ∧ (n1 c = 0x8#4 → n4 c = 0x3#4 → decode c = .ok (.xorReg (fieldX c) (fieldY c))))
  ∧ ∀ (s : State) (x y : RegIx) (kk : Byte),
    (∃ t, exec (.ldImm x kk) s = .next t ∧ t.reg x = kk ∧ OnlyRegs [x] s t)
      ∧ (∃ t, exec (.addImm x kk) s = .next t
          ∧ (t.reg x).toNat = ((s.reg x).toNat + kk.toNat) % 256 ∧ OnlyRegs [x] s t)
      ∧ (∃ t, exec (.ldReg x y) s = .next t ∧ t.reg x = s.reg y ∧ OnlyRegs [x] s t)
      ∧ (∃ t, exec (.orReg x y) s = .next t ∧ t.reg x = s.reg x ||| s.reg y ∧ OnlyRegs [x] s t)
      ∧ (∃ t, exec (.andReg x y) s = .next t ∧ t.reg x = s.reg x &&& s.reg y ∧ OnlyRegs [x] s t)
      ∧ (∃ t, exec (.xorReg x y) s = .next t ∧ t.reg x = s.reg x ^^^ s.reg y ∧ OnlyRegs [x] s t)

/-- R177, R178, R180, R183 (the case that VF is the result register is decision D5, log 12): sum and differences mod 256, VF the
carry or not-borrow of the operands as read; where VF is the result register it holds the flag. 8xy7 writes V[y]. With their
encodings. -/
def Obligations.AddSubtractResults : Prop :=
  (∀ c : Word,
    (n1 c = 0x8#4 → n4 c = 0x4#4 → decode c = .ok (.addReg (fieldX c) (fieldY c)))
      ∧ (n1 c = 0x8#4 → n4 c = 0x5#4 → decode c = .ok (.subReg (fieldX c) (fieldY c)))
      ∧ (n1 c = 0x8#4 → n4 c = 0x7#4 → decode c = .ok (.subn (fieldX c) (fieldY c))))
  ∧ ∀ (s : State) (x y : RegIx),
    (∃ t, exec (.addReg x y) s = .next t
        ∧ (x ≠ vf → (t.reg x).toNat = ((s.reg x).toNat + (s.reg y).toNat) % 256)
        ∧ t.reg vf = (if 255 < (s.reg x).toNat + (s.reg y).toNat then 1#8 else 0#8)
        ∧ OnlyRegs [x, vf] s t)
      ∧ (∃ t, exec (.subReg x y) s = .next t
          ∧ (x ≠ vf → (t.reg x).toNat = ((s.reg x).toNat + 256 - (s.reg y).toNat) % 256)
          ∧ t.reg vf = (if (s.reg x).toNat < (s.reg y).toNat then 0#8 else 1#8)
          ∧ OnlyRegs [x, vf] s t)
      ∧ (∃ t, exec (.subn x y) s = .next t
          ∧ (y ≠ vf → (t.reg y).toNat = ((s.reg y).toNat + 256 - (s.reg x).toNat) % 256)
          ∧ t.reg vf = (if (s.reg y).toNat < (s.reg x).toNat then 0#8 else 1#8)
          ∧ OnlyRegs [y, vf] s t)

/-- R179, R181, R183 (the case x = F is decision D5, log 12): shifts by one; VF is the bit shifted out, and where x = F it holds
the shifted result. V[y] is neither read nor written. With their encodings. -/
def Obligations.ShiftResults : Prop :=
  (∀ c : Word,
    (n1 c = 0x8#4 → n4 c = 0x6#4 → decode c = .ok (.shr (fieldX c) (fieldY c)))
      ∧ (n1 c = 0x8#4 → n4 c = 0xE#4 → decode c = .ok (.shl (fieldX c) (fieldY c))))
  ∧ ∀ (s : State) (x y : RegIx),
    (∃ t, exec (.shr x y) s = .next t
        ∧ (t.reg x).toNat = (s.reg x).toNat / 2
        ∧ (x ≠ vf → (t.reg vf).toNat = (s.reg x).toNat % 2)
        ∧ OnlyRegs [x, vf] s t)
      ∧ (∃ t, exec (.shl x y) s = .next t
          ∧ (t.reg x).toNat = (s.reg x).toNat * 2 % 256
          ∧ (x ≠ vf → (t.reg vf).toNat = (s.reg x).toNat / 128)
          ∧ OnlyRegs [x, vf] s t)

/-- R182, R184 (decision D17): V[x] is the draw AND kk. The draw is the next one the host supplied, or a free value of which
nothing is known (the list and the index that say which are the model's choice: DESIGN CHOICE, log 8); besides V[x] only the model's own fields move. With its encoding. -/
def Obligations.RandomResult : Prop :=
  (∀ c : Word, n1 c = 0xC#4 → decode c = .ok (.rnd (fieldX c) (fieldKK c)))
  ∧ ∀ (s : State) (x : RegIx) (kk : Byte),
    ∃ (t : State) (r : Byte), exec (.rnd x kk) s = .next t ∧ t.reg x = r &&& kk
      ∧ (∀ b bs, s.draws = b :: bs → r = b ∧ t.draws = bs ∧ t.freeIndex = s.freeIndex)
      ∧ (s.draws = [] → r = Config.freeByte s.freeIndex ∧ t.draws = [] ∧ t.freeIndex = s.freeIndex + 1)
      ∧ t = { s with v := t.v, draws := t.draws, freeIndex := t.freeIndex }
      ∧ (∀ q : RegIx, q ≠ x → t.reg q = s.reg q) ∧ SameMemory s t

/-! ### Control flow -/

/-- R155 to R158 (that 5xy0 and 9xy0 decode for every n4 is the alias reading, decision D4, log 11): the encodings of the four
register skips, and that they move PC by 2 exactly when their test holds and change nothing else. -/
def Obligations.SkipResults : Prop :=
  (∀ c : Word,
    (n1 c = 0x3#4 → decode c = .ok (.seImm (fieldX c) (fieldKK c)))
      ∧ (n1 c = 0x4#4 → decode c = .ok (.sneImm (fieldX c) (fieldKK c)))
      ∧ (n1 c = 0x5#4 → decode c = .ok (.seReg (fieldX c) (fieldY c)))
      ∧ (n1 c = 0x9#4 → decode c = .ok (.sneReg (fieldX c) (fieldY c))))
  ∧ ∀ (s : State) (x y : RegIx) (kk : Byte),
    (∃ t, exec (.seImm x kk) s = .next t
        ∧ t.pc = (if s.reg x = kk then s.pc + 2#16 else s.pc) ∧ OnlyPC s t)
      ∧ (∃ t, exec (.sneImm x kk) s = .next t
          ∧ t.pc = (if s.reg x ≠ kk then s.pc + 2#16 else s.pc) ∧ OnlyPC s t)
      ∧ (∃ t, exec (.seReg x y) s = .next t
          ∧ t.pc = (if s.reg x = s.reg y then s.pc + 2#16 else s.pc) ∧ OnlyPC s t)
      ∧ (∃ t, exec (.sneReg x y) s = .next t
          ∧ t.pc = (if s.reg x ≠ s.reg y then s.pc + 2#16 else s.pc) ∧ OnlyPC s t)

/-- R151, R153, R159: 0nnn changes nothing (PC is already A + 2); 1nnn loads PC with nnn and Bnnn with V[0] + nnn, unchecked and
not reduced mod 4096; with their encodings. -/
def Obligations.NoOpAndJumpResults : Prop :=
  (∀ c : Word,
    (n1 c = 0x0#4 → n2 c ≠ 0x0#4 → decode c = .ok (.sys (fieldNNN c)))
      ∧ (n1 c = 0x1#4 → decode c = .ok (.jp (fieldNNN c)))
      ∧ (n1 c = 0xB#4 → decode c = .ok (.jpV0 (fieldNNN c))))
  ∧ ∀ (s : State) (nnn : Imm12),
    exec (.sys nnn) s = .next s
      ∧ (∃ t, exec (.jp nnn) s = .next t ∧ t.pc.toNat = nnn.toNat ∧ OnlyPC s t)
      ∧ (∃ t, exec (.jpV0 nnn) s = .next t ∧ t.pc.toNat = (s.reg 0).toNat + nnn.toNat ∧ OnlyPC s t)

/-- R154 below the depth limit (the limit is decision D6, log 13): 2nnn puts the address after it into stack[SP], adds 1 to SP and
loads PC. With its encoding. -/
def Obligations.CallResult : Prop :=
  (∀ c : Word, n1 c = 0x2#4 → decode c = .ok (.call (fieldNNN c)))
  ∧ ∀ (s : State) (nnn : Imm12), s.sp.val < 15 →
    ∃ t, exec (.call nnn) s = .next t
      ∧ t.stack[s.sp.val] = s.pc ∧ (∀ j : Fin 16, j ≠ s.sp → t.stack[j.val] = s.stack[j.val])
      ∧ t.sp.val = s.sp.val + 1 ∧ t.pc.toNat = nnn.toNat
      ∧ t = { s with stack := t.stack, sp := t.sp, pc := t.pc } ∧ SameMemory s t

/-- R152 with a call outstanding (the empty case is decision D7, log 13): 00EE loads PC with the top slot, which keeps its value,
and takes 1 from SP. -/
def Obligations.ReturnResult : Prop :=
  ∀ s : State, 0 < s.sp.val →
    ∃ t, exec .ret s = .next t
      ∧ (∀ j : Fin 16, j.val + 1 = s.sp.val → t.pc = s.stack[j.val])
      ∧ t.sp.val + 1 = s.sp.val
      ∧ t = { s with sp := t.sp, pc := t.pc } ∧ SameMemory s t

/-- R302, R303, R137 (decisions D6, D7, D10; log 3, 13): 2nnn at SP = 15 and 00EE at SP = 0 halt the core and change nothing
else. -/
def Obligations.StackLimitsHalt : Prop :=
  ∀ (s : State) (nnn : Imm12),
    (s.sp.val = 15 → ∃ t, exec (.call nnn) s = .next t ∧ HaltsWith .stackOverflow s t)
      ∧ (s.sp.val = 0 → ∃ t, exec .ret s = .next t ∧ HaltsWith .stackUnderflow s t)

/-- R152, R154 together: a return right after a call comes back to the address after the call, with SP as before, and leaves
only the stale slot behind: every other slot is as before. -/
def Obligations.CallThenReturnComesBack : Prop :=
  ∀ (s : State) (nnn : Imm12), s.sp.val < 15 →
    ∃ t, exec (.call nnn) s = .next t ∧ exec .ret t = .next { s with stack := t.stack }
      ∧ t.stack[s.sp.val] = s.pc ∧ ∀ j : Fin 16, j ≠ s.sp → t.stack[j.val] = s.stack[j.val]

/-! ### Address register and memory -/

/-- R201, R202, R203: Annn, Fx1E (VF is the 16-bit overflow, x = F included) and Fx29 (the whole byte of V[x], for every font
offset and glyph size), with their encodings. -/
def Obligations.IndexRegisterResults : Prop :=
  (∀ c : Word,
    (n1 c = 0xA#4 → decode c = .ok (.ldI (fieldNNN c)))
      ∧ (n1 c = 0xF#4 → fieldKK c = 0x1E#8 → decode c = .ok (.addI (fieldX c)))
      ∧ (n1 c = 0xF#4 → fieldKK c = 0x29#8 → decode c = .ok (.ldF (fieldX c))))
  ∧ ∀ (s : State) (x : RegIx) (nnn : Imm12),
    (∃ t, exec (.ldI nnn) s = .next t ∧ t.i.toNat = nnn.toNat ∧ t = { s with i := t.i } ∧ SameMemory s t)
      ∧ (∃ t, exec (.addI x) s = .next t
          ∧ t.i.toNat = (s.i.toNat + (s.reg x).toNat) % 65536
          ∧ t.reg vf = (if 65535 < s.i.toNat + (s.reg x).toNat then 1#8 else 0#8)
          ∧ (∀ q : RegIx, q ≠ vf → t.reg q = s.reg q)
          ∧ t = { s with v := t.v, i := t.i } ∧ SameMemory s t)
      ∧ (∃ t, exec (.ldF x) s = .next t
          ∧ t.i.toNat = (s.cfg.fontOffset + (s.reg x).toNat * s.cfg.glyphSize) % 65536
          ∧ t = { s with i := t.i } ∧ SameMemory s t)

/-- R204, R65 in bounds: Fx33 stores hundreds, tens and ones at I, I+1, I+2; every other byte and all else is as before. With
its encoding. -/
def Obligations.BcdStoreResult : Prop :=
  (∀ c : Word, n1 c = 0xF#4 → fieldKK c = 0x33#8 → decode c = .ok (.ldB (fieldX c)))
  ∧ ∀ (s : State) (x : RegIx), s.StepInv → s.i.toNat + 3 ≤ 4096 →
    ∃ t, exec (.ldB x) s = .next t
      ∧ (t.byteAt s.i.toNat).toNat = (s.reg x).toNat / 100
      ∧ (t.byteAt (s.i.toNat + 1)).toNat = (s.reg x).toNat / 10 % 10
      ∧ (t.byteAt (s.i.toNat + 2)).toNat = (s.reg x).toNat % 10
      ∧ SameMemoryOutside s.i.toNat 3 s t ∧ t = { s with mem := t.mem }

/-- R205, R65 in bounds: Fx55 stores V[k] at I + k for k = 0 to x; every other byte and all else, I too, is as before.
With its encoding. -/
def Obligations.RegisterStoreResult : Prop :=
  (∀ c : Word, n1 c = 0xF#4 → fieldKK c = 0x55#8 → decode c = .ok (.storeRegs (fieldX c)))
  ∧ ∀ (s : State) (x : RegIx), s.StepInv → s.i.toNat + (x.val + 1) ≤ 4096 →
    ∃ t, exec (.storeRegs x) s = .next t
      ∧ (∀ k : RegIx, k.val ≤ x.val → t.byteAt (s.i.toNat + k.val) = s.reg k)
      ∧ SameMemoryOutside s.i.toNat (x.val + 1) s t ∧ t = { s with mem := t.mem }

/-- R206 in bounds: Fx65 loads V[k] from I + k for k = 0 to x; registers above x and all else, I too, are as before.
With its encoding. -/
def Obligations.RegisterLoadResult : Prop :=
  (∀ c : Word, n1 c = 0xF#4 → fieldKK c = 0x65#8 → decode c = .ok (.loadRegs (fieldX c)))
  ∧ ∀ (s : State) (x : RegIx), s.i.toNat + (x.val + 1) ≤ 4096 →
    ∃ t, exec (.loadRegs x) s = .next t
      ∧ (∀ k : RegIx, k.val ≤ x.val → t.reg k = s.byteAt (s.i.toNat + k.val))
      ∧ (∀ k : RegIx, x.val < k.val → t.reg k = s.reg k)
      ∧ t = { s with v := t.v } ∧ SameMemory s t

/-- R63, R304, R137 (decisions D8, D10, D24; log 3, 14): an access that leaves memory halts Fx33, Fx55, Fx65 and Dxyn (n at least
1) with its first address and count, and with no partial effect. -/
def Obligations.MemoryRangeFaultsHalt : Prop :=
  ∀ (s : State) (x y : RegIx) (n : Count),
    (4096 < s.i.toNat + 3 → ∃ t, exec (.ldB x) s = .next t ∧ HaltsWith (.outOfBoundsMem s.i.toNat 3) s t)
      ∧ (4096 < s.i.toNat + (x.val + 1) →
          ∃ t, exec (.storeRegs x) s = .next t ∧ HaltsWith (.outOfBoundsMem s.i.toNat (x.val + 1)) s t)
      ∧ (4096 < s.i.toNat + (x.val + 1) →
          ∃ t, exec (.loadRegs x) s = .next t ∧ HaltsWith (.outOfBoundsMem s.i.toNat (x.val + 1)) s t)
      ∧ (n.val ≠ 0 → 4096 < s.i.toNat + n.val →
          ∃ t, exec (.drw x y n) s = .next t ∧ HaltsWith (.outOfBoundsMem s.i.toNat n.val) s t)

/-- R205, R206 together: registers stored by Fx55 are loaded back by Fx65, whatever the registers hold in between. -/
def Obligations.StoredRegistersLoadBack : Prop :=
  ∀ (s : State) (x : RegIx) (w : Vector Byte 16), s.StepInv → s.i.toNat + (x.val + 1) ≤ 4096 →
    ∃ t u, exec (.storeRegs x) s = .next t ∧ exec (.loadRegs x) { t with v := w } = .next u
      ∧ ∀ k : RegIx, k.val ≤ x.val → u.reg k = s.reg k

/-- R77 (derived there): storing a byte at any address of memory changes that byte and nothing else. -/
def Obligations.ByteStoreReadsBack : Prop :=
  ∀ (s : State) (a : Nat) (b : Byte), s.StepInv → a < 4096 →
    (∃ t, s.memWrite a [b] = .ok t ∧ t.byteAt a = b ∧ (∀ q : Nat, q ≠ a → t.byteAt q = s.byteAt q)
      ∧ t = { s with mem := t.mem } ∧ t.StepInv)

/-- R74 (derived there), R350: the two bytes that Fx55 stores at PC are the word the next fetch takes. -/
def Obligations.StoredWordIsFetchedNext : Prop :=
  ∀ (s : State) (i : Instr), s.StepInv → s.halted = none → s.i = s.pc → s.pc.toNat + 2 ≤ 4096 →
    decode (wordOfBytes (s.reg 0) (s.reg 1)) = .ok i → s.hookOf i.key = none →
      ∃ t, exec (.storeRegs 1) s = .next t ∧ step t = exec i { t with pc := t.pc + 2#16 }

/-! ### Display -/

/-- R222, R227: 00E0 zeroes every pixel and assigns the change flag whether any pixel was set; VF and all else are as before. -/
def Obligations.ClearDisplayResult : Prop :=
  ∀ s : State, s.StepInv →
    ∃ t, exec .cls s = .next t
      ∧ (∀ r c : Nat, r < s.cfg.rows → c < s.cfg.cols → t.pix.get r c = false)
      ∧ (t.dispChanged = true ↔ ∃ r c : Nat, r < s.cfg.rows ∧ c < s.cfg.cols ∧ s.pix.get r c = true)
      ∧ Grid.wf s.cfg.rows s.cfg.cols t.pix = true
      ∧ t = { s with pix := t.pix, dispChanged := t.dispChanged } ∧ SameMemory s t

/-- R221, R223, R224, R225, R228 (the change flag of a row and the reading of clipped rows are decisions D13, D24; log 14, 17): in
bounds (n = 0 always is), Dxyn XORs the sprite's bits into the pixels they fall on inside the grid; VF is 1 exactly when a set
pixel was erased; the change flag is OR-ed with whether a bit fell inside the grid; all else is as before. With its encoding. -/
def Obligations.DrawSpriteResult : Prop :=
  (∀ c : Word, n1 c = 0xD#4 → decode c = .ok (.drw (fieldX c) (fieldY c) (fieldN c)))
  ∧ ∀ (s : State) (x y : RegIx) (n : Count), s.StepInv → (n.val = 0 ∨ s.i.toNat + n.val ≤ 4096) →
    ∃ t, exec (.drw x y n) s = .next t
      ∧ (∀ r c : Nat, r < s.cfg.rows → c < s.cfg.cols →
          t.pix.get r c
            = (s.pix.get r c ^^ spriteBit (s.bytesAt s.i.toNat n.val) (s.reg x).toNat (s.reg y).toNat r c))
      ∧ ((∃ r c : Nat, r < s.cfg.rows ∧ c < s.cfg.cols ∧ s.pix.get r c = true ∧ t.pix.get r c = false) → t.reg vf = 1#8)
      ∧ (¬ (∃ r c : Nat, r < s.cfg.rows ∧ c < s.cfg.cols ∧ s.pix.get r c = true ∧ t.pix.get r c = false) →
          t.reg vf = 0#8)
      ∧ (t.dispChanged = true ↔ s.dispChanged = true ∨ ∃ r c : Nat, r < s.cfg.rows ∧ c < s.cfg.cols
          ∧ spriteBit (s.bytesAt s.i.toNat n.val) (s.reg x).toNat (s.reg y).toNat r c = true)
      ∧ Grid.wf s.cfg.rows s.cfg.cols t.pix = true
      ∧ (∀ q : RegIx, q ≠ vf → t.reg q = s.reg q)
      ∧ t = { s with v := t.v, pix := t.pix, dispChanged := t.dispChanged } ∧ SameMemory s t

/-- R226: neither the start position nor the pixels wrap. A pixel that a draw changes lies at most 7 columns right of V[x] and
less than n rows below V[y]; a start at or past the right or the bottom edge draws nothing and gives collision false. -/
def Obligations.DrawNeverWraps : Prop :=
  ∀ (s t : State) (x y : RegIx) (n : Count), s.StepInv → (n.val = 0 ∨ s.i.toNat + n.val ≤ 4096) →
    exec (.drw x y n) s = .next t →
      (∀ r c : Nat, r < s.cfg.rows → c < s.cfg.cols → t.pix.get r c ≠ s.pix.get r c →
        (s.reg x).toNat ≤ c ∧ c < (s.reg x).toNat + 8 ∧ (s.reg y).toNat ≤ r ∧ r < (s.reg y).toNat + n.val)
      ∧ (s.cfg.cols ≤ (s.reg x).toNat ∨ s.cfg.rows ≤ (s.reg y).toNat → t.pix = s.pix ∧ t.reg vf = 0#8)

/-! ### Keyboard and timers -/

/-- R241, R242 on a latch that exists (the range is decision D9, log 15): Ex9E skips when Key[V[x]] is pressed, ExA1 when it is
not; nothing but PC changes. -/
def Obligations.KeySkipResults : Prop :=
  ∀ (s : State) (x : RegIx) (k : KeyIx), (s.reg x).toNat = k.val →
    (∃ t, exec (.skp x) s = .next t
        ∧ t.pc = (if s.key[k.val] = true then s.pc + 2#16 else s.pc) ∧ OnlyPC s t)
      ∧ (∃ t, exec (.sknp x) s = .next t
          ∧ t.pc = (if s.key[k.val] = true then s.pc else s.pc + 2#16) ∧ OnlyPC s t)

/-- R247, R305, R137 (decisions D9, D10; log 3, 15): Ex9E and ExA1 with V[x] of 16 or more halt the core with that index and change
nothing else. -/
def Obligations.KeyIndexFaultsHalt : Prop :=
  ∀ (s : State) (x : RegIx), 16 ≤ (s.reg x).toNat →
    (∃ t, exec (.skp x) s = .next t ∧ HaltsWith (.outOfBoundsKey (s.reg x).toNat) s t)
      ∧ (∃ t, exec (.sknp x) s = .next t ∧ HaltsWith (.outOfBoundsKey (s.reg x).toNat) s t)

/-- R243, R245, R246, R30: Fx07 reads DT, Fx15 writes DT, Fx18 writes ST and sets buzzer_changed on a zero/nonzero transition
(and never clears it); nothing else changes. With their encodings. -/
def Obligations.TimerRegisterResults : Prop :=
  (∀ c : Word,
    (n1 c = 0xF#4 → fieldKK c = 0x07#8 → decode c = .ok (.ldVxDT (fieldX c)))
      ∧ (n1 c = 0xF#4 → fieldKK c = 0x15#8 → decode c = .ok (.ldDTVx (fieldX c)))
      ∧ (n1 c = 0xF#4 → fieldKK c = 0x18#8 → decode c = .ok (.ldSTVx (fieldX c))))
  ∧ ∀ (s : State) (x : RegIx),
    (∃ t, exec (.ldVxDT x) s = .next t ∧ t.reg x = s.dt ∧ OnlyRegs [x] s t)
      ∧ (∃ t, exec (.ldDTVx x) s = .next t ∧ t.dt = s.reg x ∧ t = { s with dt := t.dt } ∧ SameMemory s t)
      ∧ (∃ t, exec (.ldSTVx x) s = .next t ∧ t.st = s.reg x
          ∧ (t.buzzerChanged = true ↔ s.buzzerChanged = true ∨ ¬ (s.st = 0#8 ↔ s.reg x = 0#8))
          ∧ t = { s with st := t.st, buzzerChanged := t.buzzerChanged } ∧ SameMemory s t)

/-- R244: Fx0A captures the lowest-indexed pressed key, or with no key pressed moves PC back to its own address. With its
encoding. -/
def Obligations.KeyWaitResult : Prop :=
  (∀ c : Word, n1 c = 0xF#4 → fieldKK c = 0x0A#8 → decode c = .ok (.ldVxK (fieldX c)))
  ∧ ∀ (s : State) (x : RegIx),
    (∀ k : KeyIx, s.key[k.val] = true → (∀ j : KeyIx, j.val < k.val → s.key[j.val] = false) →
        ∃ t, exec (.ldVxK x) s = .next t ∧ (t.reg x).toNat = k.val ∧ OnlyRegs [x] s t)
      ∧ ((∀ k : KeyIx, s.key[k.val] = false) →
          ∃ t, exec (.ldVxK x) s = .next t ∧ t.pc = s.pc - 2#16 ∧ OnlyPC s t)

/-- R244, R281c: while no key is pressed, any number of steps at an unhooked Fx0A leaves the whole state as it is. -/
def Obligations.KeyWaitHoldsTheMachine : Prop :=
  ∀ (s : State) (c : Word) (x : RegIx) (n : Nat),
    s.halted = none → s.FetchesWord c → decode c = .ok (.ldVxK x) → s.hookOf .kFx0A = none →
      (∀ k : KeyIx, s.key[k.val] = false) → runSteps n s = .next s

/-! ### Rules of the whole machine -/

/-- R300, R310, R137 (the conditions are decisions D6 to D10; log 3, 13, 14, 15): an instruction halts a running core only as the
table of conditions says, exactly when it says so, and then changes nothing else. -/
def Obligations.OnlyListedInstructionsHalt : Prop :=
  ∀ (i : Instr) (s t : State), s.halted = none → exec i s = .next t →
    (∀ c, t.halted = some c → Raises s c i ∧ HaltsWith c s t) ∧ (∀ c, Raises s c i → t.halted = some c)

/-- R25: where every step leaves PC, unless a hook stands on the key of the word it fetches or it halts (an unknown word too
moves it by 2). -/
def Obligations.ProgramCounterAfterEveryStep : Prop :=
  ∀ (s t : State) (c : Word), s.halted = none → s.FetchesWord c → (∀ i, decode c = .ok i → s.hookOf i.key = none) →
    step s = .next t → t.halted = none →
    (∀ i, decode c = .ok i → t.pc = pcAfter s i) ∧ (∀ e, decode c = .error e → t.pc = s.pc + 2#16)

/-- R22 (decision D27 for the byte, D5 for the shifts into VF; log 12): VF changes only by the seven flag writers or by an
instruction that names F as its destination, and a flag writer leaves 0 or 1 there unless it is a shift of VF itself or it
halted. -/
def Obligations.FlagChangesOnlyWhereListed : Prop :=
  ∀ (i : Instr) (s t : State), s.halted = none → exec i s = .next t →
    (¬ IsFlagWriter i → ¬ NamesVF i → t.reg vf = s.reg vf)
      ∧ (IsFlagWriter i → t.halted = none → (∀ y, i ≠ .shr vf y) → (∀ y, i ≠ .shl vf y) →
          t.reg vf = 0#8 ∨ t.reg vf = 1#8)

/-- R62, R77, R200: only Fx33 and Fx55 change memory, and only the 3 or x + 1 bytes from I on. -/
def Obligations.MemoryChangesOnlyByStores : Prop :=
  ∀ (i : Instr) (s t : State), s.StepInv → exec i s = .next t →
    ((∀ x, i ≠ .ldB x) → (∀ x, i ≠ .storeRegs x) → t.mem = s.mem ∧ SameMemory s t)
      ∧ (∀ x, i = .ldB x → SameMemoryOutside s.i.toNat 3 s t)
      ∧ (∀ x, i = .storeRegs x → SameMemoryOutside s.i.toNat (x.val + 1) s t)

/-- R138, R31, R37 to R41: with no hook installed a step touches neither the key latches, the key queue, the held key, the cycle
index, the configuration registers, the hook table nor the parameters, and it changes DT only by Fx15 and ST only by Fx18. -/
def Obligations.StepLeavesSchedulerAlone : Prop :=
  ∀ s t : State, s.NoHooks → step s = .next t →
    t.key = s.key ∧ t.keyq = s.keyq ∧ t.held = s.held ∧ t.cycleIndex = s.cycleIndex
      ∧ t.ipc = s.ipc ∧ t.freq = s.freq ∧ t.pacing = s.pacing ∧ t.hooks = s.hooks ∧ t.cfg = s.cfg
      ∧ ((∀ c x, s.FetchesWord c → decode c ≠ .ok (.ldDTVx x)) → t.dt = s.dt)
      ∧ ((∀ c x, s.FetchesWord c → decode c ≠ .ok (.ldSTVx x)) → t.st = s.st)

/-- R23, R26, R27: I changes only by Annn, Fx1E and Fx29; SP and the stack only by 2nnn and 00EE; the display only by 00E0 and
Dxyn (R34). Slot 15 never changes: that rests on decision D6 and conflict C3 (log 13), and R27 marks it as derived. -/
def Obligations.IndexStackAndDisplayChangeOnlyWhereListed : Prop :=
  ∀ (i : Instr) (s t : State), exec i s = .next t →
    ((∀ nnn, i ≠ .ldI nnn) → (∀ x, i ≠ .addI x) → (∀ x, i ≠ .ldF x) → t.i = s.i)
      ∧ ((∀ nnn, i ≠ .call nnn) → i ≠ .ret → t.sp = s.sp ∧ t.stack = s.stack)
      ∧ t.stack[15] = s.stack[15]
      ∧ (i ≠ .cls → (∀ x y n, i ≠ .drw x y n) → t.pix = s.pix ∧ t.dispChanged = s.dispChanged)

/-! ### Invariants -/

/-- R45: the reset state meets the invariant (its parameters are the PRESUMED defaults of log 4 and 5), and so does every block
that construction accepts (R341, decision D20, log 29; what it refuses is decision D19, log 28). The invariant is the model's:
its canonical memory is DESIGN CHOICE (log 20); the grid's size is R34, the legal parameters are R6 (decisions D2, D3), IPC at
least 1 is R40 (decision D19), and that no key is held is R47. -/
def Obligations.ResetStateMeetsInvariant : Prop :=
  State.reset.Inv ∧ ∀ (cfg : Config) (ipc freq : Nat) (pacing : Bool) (s : State),
    construct cfg ipc freq pacing = .ok s → s.Inv ∧ s.NoHooks

/-- Every step keeps the invariant, from every state that meets it, whatever hooked host code does. The invariant is the model's:
memory in canonical form (DESIGN CHOICE, log 20), the grid's size (R34), legal parameters (R6; decisions D2, D3; log 4, 5, 26)
and IPC at least 1 (R40; decision D19, log 18). That a hooked step is run at all, and writes MachineState only, is the model's
choice (DESIGN CHOICE, log 9; log 30); R320 says that with a hook the block can do anything. -/
def Obligations.StepKeepsInvariant : Prop :=
  ∀ s t : State, s.StepInv → step s = .next t → t.StepInv

/-- Every transaction of the interface keeps the invariant between transactions, and so does every list of them. That no key is
held while the core is not halted is R47; the rest of the invariant is the model's: memory in canonical form (DESIGN CHOICE,
log 20), the grid's size (R34), legal parameters (R6; decisions D2, D3; log 4, 5, 26) and IPC at least 1 (R40; decision D19,
log 18). That steps and cycles with hooks installed are run at all, and that host code writes MachineState only, is the model's
choice (DESIGN CHOICE, log 9; log 30). -/
def Obligations.TransactionsKeepInvariant : Prop :=
  (∀ (x : Transaction) (s t : State) (r : Reply), s.Inv → transact x s = .next (t, r) → t.Inv)
    ∧ ∀ (xs : List Transaction) (s t : State), s.Inv → transactAll xs s = .next t → t.Inv

/-- The transactions are the list of R275: each answers, in every state, and no step, cycle or port ends in a fault or a refusal
of the model. That a fatal condition is a next state is decision D10 (log 3); that a hooked step is run and answers is the
model's choice (DESIGN CHOICE, log 9: U17 lets a model refuse it); that host arguments are refused by a reply is decisions D22
and D26 (log 19). -/
def Obligations.EveryTransactionAnswers : Prop :=
  ∀ (x : Transaction) (s : State), ∃ (t : State) (r : Reply), transact x s = .next (t, r)

/-- R307, R47 (decision D10, log 3): a halted core stays halted with its condition under every transaction but reset, and step and
cycle change nothing and return it; reset clears it. -/
def Obligations.HaltLatchHoldsUntilReset : Prop :=
  ∀ (s : State) (c : Condition), s.halted = some c →
    (∀ (x : Transaction) (t : State) (r : Reply), x ≠ .reset → transact x s = .next (t, r) → t.halted = some c)
      ∧ transact .step s = .next (s, .fatal c)
      ∧ (∀ p, transact (.cycle p) s = .next (s, .fatal c))
      ∧ ∃ t, transact .reset s = .next (t, .done) ∧ t.halted = none

/-! ### Reset -/

/-- R45, R343 (I, SP, latches, display, flags, queue, held key, counters and memory outside the font are decision D12, log 6; the
model's choices: the display size is the PRESUMED default of log 4, the font's place, glyph size and bytes are the PRESUMED
defaults of log 5, PACING is the DESIGN CHOICE of log 7): the state right after reset, with the font bytes of R33 written out. -/
def Obligations.ResetState : Prop :=
  (∀ r : RegIx, State.reset.reg r = 0#8) ∧ State.reset.i = 0#16 ∧ State.reset.pc = 0x200#16
    ∧ State.reset.sp = 0 ∧ (∀ j : Fin 16, State.reset.stack[j.val] = 0#16)
    ∧ State.reset.dt = 0#8 ∧ State.reset.st = 0#8 ∧ (∀ k : KeyIx, State.reset.key[k.val] = false)
    ∧ State.reset.cfg.cols = 64 ∧ State.reset.cfg.rows = 32 ∧ Grid.wf 32 64 State.reset.pix = true
    ∧ (∀ r c : Nat, r < 32 → c < 64 → State.reset.pix.get r c = false)
    ∧ State.reset.dispChanged = false ∧ State.reset.buzzerChanged = false
    ∧ State.reset.keyq = [] ∧ State.reset.held = none ∧ State.reset.cycleIndex = 0
    ∧ State.reset.halted = none ∧ State.reset.ulog = [] ∧ State.reset.NoHooks ∧ State.reset.ipc = 9
    ∧ State.reset.freq = 60 ∧ State.reset.pacing = false
    ∧ State.reset.cfg.fontOffset = 0 ∧ State.reset.cfg.glyphSize = 5
    ∧ (∀ a : Nat, a < 80 → State.reset.byteAt a = State.reset.cfg.fontTable.getD a 0#8)
    ∧ State.reset.bytesAt 0 5 = [0xF0#8, 0x90#8, 0x90#8, 0x90#8, 0xF0#8]
      ∧ State.reset.bytesAt 5 5 = [0x20#8, 0x60#8, 0x20#8, 0x20#8, 0x70#8]
    ∧ State.reset.bytesAt 10 5 = [0xF0#8, 0x10#8, 0xF0#8, 0x80#8, 0xF0#8]
      ∧ State.reset.bytesAt 15 5 = [0xF0#8, 0x10#8, 0xF0#8, 0x10#8, 0xF0#8]
    ∧ State.reset.bytesAt 20 5 = [0x90#8, 0x90#8, 0xF0#8, 0x10#8, 0x10#8]
      ∧ State.reset.bytesAt 25 5 = [0xF0#8, 0x80#8, 0xF0#8, 0x10#8, 0xF0#8]
    ∧ State.reset.bytesAt 30 5 = [0xF0#8, 0x80#8, 0xF0#8, 0x90#8, 0xF0#8]
      ∧ State.reset.bytesAt 35 5 = [0xF0#8, 0x10#8, 0x20#8, 0x40#8, 0x40#8]
    ∧ State.reset.bytesAt 40 5 = [0xF0#8, 0x90#8, 0xF0#8, 0x90#8, 0xF0#8]
      ∧ State.reset.bytesAt 45 5 = [0xF0#8, 0x90#8, 0xF0#8, 0x10#8, 0xF0#8]
    ∧ State.reset.bytesAt 50 5 = [0xF0#8, 0x90#8, 0xF0#8, 0x90#8, 0x90#8]
      ∧ State.reset.bytesAt 55 5 = [0xE0#8, 0x90#8, 0xE0#8, 0x90#8, 0xE0#8]
    ∧ State.reset.bytesAt 60 5 = [0xF0#8, 0x80#8, 0x80#8, 0x80#8, 0xF0#8]
      ∧ State.reset.bytesAt 65 5 = [0xE0#8, 0x90#8, 0x90#8, 0x90#8, 0xE0#8]
    ∧ State.reset.bytesAt 70 5 = [0xF0#8, 0x80#8, 0xF0#8, 0x80#8, 0xF0#8]
      ∧ State.reset.bytesAt 75 5 = [0xF0#8, 0x80#8, 0xF0#8, 0x80#8, 0x80#8]
    ∧ (∀ a : Nat, 80 ≤ a → a < 4096 → State.reset.byteAt a = 0#8)

/-- R340, R342 (decisions D12, D18; log 6, 24): `reset()` from any state gives the constructed state again, but for the hook table,
the configuration registers and the parameters, which stay; the loaded image is gone. That the model's own fields stay too is
the model's choice (DESIGN CHOICE, log 24). -/
def Obligations.HostResetRestoresResetState : Prop :=
  ∀ s : State, ∃ t, transact .reset s = .next (t, .done)
    ∧ t = { State.initial s.cfg s.ipc s.freq s.pacing with
              hooks := s.hooks, draws := s.draws, freeIndex := s.freeIndex }
    ∧ ∀ a : Nat, a < 4096 → t.byteAt a
        = if s.cfg.fontOffset ≤ a ∧ a < s.cfg.fontOffset + 16 * s.cfg.glyphSize
          then s.cfg.fontTable.getD (a - s.cfg.fontOffset) 0#8 else 0#8

/-! ### The scheduler -/

/-- R261 to R268 (decisions D14, D16, D19; log 17, 18): a cycle whose IPC steps, run one by one after the key injection, leave the
core running is those steps, then each timer's decrement, the release of the injected key, and the Frame, which clears both
change flags and counts the cycle. -/
def Obligations.CycleRunsExactlyIpcSteps : Prop :=
  ∀ (s u : State) (p : Profile), s.Inv → s.halted = none → runSteps s.ipc s.injectKey = .next u → u.halted = none →
    ∃ t f, cycle p s = .next (t, .frame f)
      ∧ t.dt.toNat = u.dt.toNat - 1 ∧ t.st.toNat = u.st.toNat - 1
      ∧ t.key = (match s.keyq with | [] => u.key | k :: _ => u.key.set k.val false)
      ∧ f.changed = (u.dispChanged || u.buzzerChanged || decide (u.st = 1#8))
      ∧ t = { u with dt := t.dt, st := t.st, key := t.key, held := none, dispChanged := false, buzzerChanged := false,
                     cycleIndex := s.cycleIndex + 1 }

/-- R274 (decision D10, log 3): a cycle in whose batch a step halts the core ends there: no decrement, no release, no Frame, the
cycle not counted, and the condition returned. -/
def Obligations.CycleCutShortByFatalCondition : Prop :=
  ∀ (s u : State) (c : Condition) (p : Profile),
    s.halted = none → runSteps s.ipc s.injectKey = .next u → u.halted = some c → cycle p s = .next (u, .fatal c)

/-- R264: a completed cycle lowers each timer by 1 if it is above 0, once, whatever IPC is, from the value that the batch of
steps leaves (so a value written in the cycle is decremented at its end); the batch starts from the value the cycle before left.
With no hook installed and no Fx15 or Fx18 fetched in the batch, the cycle lowers each timer by exactly that. -/
def Obligations.TimersDecrementOncePerCycle : Prop :=
  ∀ (s t : State) (p : Profile) (f : Frame), cycle p s = .next (t, .frame f) →
    s.injectKey.dt = s.dt ∧ s.injectKey.st = s.st
      ∧ (∃ u, runSteps s.ipc s.injectKey = .next u ∧ t.dt.toNat = u.dt.toNat - 1 ∧ t.st.toNat = u.st.toNat - 1)
      ∧ (s.NoHooks →
          (∀ (n : Nat) (u : State) (c : Word) (x : RegIx),
            n < s.ipc → runSteps n s.injectKey = .next u → u.FetchesWord c →
              decode c ≠ .ok (.ldDTVx x) ∧ decode c ≠ .ok (.ldSTVx x)) →
          t.dt.toNat = s.dt.toNat - 1 ∧ t.st.toNat = s.st.toNat - 1)

/-- R262, R267, R281a, R281d (decision D15, log 18): the oldest queued key is pressed for all steps of one cycle and released at
its end; other latches, and all latches when no key is queued, are as before. -/
def Obligations.QueuedKeyLastsOneCycle : Prop :=
  ∀ (s t : State) (p : Profile) (f : Frame), s.Inv → s.halted = none → s.NoHooks →
    cycle p s = .next (t, .frame f) →
      t.held = none
        ∧ (∀ k ks, s.keyq = k :: ks →
            t.keyq = ks ∧ t.key[k.val] = false ∧ (∀ j : KeyIx, j ≠ k → t.key[j.val] = s.key[j.val])
              ∧ ∀ (n : Nat) (u : State), n ≤ s.ipc → runSteps n s.injectKey = .next u → u.key[k.val] = true)
        ∧ (s.keyq = [] → t.keyq = [] ∧ t.key = s.key)

/-- R268, R269 (decisions D14, D16; log 17, 18): the Frame carries the index of the cycle, the pixels, ST > 0 and the variables as
the cycle leaves them; the change flags are clear afterwards. That the Frame holds the refusal of a variable whose index is out
of range in place of its value is the model's choice (DESIGN CHOICE, log 22; R279 is silent on it). -/
def Obligations.FrameReportsTheCycle : Prop :=
  ∀ (s t : State) (p : Profile) (f : Frame), cycle p s = .next (t, .frame f) →
    f.index = s.cycleIndex ∧ t.cycleIndex = s.cycleIndex + 1 ∧ f.pixels = t.pix
      ∧ (f.buzzer = true ↔ t.st ≠ 0#8) ∧ t.dispChanged = false ∧ t.buzzerChanged = false
      ∧ f.vars = p.map (fun nv => (nv.1, match t.getVariable nv.2 with | .ok n => .value n | .error e => .refused e))

/-! ### Host ports -/

/-- R273 (decision D14, log 17): the query returns whether the display or the buzzer changed, clears both, and the query right
after it returns false. -/
def Obligations.OutputChangedReadsOnce : Prop :=
  ∀ s : State, ∃ t, transact .outputChanged s = .next (t, .bit (s.dispChanged || s.buzzerChanged))
    ∧ t = { s with dispChanged := false, buzzerChanged := false }
    ∧ transact .outputChanged t = .next (t, .bit false)

/-- R276, R306 (decision D26, log 19): a list of at most 3584 bytes is copied to 0x200 and nothing else changes; a longer one is
refused whole. -/
def Obligations.LoadRomPlacesTheImage : Prop :=
  ∀ (s : State) (image : List Byte), s.StepInv →
    (image.length ≤ 3584 → ∃ t, transact (.loadRom image) s = .next (t, .done)
        ∧ (∀ k : Nat, k < image.length → t.byteAt (0x200 + k) = image.getD k 0#8)
        ∧ SameMemoryOutside 0x200 image.length s t ∧ t = { s with mem := t.mem })
      ∧ (3584 < image.length → transact (.loadRom image) s = .next (s, .refused (.romTooLarge image.length)))

/-- R270, R271, R272, R279, R184 (decision D22, log 19): key and query ports, the actions of a profile and the supply of a draw on
legal arguments, and the refusals on others, which change nothing. The model's choices: the one index that a refusal carries
(DESIGN CHOICE, log 34), and that supplied draws wait in a list of the model's own (DESIGN CHOICE, log 8). -/
def Obligations.KeyAndQueryPorts : Prop :=
  ∀ (s : State) (k : Nat) (actions : List Nat) (a : Nat) (b : Byte),
    (∀ h : k < 16,
        transact (.queueKey k) s = .next ({ s with keyq := s.keyq ++ [⟨k, h⟩] }, .done)
          ∧ transact (.keyDown k) s = .next ({ s with key := s.key.set k true }, .done)
          ∧ transact (.keyUp k) s = .next ({ s with key := s.key.set k false }, .done)
          ∧ transact (.getVariable (.register k)) s = .next (s, .number (s.reg ⟨k, h⟩).toNat))
      ∧ (16 ≤ k →
          transact (.queueKey k) s = .next (s, .refused (.outOfBounds k))
            ∧ transact (.keyDown k) s = .next (s, .refused (.outOfBounds k))
            ∧ transact (.keyUp k) s = .next (s, .refused (.outOfBounds k))
            ∧ transact (.getVariable (.register k)) s = .next (s, .refused (.outOfBounds k)))
      ∧ (k + 2 ≤ 4095 → transact (.getVariable (.memBcd k)) s
          = .next (s, .number ((s.byteAt k).toNat * 100 + (s.byteAt (k + 1)).toNat * 10 + (s.byteAt (k + 2)).toNat)))
      ∧ (4095 < k + 2 → transact (.getVariable (.memBcd k)) s = .next (s, .refused (.outOfBounds k)))
      ∧ transact .getDisplayBuffer s = .next (s, .pixels s.pix)
      ∧ transact .getBuzzerState s = .next (s, .bit (decide (0 < s.st.toNat)))
      ∧ transact .readLog s = .next (s, .log s.ulog)
      ∧ s.takeAction actions 0 = .ok s
      ∧ (actions[a]? = some k → ∀ h : k < 16, s.takeAction actions (a + 1) = .ok { s with keyq := s.keyq ++ [⟨k, h⟩] })
      ∧ (actions[a]? = some k → 16 ≤ k → s.takeAction actions (a + 1) = .error (.outOfBounds k))
      ∧ (actions.length ≤ a → s.takeAction actions (a + 1) = .error (.outOfBounds (a + 1)))
      ∧ transact (.supplyRandom b) s = .next ({ s with draws := s.draws ++ [b] }, .done)

/-- R315 to R319 (decision D18): the hook port sets or clears the one entry of the named key, overwriting what stood there, and
changes nothing else; any other string is refused. The model's choices: the entry holds a name for the host's code and not the
code (DESIGN CHOICE, log 9), and the refusal is `unknownKey` carrying the string (DESIGN CHOICE, log 34; R319 says only
"refused with an error"). -/
def Obligations.HookPortSetsOneKey : Prop :=
  (∀ (s : State) (k : Key) (code : HostCode) (x : Transaction) (h : Option Hook),
      (x, h) ∈ [(.hook k.name code, some (.replace code)), (.unhook k.name, none),
          (.preHook k.name code, some (.pre code)), (.postHook k.name code, some (.post code))] →
        ∃ t, transact x s = .next (t, .done) ∧ t.hookOf k = h ∧ (∀ j : Key, j ≠ k → t.hookOf j = s.hookOf j)
          ∧ t = { s with hooks := t.hooks })
    ∧ ∀ (s : State) (name : String) (code : HostCode), (∀ k : Key, k.name ≠ name) →
        transact (.hook name code) s = .next (s, .refused (.unknownKey name))
          ∧ transact (.unhook name) s = .next (s, .refused (.unknownKey name))
          ∧ transact (.preHook name code) s = .next (s, .refused (.unknownKey name))
          ∧ transact (.postHook name code) s = .next (s, .refused (.unknownKey name))

/-! ### The end of a run -/

/-- R357a, R153 (decision D10; `Parked` compares the whole State, log 33): an unhooked 1nnn whose target is its own address parks a running core. -/
def Obligations.SelfJumpParks : Prop :=
  ∀ (s : State) (c : Word) (nnn : Imm12),
    s.halted = none → s.FetchesWord c → decode c = .ok (.jp nnn) → s.hookOf .k1nnn = none → s.pc.toNat = nnn.toNat →
      s.Parked
end

