-- ==== Sys2Proof/Laws/Decode.lean ====
section
/-! SUPPORT. What each operand field of an encoded word is (R91, R92), for the three encoding shapes of `encode`. -/

namespace Sys2Proof

/-- The high part of an appended word. -/
theorem extractLsb'_append_high {n m : Nat} (a : BitVec n) (b : BitVec m) : (a ++ b).extractLsb' m n = a := by
  apply BitVec.eq_of_getLsbD_eq
  intro i hi
  have h1 : ¬ m + i < m := by omega
  simp [BitVec.getLsbD_append, hi]

/-- The low part of an appended word. -/
theorem extractLsb'_append_low {n m : Nat} (a : BitVec n) (b : BitVec m) : (a ++ b).extractLsb' 0 m = b := by
  apply BitVec.eq_of_getLsbD_eq
  intro i hi
  simp [BitVec.getLsbD_append, hi]

/-- A field that lies in the low part of an appended word. -/
theorem extractLsb'_append_of_le {n m s k : Nat} (a : BitVec n) (b : BitVec m) (h : s + k ≤ m) :
    (a ++ b).extractLsb' s k = b.extractLsb' s k := by
  apply BitVec.eq_of_getLsbD_eq
  intro i hi
  have h1 : s + i < m := by omega
  simp [BitVec.getLsbD_append, hi, h1]

/-- A field that lies in the high part of an appended word. -/
theorem extractLsb'_append_of_ge {n m s k : Nat} (a : BitVec n) (b : BitVec m) (h : m ≤ s) :
    (a ++ b).extractLsb' s k = a.extractLsb' (s - m) k := by
  apply BitVec.eq_of_getLsbD_eq
  intro i hi
  have h1 : ¬ s + i < m := by omega
  have h2 : s + i - m = s - m + i := by omega
  simp [BitVec.getLsbD_append, hi, h1, h2]

theorem extractLsb'_whole {n : Nat} (a : BitVec n) : a.extractLsb' 0 n = a := by
  apply BitVec.eq_of_getLsbD_eq
  intro i hi
  simp [hi]

/-! ### Format NNN -/

@[simp] theorem n1_encNNN (a : BitVec 4) (nnn : Imm12) : n1 (encNNN a nnn) = a := extractLsb'_append_high a nnn

@[simp] theorem fieldNNN_encNNN (a : BitVec 4) (nnn : Imm12) : fieldNNN (encNNN a nnn) = nnn := extractLsb'_append_low a nnn

@[simp] theorem n2_encNNN (a : BitVec 4) (nnn : Imm12) : n2 (encNNN a nnn) = nnn.extractLsb' 8 4 :=
  extractLsb'_append_of_le a nnn (by omega)

/-! ### Formats XKK, XK, XF -/

@[simp] theorem n1_encXKK (a : BitVec 4) (x : RegIx) (kk : Byte) : n1 (encXKK a x kk) = a := by
  unfold n1 encXKK
  rw [extractLsb'_append_of_ge _ _ (by omega)]
  exact extractLsb'_append_high a (nib x)

@[simp] theorem fieldX_encXKK (a : BitVec 4) (x : RegIx) (kk : Byte) : fieldX (encXKK a x kk) = x := by
  unfold fieldX n2 encXKK
  rw [extractLsb'_append_of_ge _ _ (by omega)]
  have h : (a ++ nib x).extractLsb' (8 - 8) 4 = nib x := extractLsb'_append_low a (nib x)
  rw [h]
  rfl

@[simp] theorem fieldKK_encXKK (a : BitVec 4) (x : RegIx) (kk : Byte) : fieldKK (encXKK a x kk) = kk :=
  extractLsb'_append_low _ kk

@[simp] theorem n4_encXKK (a : BitVec 4) (x : RegIx) (kk : Byte) : n4 (encXKK a x kk) = kk.extractLsb' 0 4 :=
  extractLsb'_append_of_le _ kk (by omega)

/-! ### Formats XY, XYO, XYN -/

@[simp] theorem n1_encXYN (a : BitVec 4) (x y : RegIx) (d : BitVec 4) : n1 (encXYN a x y d) = a := by
  unfold n1 encXYN
  rw [extractLsb'_append_of_ge _ _ (by omega), extractLsb'_append_of_ge _ _ (by omega)]
  exact extractLsb'_append_high a (nib x)

@[simp] theorem fieldX_encXYN (a : BitVec 4) (x y : RegIx) (d : BitVec 4) : fieldX (encXYN a x y d) = x := by
  unfold fieldX n2 encXYN
  rw [extractLsb'_append_of_ge _ _ (by omega), extractLsb'_append_of_ge _ _ (by omega)]
  have h : (a ++ nib x).extractLsb' (8 - 4 - 4) 4 = nib x := extractLsb'_append_low a (nib x)
  rw [h]
  rfl

@[simp] theorem fieldY_encXYN (a : BitVec 4) (x y : RegIx) (d : BitVec 4) : fieldY (encXYN a x y d) = y := by
  unfold fieldY n3 encXYN
  rw [extractLsb'_append_of_ge _ _ (by omega)]
  have h : ((a ++ nib x : BitVec 8) ++ nib y).extractLsb' (4 - 4) 4 = nib y := extractLsb'_append_low _ (nib y)
  rw [h]
  rfl

@[simp] theorem n4_encXYN (a : BitVec 4) (x y : RegIx) (d : BitVec 4) : n4 (encXYN a x y d) = d :=
  extractLsb'_append_low _ d

@[simp] theorem fieldN_encXYN (a : BitVec 4) (x y : RegIx) (d : BitVec 4) : fieldN (encXYN a x y d) = d.toFin := by
  unfold fieldN
  rw [n4_encXYN]

/-! ### Words and bytes -/

/-- A word is its high part appended to its low part. -/
theorem append_extractLsb' {n m : Nat} (c : BitVec (n + m)) : c.extractLsb' m n ++ c.extractLsb' 0 m = c := by
  apply BitVec.eq_of_getLsbD_eq
  intro i hi
  simp

/-- The word of a word's two bytes is the word (R64). -/
theorem wordOfBytes_bytesOfWord (c : Word) : wordOfBytes (c.extractLsb' 8 8) (c.extractLsb' 0 8) = c :=
  append_extractLsb' (n := 8) (m := 8) c

/-- R64: the word is `hi * 256 + lo`. -/
theorem wordOfBytes_toNat (hi lo : Byte) : (wordOfBytes hi lo).toNat = hi.toNat * 256 + lo.toNat := by
  have h := lo.isLt
  have e : (wordOfBytes hi lo).toNat = hi.toNat <<< 8 ||| lo.toNat := BitVec.toNat_append hi lo
  rw [e, ← Nat.shiftLeft_add_eq_or_of_lt h, Nat.shiftLeft_eq]

theorem decodeBytes_bytesOfWord (c : Word) (rest : List Byte) :
    decodeBytes (bytesOfWord c ++ rest) = (decode c).map (fun i => (i, rest)) := by
  simp only [bytesOfWord, List.cons_append, List.nil_append, decodeBytes, wordOfBytes_bytesOfWord]
  cases decode c <;> rfl

/-! ### What a mask inspects -/

/-- AND of appended words is AND of the parts. -/
theorem append_and_append {n m : Nat} (a c : BitVec n) (b d : BitVec m) : (a ++ b) &&& (c ++ d) = (a &&& c) ++ (b &&& d) := by
  apply BitVec.eq_of_getLsbD_eq
  intro i hi
  by_cases h : i < m <;> simp [BitVec.getLsbD_append, h]

theorem and_allOnes4 (a : BitVec 4) : a &&& 0xF#4 = a := by
  revert a; decide

/-- The bits that a mask of n1 inspects. -/
theorem encNNN_and (a : BitVec 4) (nnn : Imm12) : encNNN a nnn &&& 0xF000#16 = encNNN a 0#12 := by
  have h : (0xF000#16 : Word) = 0xF#4 ++ 0#12 := by decide
  rw [h]
  exact (append_and_append a 0xF#4 nnn 0#12).trans (by rw [and_allOnes4, BitVec.and_zero]; rfl)

/-- The bits that a mask of n1 and of a byte `m` inspects. -/
theorem encXKK_and (a : BitVec 4) (x : RegIx) (kk m : Byte) : encXKK a x kk &&& (0xF0#8 ++ m : BitVec 16) = encXKK a 0 (kk &&& m) := by
  have h : (0xF0#8 : Byte) = 0xF#4 ++ 0#4 := by decide
  rw [h]
  unfold encXKK
  rw [append_and_append, append_and_append, and_allOnes4, BitVec.and_zero]
  rfl
/-- The bits that a mask of n1 and of a nibble `m` inspects. -/
theorem encXYN_and (a : BitVec 4) (x y : RegIx) (d m : BitVec 4) :
   encXYN a x y d &&& (0xF00#12 ++ m : BitVec 16) = encXYN a 0 0 (d &&& m) := by
  have h : (0xF00#12 : Imm12) = (0xF#4 ++ 0#4 : BitVec 8) ++ 0#4 := by decide
  rw [h]
  unfold encXYN
  rw [append_and_append, append_and_append, append_and_append, and_allOnes4, BitVec.and_zero, BitVec.and_zero]
  rfl

end Sys2Proof
end

