-- ==== Sys2Proof/Laws/State.lean ====
section
/-! SUPPORT. One lemma per field per update of State, true by rfl, so that no proof unfolds a record update; and what the
register and memory reads answer after each update. -/

namespace Sys2Proof.Machine

variable (s : State)

/-! ### setReg -/

@[simp] theorem State.setReg_v (r : RegIx) (b : Byte) : (s.setReg r b).v = s.v.set r.val b := rfl
@[simp] theorem State.setReg_i (r : RegIx) (b : Byte) : (s.setReg r b).i = s.i := rfl
@[simp] theorem State.setReg_pc (r : RegIx) (b : Byte) : (s.setReg r b).pc = s.pc := rfl
@[simp] theorem State.setReg_sp (r : RegIx) (b : Byte) : (s.setReg r b).sp = s.sp := rfl
@[simp] theorem State.setReg_stack (r : RegIx) (b : Byte) : (s.setReg r b).stack = s.stack := rfl
@[simp] theorem State.setReg_dt (r : RegIx) (b : Byte) : (s.setReg r b).dt = s.dt := rfl
@[simp] theorem State.setReg_st (r : RegIx) (b : Byte) : (s.setReg r b).st = s.st := rfl
@[simp] theorem State.setReg_key (r : RegIx) (b : Byte) : (s.setReg r b).key = s.key := rfl
@[simp] theorem State.setReg_mem (r : RegIx) (b : Byte) : (s.setReg r b).mem = s.mem := rfl
@[simp] theorem State.setReg_pix (r : RegIx) (b : Byte) : (s.setReg r b).pix = s.pix := rfl
@[simp] theorem State.setReg_dispChanged (r : RegIx) (b : Byte) : (s.setReg r b).dispChanged = s.dispChanged := rfl
@[simp] theorem State.setReg_buzzerChanged (r : RegIx) (b : Byte) : (s.setReg r b).buzzerChanged = s.buzzerChanged := rfl
@[simp] theorem State.setReg_keyq (r : RegIx) (b : Byte) : (s.setReg r b).keyq = s.keyq := rfl
@[simp] theorem State.setReg_held (r : RegIx) (b : Byte) : (s.setReg r b).held = s.held := rfl
@[simp] theorem State.setReg_cycleIndex (r : RegIx) (b : Byte) : (s.setReg r b).cycleIndex = s.cycleIndex := rfl
@[simp] theorem State.setReg_ipc (r : RegIx) (b : Byte) : (s.setReg r b).ipc = s.ipc := rfl
@[simp] theorem State.setReg_freq (r : RegIx) (b : Byte) : (s.setReg r b).freq = s.freq := rfl
@[simp] theorem State.setReg_pacing (r : RegIx) (b : Byte) : (s.setReg r b).pacing = s.pacing := rfl
@[simp] theorem State.setReg_hooks (r : RegIx) (b : Byte) : (s.setReg r b).hooks = s.hooks := rfl
@[simp] theorem State.setReg_halted (r : RegIx) (b : Byte) : (s.setReg r b).halted = s.halted := rfl
@[simp] theorem State.setReg_ulog (r : RegIx) (b : Byte) : (s.setReg r b).ulog = s.ulog := rfl
@[simp] theorem State.setReg_cfg (r : RegIx) (b : Byte) : (s.setReg r b).cfg = s.cfg := rfl
@[simp] theorem State.setReg_draws (r : RegIx) (b : Byte) : (s.setReg r b).draws = s.draws := rfl
@[simp] theorem State.setReg_freeIndex (r : RegIx) (b : Byte) : (s.setReg r b).freeIndex = s.freeIndex := rfl

/-! ### setI -/

@[simp] theorem State.setI_v (w : Word) : (s.setI w).v = s.v := rfl
@[simp] theorem State.setI_i (w : Word) : (s.setI w).i = w := rfl
@[simp] theorem State.setI_pc (w : Word) : (s.setI w).pc = s.pc := rfl
@[simp] theorem State.setI_sp (w : Word) : (s.setI w).sp = s.sp := rfl
@[simp] theorem State.setI_stack (w : Word) : (s.setI w).stack = s.stack := rfl
@[simp] theorem State.setI_dt (w : Word) : (s.setI w).dt = s.dt := rfl
@[simp] theorem State.setI_st (w : Word) : (s.setI w).st = s.st := rfl
@[simp] theorem State.setI_key (w : Word) : (s.setI w).key = s.key := rfl
@[simp] theorem State.setI_mem (w : Word) : (s.setI w).mem = s.mem := rfl
@[simp] theorem State.setI_pix (w : Word) : (s.setI w).pix = s.pix := rfl
@[simp] theorem State.setI_dispChanged (w : Word) : (s.setI w).dispChanged = s.dispChanged := rfl
@[simp] theorem State.setI_buzzerChanged (w : Word) : (s.setI w).buzzerChanged = s.buzzerChanged := rfl
@[simp] theorem State.setI_keyq (w : Word) : (s.setI w).keyq = s.keyq := rfl
@[simp] theorem State.setI_held (w : Word) : (s.setI w).held = s.held := rfl
@[simp] theorem State.setI_cycleIndex (w : Word) : (s.setI w).cycleIndex = s.cycleIndex := rfl
@[simp] theorem State.setI_ipc (w : Word) : (s.setI w).ipc = s.ipc := rfl
@[simp] theorem State.setI_freq (w : Word) : (s.setI w).freq = s.freq := rfl
@[simp] theorem State.setI_pacing (w : Word) : (s.setI w).pacing = s.pacing := rfl
@[simp] theorem State.setI_hooks (w : Word) : (s.setI w).hooks = s.hooks := rfl
@[simp] theorem State.setI_halted (w : Word) : (s.setI w).halted = s.halted := rfl
@[simp] theorem State.setI_ulog (w : Word) : (s.setI w).ulog = s.ulog := rfl
@[simp] theorem State.setI_cfg (w : Word) : (s.setI w).cfg = s.cfg := rfl
@[simp] theorem State.setI_draws (w : Word) : (s.setI w).draws = s.draws := rfl
@[simp] theorem State.setI_freeIndex (w : Word) : (s.setI w).freeIndex = s.freeIndex := rfl

/-! ### setPC -/

@[simp] theorem State.setPC_v (w : Word) : (s.setPC w).v = s.v := rfl
@[simp] theorem State.setPC_i (w : Word) : (s.setPC w).i = s.i := rfl
@[simp] theorem State.setPC_pc (w : Word) : (s.setPC w).pc = w := rfl
@[simp] theorem State.setPC_sp (w : Word) : (s.setPC w).sp = s.sp := rfl
@[simp] theorem State.setPC_stack (w : Word) : (s.setPC w).stack = s.stack := rfl
@[simp] theorem State.setPC_dt (w : Word) : (s.setPC w).dt = s.dt := rfl
@[simp] theorem State.setPC_st (w : Word) : (s.setPC w).st = s.st := rfl
@[simp] theorem State.setPC_key (w : Word) : (s.setPC w).key = s.key := rfl
@[simp] theorem State.setPC_mem (w : Word) : (s.setPC w).mem = s.mem := rfl
@[simp] theorem State.setPC_pix (w : Word) : (s.setPC w).pix = s.pix := rfl
@[simp] theorem State.setPC_dispChanged (w : Word) : (s.setPC w).dispChanged = s.dispChanged := rfl
@[simp] theorem State.setPC_buzzerChanged (w : Word) : (s.setPC w).buzzerChanged = s.buzzerChanged := rfl
@[simp] theorem State.setPC_keyq (w : Word) : (s.setPC w).keyq = s.keyq := rfl
@[simp] theorem State.setPC_held (w : Word) : (s.setPC w).held = s.held := rfl
@[simp] theorem State.setPC_cycleIndex (w : Word) : (s.setPC w).cycleIndex = s.cycleIndex := rfl
@[simp] theorem State.setPC_ipc (w : Word) : (s.setPC w).ipc = s.ipc := rfl
@[simp] theorem State.setPC_freq (w : Word) : (s.setPC w).freq = s.freq := rfl
@[simp] theorem State.setPC_pacing (w : Word) : (s.setPC w).pacing = s.pacing := rfl
@[simp] theorem State.setPC_hooks (w : Word) : (s.setPC w).hooks = s.hooks := rfl
@[simp] theorem State.setPC_halted (w : Word) : (s.setPC w).halted = s.halted := rfl
@[simp] theorem State.setPC_ulog (w : Word) : (s.setPC w).ulog = s.ulog := rfl
@[simp] theorem State.setPC_cfg (w : Word) : (s.setPC w).cfg = s.cfg := rfl
@[simp] theorem State.setPC_draws (w : Word) : (s.setPC w).draws = s.draws := rfl
@[simp] theorem State.setPC_freeIndex (w : Word) : (s.setPC w).freeIndex = s.freeIndex := rfl

/-! ### setDT -/

@[simp] theorem State.setDT_v (b : Byte) : (s.setDT b).v = s.v := rfl
@[simp] theorem State.setDT_i (b : Byte) : (s.setDT b).i = s.i := rfl
@[simp] theorem State.setDT_pc (b : Byte) : (s.setDT b).pc = s.pc := rfl
@[simp] theorem State.setDT_sp (b : Byte) : (s.setDT b).sp = s.sp := rfl
@[simp] theorem State.setDT_stack (b : Byte) : (s.setDT b).stack = s.stack := rfl
@[simp] theorem State.setDT_dt (b : Byte) : (s.setDT b).dt = b := rfl
@[simp] theorem State.setDT_st (b : Byte) : (s.setDT b).st = s.st := rfl
@[simp] theorem State.setDT_key (b : Byte) : (s.setDT b).key = s.key := rfl
@[simp] theorem State.setDT_mem (b : Byte) : (s.setDT b).mem = s.mem := rfl
@[simp] theorem State.setDT_pix (b : Byte) : (s.setDT b).pix = s.pix := rfl
@[simp] theorem State.setDT_dispChanged (b : Byte) : (s.setDT b).dispChanged = s.dispChanged := rfl
@[simp] theorem State.setDT_buzzerChanged (b : Byte) : (s.setDT b).buzzerChanged = s.buzzerChanged := rfl
@[simp] theorem State.setDT_keyq (b : Byte) : (s.setDT b).keyq = s.keyq := rfl
@[simp] theorem State.setDT_held (b : Byte) : (s.setDT b).held = s.held := rfl
@[simp] theorem State.setDT_cycleIndex (b : Byte) : (s.setDT b).cycleIndex = s.cycleIndex := rfl
@[simp] theorem State.setDT_ipc (b : Byte) : (s.setDT b).ipc = s.ipc := rfl
@[simp] theorem State.setDT_freq (b : Byte) : (s.setDT b).freq = s.freq := rfl
@[simp] theorem State.setDT_pacing (b : Byte) : (s.setDT b).pacing = s.pacing := rfl
@[simp] theorem State.setDT_hooks (b : Byte) : (s.setDT b).hooks = s.hooks := rfl
@[simp] theorem State.setDT_halted (b : Byte) : (s.setDT b).halted = s.halted := rfl
@[simp] theorem State.setDT_ulog (b : Byte) : (s.setDT b).ulog = s.ulog := rfl
@[simp] theorem State.setDT_cfg (b : Byte) : (s.setDT b).cfg = s.cfg := rfl
@[simp] theorem State.setDT_draws (b : Byte) : (s.setDT b).draws = s.draws := rfl
@[simp] theorem State.setDT_freeIndex (b : Byte) : (s.setDT b).freeIndex = s.freeIndex := rfl

/-! ### setST -/

@[simp] theorem State.setST_v (b : Byte) : (s.setST b).v = s.v := rfl
@[simp] theorem State.setST_i (b : Byte) : (s.setST b).i = s.i := rfl
@[simp] theorem State.setST_pc (b : Byte) : (s.setST b).pc = s.pc := rfl
@[simp] theorem State.setST_sp (b : Byte) : (s.setST b).sp = s.sp := rfl
@[simp] theorem State.setST_stack (b : Byte) : (s.setST b).stack = s.stack := rfl
@[simp] theorem State.setST_dt (b : Byte) : (s.setST b).dt = s.dt := rfl
@[simp] theorem State.setST_st (b : Byte) : (s.setST b).st = b := rfl
@[simp] theorem State.setST_key (b : Byte) : (s.setST b).key = s.key := rfl
@[simp] theorem State.setST_mem (b : Byte) : (s.setST b).mem = s.mem := rfl
@[simp] theorem State.setST_pix (b : Byte) : (s.setST b).pix = s.pix := rfl
@[simp] theorem State.setST_dispChanged (b : Byte) : (s.setST b).dispChanged = s.dispChanged := rfl
@[simp] theorem State.setST_buzzerChanged (b : Byte) : (s.setST b).buzzerChanged = (s.buzzerChanged || (decide (s.st = 0#8) != decide (b = 0#8))) := rfl
@[simp] theorem State.setST_keyq (b : Byte) : (s.setST b).keyq = s.keyq := rfl
@[simp] theorem State.setST_held (b : Byte) : (s.setST b).held = s.held := rfl
@[simp] theorem State.setST_cycleIndex (b : Byte) : (s.setST b).cycleIndex = s.cycleIndex := rfl
@[simp] theorem State.setST_ipc (b : Byte) : (s.setST b).ipc = s.ipc := rfl
@[simp] theorem State.setST_freq (b : Byte) : (s.setST b).freq = s.freq := rfl
@[simp] theorem State.setST_pacing (b : Byte) : (s.setST b).pacing = s.pacing := rfl
@[simp] theorem State.setST_hooks (b : Byte) : (s.setST b).hooks = s.hooks := rfl
@[simp] theorem State.setST_halted (b : Byte) : (s.setST b).halted = s.halted := rfl
@[simp] theorem State.setST_ulog (b : Byte) : (s.setST b).ulog = s.ulog := rfl
@[simp] theorem State.setST_cfg (b : Byte) : (s.setST b).cfg = s.cfg := rfl
@[simp] theorem State.setST_draws (b : Byte) : (s.setST b).draws = s.draws := rfl
@[simp] theorem State.setST_freeIndex (b : Byte) : (s.setST b).freeIndex = s.freeIndex := rfl

/-! ### setKey -/

@[simp] theorem State.setKey_v (k : KeyIx) (b : Bool) : (s.setKey k b).v = s.v := rfl
@[simp] theorem State.setKey_i (k : KeyIx) (b : Bool) : (s.setKey k b).i = s.i := rfl
@[simp] theorem State.setKey_pc (k : KeyIx) (b : Bool) : (s.setKey k b).pc = s.pc := rfl
@[simp] theorem State.setKey_sp (k : KeyIx) (b : Bool) : (s.setKey k b).sp = s.sp := rfl
@[simp] theorem State.setKey_stack (k : KeyIx) (b : Bool) : (s.setKey k b).stack = s.stack := rfl
@[simp] theorem State.setKey_dt (k : KeyIx) (b : Bool) : (s.setKey k b).dt = s.dt := rfl
@[simp] theorem State.setKey_st (k : KeyIx) (b : Bool) : (s.setKey k b).st = s.st := rfl
@[simp] theorem State.setKey_key (k : KeyIx) (b : Bool) : (s.setKey k b).key = s.key.set k.val b := rfl
@[simp] theorem State.setKey_mem (k : KeyIx) (b : Bool) : (s.setKey k b).mem = s.mem := rfl
@[simp] theorem State.setKey_pix (k : KeyIx) (b : Bool) : (s.setKey k b).pix = s.pix := rfl
@[simp] theorem State.setKey_dispChanged (k : KeyIx) (b : Bool) : (s.setKey k b).dispChanged = s.dispChanged := rfl
@[simp] theorem State.setKey_buzzerChanged (k : KeyIx) (b : Bool) : (s.setKey k b).buzzerChanged = s.buzzerChanged := rfl
@[simp] theorem State.setKey_keyq (k : KeyIx) (b : Bool) : (s.setKey k b).keyq = s.keyq := rfl
@[simp] theorem State.setKey_held (k : KeyIx) (b : Bool) : (s.setKey k b).held = s.held := rfl
@[simp] theorem State.setKey_cycleIndex (k : KeyIx) (b : Bool) : (s.setKey k b).cycleIndex = s.cycleIndex := rfl
@[simp] theorem State.setKey_ipc (k : KeyIx) (b : Bool) : (s.setKey k b).ipc = s.ipc := rfl
@[simp] theorem State.setKey_freq (k : KeyIx) (b : Bool) : (s.setKey k b).freq = s.freq := rfl
@[simp] theorem State.setKey_pacing (k : KeyIx) (b : Bool) : (s.setKey k b).pacing = s.pacing := rfl
@[simp] theorem State.setKey_hooks (k : KeyIx) (b : Bool) : (s.setKey k b).hooks = s.hooks := rfl
@[simp] theorem State.setKey_halted (k : KeyIx) (b : Bool) : (s.setKey k b).halted = s.halted := rfl
@[simp] theorem State.setKey_ulog (k : KeyIx) (b : Bool) : (s.setKey k b).ulog = s.ulog := rfl
@[simp] theorem State.setKey_cfg (k : KeyIx) (b : Bool) : (s.setKey k b).cfg = s.cfg := rfl
@[simp] theorem State.setKey_draws (k : KeyIx) (b : Bool) : (s.setKey k b).draws = s.draws := rfl
@[simp] theorem State.setKey_freeIndex (k : KeyIx) (b : Bool) : (s.setKey k b).freeIndex = s.freeIndex := rfl

/-! ### putRun -/

@[simp] theorem State.putRun_v (a : Nat) (l : List Byte) : (s.putRun a l).v = s.v := rfl
@[simp] theorem State.putRun_i (a : Nat) (l : List Byte) : (s.putRun a l).i = s.i := rfl
@[simp] theorem State.putRun_pc (a : Nat) (l : List Byte) : (s.putRun a l).pc = s.pc := rfl
@[simp] theorem State.putRun_sp (a : Nat) (l : List Byte) : (s.putRun a l).sp = s.sp := rfl
@[simp] theorem State.putRun_stack (a : Nat) (l : List Byte) : (s.putRun a l).stack = s.stack := rfl
@[simp] theorem State.putRun_dt (a : Nat) (l : List Byte) : (s.putRun a l).dt = s.dt := rfl
@[simp] theorem State.putRun_st (a : Nat) (l : List Byte) : (s.putRun a l).st = s.st := rfl
@[simp] theorem State.putRun_key (a : Nat) (l : List Byte) : (s.putRun a l).key = s.key := rfl
@[simp] theorem State.putRun_mem (a : Nat) (l : List Byte) : (s.putRun a l).mem = Memory.writeRun (resetByte s.cfg) s.mem a l := rfl
@[simp] theorem State.putRun_pix (a : Nat) (l : List Byte) : (s.putRun a l).pix = s.pix := rfl
@[simp] theorem State.putRun_dispChanged (a : Nat) (l : List Byte) : (s.putRun a l).dispChanged = s.dispChanged := rfl
@[simp] theorem State.putRun_buzzerChanged (a : Nat) (l : List Byte) : (s.putRun a l).buzzerChanged = s.buzzerChanged := rfl
@[simp] theorem State.putRun_keyq (a : Nat) (l : List Byte) : (s.putRun a l).keyq = s.keyq := rfl
@[simp] theorem State.putRun_held (a : Nat) (l : List Byte) : (s.putRun a l).held = s.held := rfl
@[simp] theorem State.putRun_cycleIndex (a : Nat) (l : List Byte) : (s.putRun a l).cycleIndex = s.cycleIndex := rfl
@[simp] theorem State.putRun_ipc (a : Nat) (l : List Byte) : (s.putRun a l).ipc = s.ipc := rfl
@[simp] theorem State.putRun_freq (a : Nat) (l : List Byte) : (s.putRun a l).freq = s.freq := rfl
@[simp] theorem State.putRun_pacing (a : Nat) (l : List Byte) : (s.putRun a l).pacing = s.pacing := rfl
@[simp] theorem State.putRun_hooks (a : Nat) (l : List Byte) : (s.putRun a l).hooks = s.hooks := rfl
@[simp] theorem State.putRun_halted (a : Nat) (l : List Byte) : (s.putRun a l).halted = s.halted := rfl
@[simp] theorem State.putRun_ulog (a : Nat) (l : List Byte) : (s.putRun a l).ulog = s.ulog := rfl
@[simp] theorem State.putRun_cfg (a : Nat) (l : List Byte) : (s.putRun a l).cfg = s.cfg := rfl
@[simp] theorem State.putRun_draws (a : Nat) (l : List Byte) : (s.putRun a l).draws = s.draws := rfl
@[simp] theorem State.putRun_freeIndex (a : Nat) (l : List Byte) : (s.putRun a l).freeIndex = s.freeIndex := rfl

/-! ### raise -/

@[simp] theorem State.raise_v (c : Condition) : (s.raise c).v = s.v := rfl
@[simp] theorem State.raise_i (c : Condition) : (s.raise c).i = s.i := rfl
@[simp] theorem State.raise_pc (c : Condition) : (s.raise c).pc = s.pc := rfl
@[simp] theorem State.raise_sp (c : Condition) : (s.raise c).sp = s.sp := rfl
@[simp] theorem State.raise_stack (c : Condition) : (s.raise c).stack = s.stack := rfl
@[simp] theorem State.raise_dt (c : Condition) : (s.raise c).dt = s.dt := rfl
@[simp] theorem State.raise_st (c : Condition) : (s.raise c).st = s.st := rfl
@[simp] theorem State.raise_key (c : Condition) : (s.raise c).key = s.key := rfl
@[simp] theorem State.raise_mem (c : Condition) : (s.raise c).mem = s.mem := rfl
@[simp] theorem State.raise_pix (c : Condition) : (s.raise c).pix = s.pix := rfl
@[simp] theorem State.raise_dispChanged (c : Condition) : (s.raise c).dispChanged = s.dispChanged := rfl
@[simp] theorem State.raise_buzzerChanged (c : Condition) : (s.raise c).buzzerChanged = s.buzzerChanged := rfl
@[simp] theorem State.raise_keyq (c : Condition) : (s.raise c).keyq = s.keyq := rfl
@[simp] theorem State.raise_held (c : Condition) : (s.raise c).held = s.held := rfl
@[simp] theorem State.raise_cycleIndex (c : Condition) : (s.raise c).cycleIndex = s.cycleIndex := rfl
@[simp] theorem State.raise_ipc (c : Condition) : (s.raise c).ipc = s.ipc := rfl
@[simp] theorem State.raise_freq (c : Condition) : (s.raise c).freq = s.freq := rfl
@[simp] theorem State.raise_pacing (c : Condition) : (s.raise c).pacing = s.pacing := rfl
@[simp] theorem State.raise_hooks (c : Condition) : (s.raise c).hooks = s.hooks := rfl
@[simp] theorem State.raise_halted (c : Condition) : (s.raise c).halted = some c := rfl
@[simp] theorem State.raise_ulog (c : Condition) : (s.raise c).ulog = s.ulog := rfl
@[simp] theorem State.raise_cfg (c : Condition) : (s.raise c).cfg = s.cfg := rfl
@[simp] theorem State.raise_draws (c : Condition) : (s.raise c).draws = s.draws := rfl
@[simp] theorem State.raise_freeIndex (c : Condition) : (s.raise c).freeIndex = s.freeIndex := rfl

/-! ### reportUnknown -/

@[simp] theorem State.reportUnknown_v (c : Word) : (s.reportUnknown c).v = s.v := rfl
@[simp] theorem State.reportUnknown_i (c : Word) : (s.reportUnknown c).i = s.i := rfl
@[simp] theorem State.reportUnknown_pc (c : Word) : (s.reportUnknown c).pc = s.pc := rfl
@[simp] theorem State.reportUnknown_sp (c : Word) : (s.reportUnknown c).sp = s.sp := rfl
@[simp] theorem State.reportUnknown_stack (c : Word) : (s.reportUnknown c).stack = s.stack := rfl
@[simp] theorem State.reportUnknown_dt (c : Word) : (s.reportUnknown c).dt = s.dt := rfl
@[simp] theorem State.reportUnknown_st (c : Word) : (s.reportUnknown c).st = s.st := rfl
@[simp] theorem State.reportUnknown_key (c : Word) : (s.reportUnknown c).key = s.key := rfl
@[simp] theorem State.reportUnknown_mem (c : Word) : (s.reportUnknown c).mem = s.mem := rfl
@[simp] theorem State.reportUnknown_pix (c : Word) : (s.reportUnknown c).pix = s.pix := rfl
@[simp] theorem State.reportUnknown_dispChanged (c : Word) : (s.reportUnknown c).dispChanged = s.dispChanged := rfl
@[simp] theorem State.reportUnknown_buzzerChanged (c : Word) : (s.reportUnknown c).buzzerChanged = s.buzzerChanged := rfl
@[simp] theorem State.reportUnknown_keyq (c : Word) : (s.reportUnknown c).keyq = s.keyq := rfl
@[simp] theorem State.reportUnknown_held (c : Word) : (s.reportUnknown c).held = s.held := rfl
@[simp] theorem State.reportUnknown_cycleIndex (c : Word) : (s.reportUnknown c).cycleIndex = s.cycleIndex := rfl
@[simp] theorem State.reportUnknown_ipc (c : Word) : (s.reportUnknown c).ipc = s.ipc := rfl
@[simp] theorem State.reportUnknown_freq (c : Word) : (s.reportUnknown c).freq = s.freq := rfl
@[simp] theorem State.reportUnknown_pacing (c : Word) : (s.reportUnknown c).pacing = s.pacing := rfl
@[simp] theorem State.reportUnknown_hooks (c : Word) : (s.reportUnknown c).hooks = s.hooks := rfl
@[simp] theorem State.reportUnknown_halted (c : Word) : (s.reportUnknown c).halted = s.halted := rfl
@[simp] theorem State.reportUnknown_ulog (c : Word) : (s.reportUnknown c).ulog = s.ulog ++ [c] := rfl
@[simp] theorem State.reportUnknown_cfg (c : Word) : (s.reportUnknown c).cfg = s.cfg := rfl
@[simp] theorem State.reportUnknown_draws (c : Word) : (s.reportUnknown c).draws = s.draws := rfl
@[simp] theorem State.reportUnknown_freeIndex (c : Word) : (s.reportUnknown c).freeIndex = s.freeIndex := rfl

/-! ### clearDisplay -/

@[simp] theorem State.clearDisplay_v : s.clearDisplay.v = s.v := rfl
@[simp] theorem State.clearDisplay_i : s.clearDisplay.i = s.i := rfl
@[simp] theorem State.clearDisplay_pc : s.clearDisplay.pc = s.pc := rfl
@[simp] theorem State.clearDisplay_sp : s.clearDisplay.sp = s.sp := rfl
@[simp] theorem State.clearDisplay_stack : s.clearDisplay.stack = s.stack := rfl
@[simp] theorem State.clearDisplay_dt : s.clearDisplay.dt = s.dt := rfl
@[simp] theorem State.clearDisplay_st : s.clearDisplay.st = s.st := rfl
@[simp] theorem State.clearDisplay_key : s.clearDisplay.key = s.key := rfl
@[simp] theorem State.clearDisplay_mem : s.clearDisplay.mem = s.mem := rfl
@[simp] theorem State.clearDisplay_pix : s.clearDisplay.pix = Grid.blank s.cfg.rows s.cfg.cols := rfl
@[simp] theorem State.clearDisplay_dispChanged : s.clearDisplay.dispChanged = s.pix.anySet := rfl
@[simp] theorem State.clearDisplay_buzzerChanged : s.clearDisplay.buzzerChanged = s.buzzerChanged := rfl
@[simp] theorem State.clearDisplay_keyq : s.clearDisplay.keyq = s.keyq := rfl
@[simp] theorem State.clearDisplay_held : s.clearDisplay.held = s.held := rfl
@[simp] theorem State.clearDisplay_cycleIndex : s.clearDisplay.cycleIndex = s.cycleIndex := rfl
@[simp] theorem State.clearDisplay_ipc : s.clearDisplay.ipc = s.ipc := rfl
@[simp] theorem State.clearDisplay_freq : s.clearDisplay.freq = s.freq := rfl
@[simp] theorem State.clearDisplay_pacing : s.clearDisplay.pacing = s.pacing := rfl
@[simp] theorem State.clearDisplay_hooks : s.clearDisplay.hooks = s.hooks := rfl
@[simp] theorem State.clearDisplay_halted : s.clearDisplay.halted = s.halted := rfl
@[simp] theorem State.clearDisplay_ulog : s.clearDisplay.ulog = s.ulog := rfl
@[simp] theorem State.clearDisplay_cfg : s.clearDisplay.cfg = s.cfg := rfl
@[simp] theorem State.clearDisplay_draws : s.clearDisplay.draws = s.draws := rfl
@[simp] theorem State.clearDisplay_freeIndex : s.clearDisplay.freeIndex = s.freeIndex := rfl

/-! ### skipIf: PC alone may change -/

@[simp] theorem State.skipIf_v (b : Bool) : (s.skipIf b).v = s.v := by cases b <;> rfl
@[simp] theorem State.skipIf_i (b : Bool) : (s.skipIf b).i = s.i := by cases b <;> rfl
@[simp] theorem State.skipIf_pc (b : Bool) : (s.skipIf b).pc = if b then s.pc + 2#16 else s.pc := by cases b <;> rfl
@[simp] theorem State.skipIf_sp (b : Bool) : (s.skipIf b).sp = s.sp := by cases b <;> rfl
@[simp] theorem State.skipIf_stack (b : Bool) : (s.skipIf b).stack = s.stack := by cases b <;> rfl
@[simp] theorem State.skipIf_dt (b : Bool) : (s.skipIf b).dt = s.dt := by cases b <;> rfl
@[simp] theorem State.skipIf_st (b : Bool) : (s.skipIf b).st = s.st := by cases b <;> rfl
@[simp] theorem State.skipIf_key (b : Bool) : (s.skipIf b).key = s.key := by cases b <;> rfl
@[simp] theorem State.skipIf_mem (b : Bool) : (s.skipIf b).mem = s.mem := by cases b <;> rfl
@[simp] theorem State.skipIf_pix (b : Bool) : (s.skipIf b).pix = s.pix := by cases b <;> rfl
@[simp] theorem State.skipIf_dispChanged (b : Bool) : (s.skipIf b).dispChanged = s.dispChanged := by cases b <;> rfl
@[simp] theorem State.skipIf_buzzerChanged (b : Bool) : (s.skipIf b).buzzerChanged = s.buzzerChanged := by cases b <;> rfl
@[simp] theorem State.skipIf_keyq (b : Bool) : (s.skipIf b).keyq = s.keyq := by cases b <;> rfl
@[simp] theorem State.skipIf_held (b : Bool) : (s.skipIf b).held = s.held := by cases b <;> rfl
@[simp] theorem State.skipIf_cycleIndex (b : Bool) : (s.skipIf b).cycleIndex = s.cycleIndex := by cases b <;> rfl
@[simp] theorem State.skipIf_ipc (b : Bool) : (s.skipIf b).ipc = s.ipc := by cases b <;> rfl
@[simp] theorem State.skipIf_freq (b : Bool) : (s.skipIf b).freq = s.freq := by cases b <;> rfl
@[simp] theorem State.skipIf_pacing (b : Bool) : (s.skipIf b).pacing = s.pacing := by cases b <;> rfl
@[simp] theorem State.skipIf_hooks (b : Bool) : (s.skipIf b).hooks = s.hooks := by cases b <;> rfl
@[simp] theorem State.skipIf_halted (b : Bool) : (s.skipIf b).halted = s.halted := by cases b <;> rfl
@[simp] theorem State.skipIf_ulog (b : Bool) : (s.skipIf b).ulog = s.ulog := by cases b <;> rfl
@[simp] theorem State.skipIf_cfg (b : Bool) : (s.skipIf b).cfg = s.cfg := by cases b <;> rfl
@[simp] theorem State.skipIf_draws (b : Bool) : (s.skipIf b).draws = s.draws := by cases b <;> rfl
@[simp] theorem State.skipIf_freeIndex (b : Bool) : (s.skipIf b).freeIndex = s.freeIndex := by cases b <;> rfl

/-! ### Reading a register -/

theorem State.reg_setReg (r q : RegIx) (b : Byte) : (s.setReg r b).reg q = if q = r then b else s.reg q := by
  by_cases h : q = r
  · subst h; simp [State.reg]
  · have h' : r.val ≠ q.val := fun e => h (Fin.ext e.symm)
    simp [State.reg, h, Vector.getElem_set_ne _ _ h']

@[simp] theorem State.reg_setReg_same (r : RegIx) (b : Byte) : (s.setReg r b).reg r = b := by simp [State.reg_setReg]

theorem State.reg_setReg_other {r q : RegIx} (b : Byte) (h : q ≠ r) : (s.setReg r b).reg q = s.reg q := by
  simp [State.reg_setReg, h]

@[simp] theorem State.reg_setI (w : Word) (q : RegIx) : (s.setI w).reg q = s.reg q := rfl
@[simp] theorem State.reg_setPC (w : Word) (q : RegIx) : (s.setPC w).reg q = s.reg q := rfl
@[simp] theorem State.reg_setDT (b : Byte) (q : RegIx) : (s.setDT b).reg q = s.reg q := rfl
@[simp] theorem State.reg_setST (b : Byte) (q : RegIx) : (s.setST b).reg q = s.reg q := rfl
@[simp] theorem State.reg_setKey (k : KeyIx) (b : Bool) (q : RegIx) : (s.setKey k b).reg q = s.reg q := rfl
@[simp] theorem State.reg_putRun (a : Nat) (l : List Byte) (q : RegIx) : (s.putRun a l).reg q = s.reg q := rfl
@[simp] theorem State.reg_raise (c : Condition) (q : RegIx) : (s.raise c).reg q = s.reg q := rfl
@[simp] theorem State.reg_reportUnknown (c : Word) (q : RegIx) : (s.reportUnknown c).reg q = s.reg q := rfl
@[simp] theorem State.reg_clearDisplay (q : RegIx) : s.clearDisplay.reg q = s.reg q := rfl
@[simp] theorem State.reg_skipIf (b : Bool) (q : RegIx) : (s.skipIf b).reg q = s.reg q := by cases b <;> rfl

/-! ### Reading a byte of memory -/

@[simp] theorem State.byteAt_setReg (r : RegIx) (b : Byte) (q : Nat) : (s.setReg r b).byteAt q = s.byteAt q := rfl
@[simp] theorem State.byteAt_setI (w : Word) (q : Nat) : (s.setI w).byteAt q = s.byteAt q := rfl
@[simp] theorem State.byteAt_setPC (w : Word) (q : Nat) : (s.setPC w).byteAt q = s.byteAt q := rfl
@[simp] theorem State.byteAt_setDT (b : Byte) (q : Nat) : (s.setDT b).byteAt q = s.byteAt q := rfl
@[simp] theorem State.byteAt_setST (b : Byte) (q : Nat) : (s.setST b).byteAt q = s.byteAt q := rfl
@[simp] theorem State.byteAt_setKey (k : KeyIx) (b : Bool) (q : Nat) : (s.setKey k b).byteAt q = s.byteAt q := rfl
@[simp] theorem State.byteAt_raise (c : Condition) (q : Nat) : (s.raise c).byteAt q = s.byteAt q := rfl
@[simp] theorem State.byteAt_reportUnknown (c : Word) (q : Nat) : (s.reportUnknown c).byteAt q = s.byteAt q := rfl
@[simp] theorem State.byteAt_clearDisplay (q : Nat) : s.clearDisplay.byteAt q = s.byteAt q := rfl
@[simp] theorem State.byteAt_skipIf (b : Bool) (q : Nat) : (s.skipIf b).byteAt q = s.byteAt q := by cases b <;> rfl

/-! ### Looking up a hook -/

@[simp] theorem State.hookOf_setReg (r : RegIx) (b : Byte) (q : Key) : (s.setReg r b).hookOf q = s.hookOf q := rfl
@[simp] theorem State.hookOf_setI (w : Word) (q : Key) : (s.setI w).hookOf q = s.hookOf q := rfl
@[simp] theorem State.hookOf_setPC (w : Word) (q : Key) : (s.setPC w).hookOf q = s.hookOf q := rfl
@[simp] theorem State.hookOf_setDT (b : Byte) (q : Key) : (s.setDT b).hookOf q = s.hookOf q := rfl
@[simp] theorem State.hookOf_setST (b : Byte) (q : Key) : (s.setST b).hookOf q = s.hookOf q := rfl
@[simp] theorem State.hookOf_setKey (k : KeyIx) (b : Bool) (q : Key) : (s.setKey k b).hookOf q = s.hookOf q := rfl
@[simp] theorem State.hookOf_putRun (a : Nat) (l : List Byte) (q : Key) : (s.putRun a l).hookOf q = s.hookOf q := rfl
@[simp] theorem State.hookOf_raise (c : Condition) (q : Key) : (s.raise c).hookOf q = s.hookOf q := rfl
@[simp] theorem State.hookOf_reportUnknown (c : Word) (q : Key) : (s.reportUnknown c).hookOf q = s.hookOf q := rfl
@[simp] theorem State.hookOf_clearDisplay (q : Key) : s.clearDisplay.hookOf q = s.hookOf q := rfl

end Sys2Proof.Machine
end

