-- ==== Sys2Proof/Laws/Grid.lean ====
section
/-! SUPPORT. Laws of the pixel grid: reads after writes, and that every operation keeps the display's dimensions. -/

namespace Sys2Proof.Machine

variable {rows cols : Nat}

/-! ### Dimensions -/

theorem Grid.wf_iff {g : Grid} : Grid.wf rows cols g = true ↔ g.length = rows ∧ ∀ row ∈ g, row.length = cols := by
  simp [Grid.wf]

theorem Grid.wf_blank : Grid.wf rows cols (Grid.blank rows cols) = true := by
  rw [Grid.wf_iff]
  refine ⟨by simp [Grid.blank], fun row h => ?_⟩
  rw [List.eq_of_mem_replicate h, List.length_replicate]

theorem Grid.wf_modify {g : Grid} (hg : Grid.wf rows cols g = true) (r : Nat) (f : List Bool → List Bool)
    (hf : ∀ row, (f row).length = row.length) : Grid.wf rows cols (g.modify r f) = true := by
  rw [Grid.wf_iff] at hg ⊢
  refine ⟨by simpa using hg.1, fun row h => ?_⟩
  obtain ⟨n, hn, rfl⟩ := List.mem_iff_getElem.mp h
  rw [List.getElem_modify]
  have hn' : n < g.length := by simpa using hn
  split
  · rw [hf]; exact hg.2 _ (List.getElem_mem hn')
  · exact hg.2 _ (List.getElem_mem hn')

theorem Grid.wf_flip {g : Grid} (hg : Grid.wf rows cols g = true) (r c : Nat) : Grid.wf rows cols (g.flip r c) = true :=
  Grid.wf_modify hg r _ (fun row => by simp)

theorem Grid.wf_set {g : Grid} (hg : Grid.wf rows cols g = true) (r c : Nat) (b : Bool) :
    Grid.wf rows cols (g.set r c b) = true :=
  Grid.wf_modify hg r _ (fun row => by simp)

/-! ### Reading a pixel -/

@[simp] theorem Grid.get_blank (r c : Nat) : (Grid.blank rows cols).get r c = false := by
  unfold Grid.get Grid.blank
  by_cases hr : r < rows <;> by_cases hc : c < cols <;> simp [List.getD, hr, hc]

theorem Grid.get_outside_row {g : Grid} {r c : Nat} (h : g.length ≤ r) : g.get r c = false := by
  simp [Grid.get, List.getD, List.getElem?_eq_none h]

/-- Flipping one pixel of the grid flips that pixel and no other. -/
theorem Grid.get_flip {g : Grid} (hg : Grid.wf rows cols g = true) {r c : Nat} (hr : r < rows) (hc : c < cols) (r' c' : Nat) :
    (g.flip r c).get r' c' = (g.get r' c' ^^ decide (r' = r ∧ c' = c)) := by
  rw [Grid.wf_iff] at hg
  have hr' : r < g.length := by omega
  have hlen : (g[r]).length = cols := hg.2 _ (List.getElem_mem hr')
  unfold Grid.get Grid.flip
  by_cases h1 : r' = r
  · subst h1
    by_cases h2 : c' = c
    · subst h2
      have h3 : c' < (g[r']).length := by omega
      simp [List.getD, hr', h3]
    · have h2' : ¬ c = c' := fun e => h2 e.symm
      cases hx : g[r'][c']? <;> simp [List.getD, hr', h2, h2', hx]
  · have h1' : ¬ r = r' := fun e => h1 e.symm
    simp [List.getD, h1, h1']

/-- Some pixel is set exactly when one inside the grid reads as 1. -/
theorem Grid.anySet_iff {g : Grid} (hg : Grid.wf rows cols g = true) :
    g.anySet = true ↔ ∃ r c, r < rows ∧ c < cols ∧ g.get r c = true := by
  rw [Grid.wf_iff] at hg
  simp only [Grid.anySet, List.any_eq_true, id_eq, exists_eq_right]
  constructor
  · rintro ⟨row, hrow, hp⟩
    obtain ⟨r, hr, rfl⟩ := List.mem_iff_getElem.mp hrow
    obtain ⟨c, hc, he⟩ := List.mem_iff_getElem.mp hp
    have hlen := hg.2 _ hrow
    exact ⟨r, c, by omega, by omega, by simp [Grid.get, List.getD, hr, hc, he]⟩
  · rintro ⟨r, c, hr, hc, h⟩
    have hr' : r < g.length := by omega
    have hlen := hg.2 _ (List.getElem_mem hr')
    have hc' : c < (g[r]).length := by omega
    refine ⟨g[r], List.getElem_mem hr', ?_⟩
    have h' : g[r][c] = true := by simpa [Grid.get, List.getD, hr', hc'] using h
    rw [← h']
    exact List.getElem_mem hc'

/-! ### Drawing keeps the dimensions -/

theorem drawPixel_wf {x row : Nat} {b : Byte} {d : Drawing} {j : Nat} (hd : Grid.wf rows cols d.pix = true) :
    Grid.wf rows cols (drawPixel cols x row b d j).pix = true := by
  unfold drawPixel
  split
  · exact Grid.wf_flip hd _ _
  · exact hd

theorem foldl_drawPixel_wf {x row : Nat} {b : Byte} {l : List Nat} {d : Drawing} (hd : Grid.wf rows cols d.pix = true) :
    Grid.wf rows cols (l.foldl (drawPixel cols x row b) d).pix = true := by
  induction l generalizing d with
  | nil => exact hd
  | cons j l ih => exact ih (drawPixel_wf hd)

theorem drawRows_wf {x y r : Nat} {l : List Byte} {d : Drawing} (hd : Grid.wf rows cols d.pix = true) :
    Grid.wf rows cols (drawRows rows cols x y r l d).pix = true := by
  induction l generalizing r d with
  | nil => exact hd
  | cons b bs ih =>
    rw [drawRows]
    apply ih
    split
    · exact hd
    · exact foldl_drawPixel_wf hd

theorem blitSprite_wf {x y : Nat} {l : List Byte} {g : Grid} (hg : Grid.wf rows cols g = true) :
    Grid.wf rows cols (blitSprite rows cols x y l g).pix = true := by
  unfold blitSprite
  split
  · exact hg
  · exact drawRows_wf hg

/-! ### What drawing does -/

/-- From `d` to `d'` exactly the pixels of `p` were flipped, collision was raised exactly if one of them was set, and the mark
that a pixel was flipped exactly if there is one. -/
structure DrawStep (rows cols : Nat) (p : Nat → Nat → Bool) (d d' : Drawing) : Prop where
  wf : Grid.wf rows cols d'.pix = true
  get : ∀ r c, d'.pix.get r c = (d.pix.get r c ^^ p r c)
  collision : d'.collision = true ↔ d.collision = true ∨ ∃ r c, p r c = true ∧ d.pix.get r c = true
  touched : d'.touched = true ↔ d.touched = true ∨ ∃ r c, p r c = true

/-- Drawing nothing. -/
theorem DrawStep.none {d : Drawing} {p : Nat → Nat → Bool} (hd : Grid.wf rows cols d.pix = true) (h : ∀ r c, p r c = false) :
    DrawStep rows cols p d d :=
  ⟨hd, fun r c => by simp [h], by simp [h], by simp [h]⟩

/-- Drawing two disjoint sets of pixels one after the other is drawing their union. -/
theorem DrawStep.trans {d d' d'' : Drawing} {p q u : Nat → Nat → Bool} (h : DrawStep rows cols p d d')
    (h' : DrawStep rows cols q d' d'') (hu : ∀ r c, u r c = (p r c || q r c)) (hpq : ∀ r c, p r c = true → q r c = false) :
    DrawStep rows cols u d d'' := by
  have hqp : ∀ r c, q r c = true → p r c = false := fun r c hq => by
    cases hp : p r c with
    | false => rfl
    | true => rw [hpq r c hp] at hq; cases hq
  refine ⟨h'.wf, fun r c => ?_, ?_, ?_⟩
  · rw [h'.get, h.get, hu]
    cases hp : p r c with
    | false => simp
    | true => simp [hpq r c hp]
  · rw [h'.collision, h.collision]
    constructor
    · rintro ((h1 | ⟨r, c, h1, h2⟩) | ⟨r, c, h1, h2⟩)
      · exact .inl h1
      · exact .inr ⟨r, c, by simp [hu, h1], h2⟩
      · exact .inr ⟨r, c, by simp [hu, h1], by simpa [h.get, hqp r c h1] using h2⟩
    · rintro (h1 | ⟨r, c, h1, h2⟩)
      · exact .inl (.inl h1)
      · rw [hu, Bool.or_eq_true] at h1
        rcases h1 with h1 | h1
        · exact .inl (.inr ⟨r, c, h1, h2⟩)
        · exact .inr ⟨r, c, h1, by simpa [h.get, hqp r c h1] using h2⟩
  · rw [h'.touched, h.touched]
    constructor
    · rintro ((h1 | ⟨r, c, h1⟩) | ⟨r, c, h1⟩)
      · exact .inl h1
      · exact .inr ⟨r, c, by simp [hu, h1]⟩
      · exact .inr ⟨r, c, by simp [hu, h1]⟩
    · rintro (h1 | ⟨r, c, h1⟩)
      · exact .inl (.inl h1)
      · rw [hu, Bool.or_eq_true] at h1
        rcases h1 with h1 | h1
        · exact .inl (.inr ⟨r, c, h1⟩)
        · exact .inr ⟨r, c, h1⟩

/-- One pixel (R221, R223). -/
theorem drawPixel_step {x row : Nat} (b : Byte) {d : Drawing} (j : Nat) (hd : Grid.wf rows cols d.pix = true) (hr : row < rows) :
    DrawStep rows cols (fun r c => decide (r = row ∧ c = x + j ∧ c < cols) && b.getLsbD (7 - j)) d
      (drawPixel cols x row b d j) := by
  unfold drawPixel
  split
  · rename_i h
    refine ⟨Grid.wf_flip hd _ _, fun r c => ?_, ?_, ?_⟩
    · rw [Grid.get_flip hd hr h.1]
      congr 1
      rw [h.2, Bool.and_true, decide_eq_decide]
      exact ⟨fun e => ⟨e.1, e.2, e.2 ▸ h.1⟩, fun e => ⟨e.1, e.2.1⟩⟩
    · simp only [Bool.or_eq_true, Bool.and_eq_true, decide_eq_true_eq]
      constructor
      · rintro (h1 | h1)
        · exact .inl h1
        · exact .inr ⟨row, x + j, ⟨⟨rfl, rfl, h.1⟩, h.2⟩, h1⟩
      · rintro (h1 | ⟨r, c, ⟨⟨rfl, rfl, -⟩, -⟩, h1⟩)
        · exact .inl h1
        · exact .inr h1
    · simp only [Bool.and_eq_true, decide_eq_true_eq, true_iff]
      exact .inr ⟨row, x + j, ⟨rfl, rfl, h.1⟩, h.2⟩
  · rename_i h
    refine DrawStep.none hd (fun r c => ?_)
    cases hb : b.getLsbD (7 - j) with
    | false => simp
    | true =>
      have : ¬ (r = row ∧ c = x + j ∧ c < cols) := fun e => h ⟨e.2.1 ▸ e.2.2, hb⟩
      simp [this]

/-- The first `n` pixels of a sprite row (R221, R223). -/
theorem drawRow_step {x row : Nat} (b : Byte) {d : Drawing} (hd : Grid.wf rows cols d.pix = true) (hr : row < rows) (n : Nat) :
    DrawStep rows cols (fun r c => decide (r = row ∧ x ≤ c ∧ c < x + n ∧ c < cols) && b.getLsbD (7 - (c - x))) d
      ((List.range n).foldl (drawPixel cols x row b) d) := by
  induction n with
  | zero =>
    refine DrawStep.none hd (fun r c => ?_)
    have : ¬ (r = row ∧ x ≤ c ∧ c < x + 0 ∧ c < cols) := by omega
    simp only [decide_eq_false this, Bool.false_and]
  | succ n ih =>
    rw [List.range_succ, List.foldl_append, List.foldl_cons, List.foldl_nil]
    refine ih.trans (drawPixel_step b n ih.wf hr) (fun r c => ?_) (fun r c h => ?_)
    · by_cases hc : c = x + n
      · subst hc
        simp
      · have h1 : ¬ (r = row ∧ c = x + n ∧ c < cols) := by omega
        have h2 : (r = row ∧ x ≤ c ∧ c < x + (n + 1) ∧ c < cols) ↔ (r = row ∧ x ≤ c ∧ c < x + n ∧ c < cols) := by omega
        simp [h1, h2]
    · simp only [Bool.and_eq_true, decide_eq_true_eq] at h
      have h1 : ¬ (r = row ∧ c = x + n ∧ c < cols) := by omega
      simp [h1]

/-- The rows of a sprite from row `k` on (R223, R226): a row or a column past the edge draws nothing. -/
theorem drawRows_step {x y : Nat} (l : List Byte) {d : Drawing} (hd : Grid.wf rows cols d.pix = true) (k : Nat) :
    DrawStep rows cols (fun r c => decide (r < rows ∧ c < cols) && spriteBit l x (y + k) r c) d
      (drawRows rows cols x y k l d) := by
  induction l generalizing k d with
  | nil =>
    refine DrawStep.none hd (fun r c => ?_)
    simp [spriteBit]
  | cons b bs ih =>
    have key : ∀ r c, (decide (r < rows ∧ c < cols) && spriteBit (b :: bs) x (y + k) r c)
        = ((decide (r < rows) && (decide (r = y + k ∧ x ≤ c ∧ c < x + 8 ∧ c < cols) && b.getLsbD (7 - (c - x))))
            || (decide (r < rows ∧ c < cols) && spriteBit bs x (y + (k + 1)) r c)) := by
      intro r c
      by_cases h1 : r = y + k
      · subst h1
        have h3 : y + k < y + k + (bs.length + 1) := by omega
        by_cases h4 : x ≤ c <;> by_cases h5 : c < x + 8 <;> by_cases h6 : c < cols <;> by_cases h7 : y + k < rows <;>
          simp [spriteBit, h3, h4, h5, h6, h7]
      · by_cases h8 : y + (k + 1) ≤ r
        · have h9 : r - (y + k) = (r - (y + (k + 1))) + 1 := by omega
          have h10 : (y + k ≤ r ∧ r < y + k + (bs.length + 1) ∧ x ≤ c ∧ c < x + 8)
              ↔ (y + (k + 1) ≤ r ∧ r < y + (k + 1) + bs.length ∧ x ≤ c ∧ c < x + 8) := by omega
          simp only [spriteBit, List.length_cons, h10, h9, List.getD_cons_succ, h1, false_and, decide_false, Bool.false_and,
            Bool.and_false, Bool.false_or]
        · have h10 : ¬ (y + k ≤ r ∧ r < y + k + (bs.length + 1) ∧ x ≤ c ∧ c < x + 8) := by omega
          have h11 : ¬ (y + (k + 1) ≤ r ∧ r < y + (k + 1) + bs.length ∧ x ≤ c ∧ c < x + 8) := by omega
          simp [spriteBit, h1, h10, h11]
    rw [drawRows]
    split
    · rename_i hrow
      have hn : ∀ r c, (decide (r < rows) && (decide (r = y + k ∧ x ≤ c ∧ c < x + 8 ∧ c < cols) && b.getLsbD (7 - (c - x))))
          = false := by
        intro r c
        by_cases h1 : r < rows
        · have : ¬ (r = y + k ∧ x ≤ c ∧ c < x + 8 ∧ c < cols) := by omega
          simp [this]
        · simp [h1]
      exact (DrawStep.none hd hn).trans (ih hd (k + 1)) key (fun r c h => by rw [hn] at h; cases h)
    · rename_i hrow
      have h0 := drawRow_step (x := x) b hd (row := y + k) (by omega) 8
      have he : ∀ r c, (decide (r < rows) && (decide (r = y + k ∧ x ≤ c ∧ c < x + 8 ∧ c < cols) && b.getLsbD (7 - (c - x))))
          = (decide (r = y + k ∧ x ≤ c ∧ c < x + 8 ∧ c < cols) && b.getLsbD (7 - (c - x))) := by
        intro r c
        by_cases h1 : r < rows
        · simp [h1]
        · have : ¬ (r = y + k ∧ x ≤ c ∧ c < x + 8 ∧ c < cols) := by omega
          simp [this]
      refine h0.trans (ih h0.wf (k + 1)) (fun r c => ?_) (fun r c h => ?_)
      · rw [key, he]
      · simp only [Bool.and_eq_true, decide_eq_true_eq] at h
        have h11 : ¬ (y + (k + 1) ≤ r ∧ r < y + (k + 1) + bs.length ∧ x ≤ c ∧ c < x + 8) := by omega
        simp [spriteBit, h11]

/-- `DrawSprite` (R223): it flips exactly the pixels inside the grid on which a set sprite bit falls. -/
theorem blitSprite_step {x y : Nat} (l : List Byte) {g : Grid} (hg : Grid.wf rows cols g = true) :
    DrawStep rows cols (fun r c => decide (r < rows ∧ c < cols) && spriteBit l x y r c)
      { pix := g, collision := false, touched := false } (blitSprite rows cols x y l g) := by
  unfold blitSprite
  split
  · refine DrawStep.none hg (fun r c => ?_)
    by_cases h1 : c < cols
    · have h2 : ¬ (y ≤ r ∧ r < y + l.length ∧ x ≤ c ∧ c < x + 8) := by omega
      simp [spriteBit, h2]
    · simp [h1]
  · exact drawRows_step (d := { pix := g, collision := false, touched := false }) l hg 0

/-- A start at or past the right or the bottom edge draws nothing (R226). -/
theorem blitSprite_off_grid {x y : Nat} (l : List Byte) (g : Grid) (h : cols ≤ x ∨ rows ≤ y) :
    blitSprite rows cols x y l g = { pix := g, collision := false, touched := false } := by
  unfold blitSprite
  split
  · rfl
  · have hy : rows ≤ y := by omega
    have hd : ∀ (l : List Byte) (k : Nat) (d : Drawing), drawRows rows cols x y k l d = d := by
      intro l
      induction l with
      | nil => exact fun _ _ => rfl
      | cons b bs ih =>
        intro k d
        rw [drawRows, if_pos (by omega), ih]
    exact hd l 0 _

end Sys2Proof.Machine
end

