-- ==== Sys2Proof/Laws/Memory.lean ====
section
/-! SUPPORT. Laws of sparse memory: a read after a write, and that every memory operation keeps the canonical form. -/

namespace Sys2Proof.Machine

variable {base : Nat → Byte}

/-! ### Canonical form -/

theorem Memory.wfFrom_weaken {lo lo' : Nat} (h : lo ≤ lo') {m : Memory} (hm : Memory.wfFrom base lo' m = true) :
    Memory.wfFrom base lo m = true := by
  cases m with
  | nil => rfl
  | cons p m =>
    simp only [Memory.wfFrom, Bool.and_eq_true, decide_eq_true_eq] at hm ⊢
    exact ⟨⟨⟨by omega, hm.1.1.2⟩, hm.1.2⟩, hm.2⟩

/-- An address below the bound of a canonical list is unlisted. -/
theorem Memory.read_below {lo a : Nat} {m : Memory} (hm : Memory.wfFrom base lo m = true) (h : a < lo) :
    Memory.read base m a = base a := by
  induction m generalizing lo with
  | nil => rfl
  | cons p m ih =>
    simp only [Memory.wfFrom, Bool.and_eq_true, decide_eq_true_eq] at hm
    have hne : a ≠ p.1 := by omega
    simp only [Memory.read, if_neg hne]
    exact ih hm.2 (by omega)

theorem Memory.wfFrom_cons {lo a : Nat} {b : Byte} {m : Memory} (hlo : lo ≤ a) (ha : a < memSize)
    (hm : Memory.wfFrom base (a + 1) m = true) : Memory.wfFrom base lo (Memory.cons base a b m) = true := by
  unfold Memory.cons
  split
  · exact Memory.wfFrom_weaken (by omega) hm
  · rename_i hb
    simp [Memory.wfFrom, hlo, ha, hb, hm]

theorem Memory.wfFrom_write {lo a : Nat} {b : Byte} {m : Memory} (hlo : lo ≤ a) (ha : a < memSize)
    (hm : Memory.wfFrom base lo m = true) : Memory.wfFrom base lo (Memory.write base m a b) = true := by
  induction m generalizing lo with
  | nil => exact Memory.wfFrom_cons hlo ha rfl
  | cons p m ih =>
    have hm' := hm
    simp only [Memory.wfFrom, Bool.and_eq_true, decide_eq_true_eq] at hm'
    simp only [Memory.write]
    split
    · refine Memory.wfFrom_cons hlo ha ?_
      simp only [Memory.wfFrom, Bool.and_eq_true, decide_eq_true_eq]
      exact ⟨⟨⟨by omega, hm'.1.1.2⟩, hm'.1.2⟩, hm'.2⟩
    · split
      · rename_i h1 h2
        subst h2
        exact Memory.wfFrom_cons hlo ha hm'.2
      · simp only [Memory.wfFrom, Bool.and_eq_true, decide_eq_true_eq]
        exact ⟨hm'.1, ih (by omega) hm'.2⟩

/-- Writing a byte inside memory keeps the canonical form. -/
theorem Memory.wf_write {a : Nat} {b : Byte} {m : Memory} (ha : a < memSize) (hm : Memory.wf base m = true) :
    Memory.wf base (Memory.write base m a b) = true :=
  Memory.wfFrom_write (Nat.zero_le _) ha hm

/-- Writing a run of bytes inside memory keeps the canonical form. -/
theorem Memory.wf_writeRun {l : List Byte} {a : Nat} {m : Memory} (ha : a + l.length ≤ memSize ∨ l = [])
    (hm : Memory.wf base m = true) : Memory.wf base (Memory.writeRun base m a l) = true := by
  induction l generalizing a m with
  | nil => exact hm
  | cons b bs ih =>
    have h : a + (bs.length + 1) ≤ memSize := by simpa using ha
    exact ih (Or.inl (by omega)) (Memory.wf_write (by omega) hm)

/-! ### Read after write -/

theorem Memory.read_cons {lo a : Nat} {b : Byte} {m : Memory} (hm : Memory.wfFrom base lo m = true) (h : a < lo) (q : Nat) :
    Memory.read base (Memory.cons base a b m) q = if q = a then b else Memory.read base m q := by
  unfold Memory.cons
  split
  · rename_i hb
    split
    · rename_i hq; subst hq; rw [Memory.read_below hm h, hb]
    · rfl
  · rfl

theorem Memory.read_write_from {lo a : Nat} {b : Byte} {m : Memory} (hm : Memory.wfFrom base lo m = true) (q : Nat) :
    Memory.read base (Memory.write base m a b) q = if q = a then b else Memory.read base m q := by
  induction m generalizing lo with
  | nil => exact Memory.read_cons (lo := a + 1) rfl (by omega) q
  | cons p m ih =>
    have hm' := hm
    simp only [Memory.wfFrom, Bool.and_eq_true, decide_eq_true_eq] at hm'
    simp only [Memory.write]
    split
    · rename_i h1
      refine Memory.read_cons (lo := p.1) ?_ h1 q
      simp only [Memory.wfFrom, Bool.and_eq_true, decide_eq_true_eq]
      exact ⟨⟨⟨by omega, hm'.1.1.2⟩, hm'.1.2⟩, hm'.2⟩
    · split
      · rename_i h1 h2
        subst h2
        rw [Memory.read_cons hm'.2 (by omega) q]
        by_cases hq : q = p.1 <;> simp [Memory.read, hq]
      · rename_i h1 h2
        simp only [Memory.read, ih hm'.2]
        by_cases hq : q = p.1
        · have h3 : ¬ p.1 = a := fun e => h2 e.symm
          simp [hq, h3]
        · simp [hq]

/-- A read after a write to the same address gives the byte written; any other address reads as before. -/
theorem Memory.read_write {a : Nat} {b : Byte} {m : Memory} (hm : Memory.wf base m = true) (q : Nat) :
    Memory.read base (Memory.write base m a b) q = if q = a then b else Memory.read base m q :=
  Memory.read_write_from hm q

/-- A read after a run of writes: the k-th byte at `a + k`, any other address as before. -/
theorem Memory.read_writeRun {l : List Byte} {a : Nat} {m : Memory} (ha : a + l.length ≤ memSize ∨ l = [])
    (hm : Memory.wf base m = true) (q : Nat) :
    Memory.read base (Memory.writeRun base m a l) q
      = if a ≤ q ∧ q < a + l.length then l.getD (q - a) 0#8 else Memory.read base m q := by
  induction l generalizing a m with
  | nil => simp [Memory.writeRun]
  | cons b bs ih =>
    have h : a + (bs.length + 1) ≤ memSize := by simpa using ha
    rw [Memory.writeRun, ih (Or.inl (by omega)) (Memory.wf_write (by omega) hm), Memory.read_write hm]
    by_cases hq : q = a
    · subst hq; simp
    · by_cases h2 : a + 1 ≤ q ∧ q < a + 1 + bs.length
      · have h3 : a ≤ q ∧ q < a + (b :: bs).length := by simp; omega
        have h4 : q - a = (q - (a + 1)) + 1 := by omega
        rw [if_pos h2, if_pos h3, h4, List.getD_cons_succ]
      · have h3 : ¬ (a ≤ q ∧ q < a + (b :: bs).length) := by simp; omega
        rw [if_neg h2, if_neg h3, if_neg hq]

/-! ### Reading a run -/

@[simp] theorem Memory.readRun_length (m : Memory) (a n : Nat) : (Memory.readRun base m a n).length = n := by
  simp [Memory.readRun]

theorem Memory.readRun_getD (m : Memory) {a n k : Nat} (h : k < n) :
    (Memory.readRun base m a n).getD k 0#8 = Memory.read base m (a + k) := by
  simp [Memory.readRun, h]

end Sys2Proof.Machine
end

