-- ==== Sys2Proof/Laws/Ops.lean ====
section
/-! SUPPORT. One lemma per shared operation: everything it can answer. Provers cite these and never unfold the operation. -/

namespace Sys2Proof.Machine

variable {s t : State}

/-! ### settle -/

@[simp] theorem settle_ok : settle s (.ok t) = .next t := rfl

@[simp] theorem settle_error (c : Condition) : settle s (.error c) = .next (s.raise c) := rfl

/-- Whatever the operation, settling it answers a next state: the operation's, or the condition taken. -/
theorem settle_cases (r : Except Condition State) :
    (∃ t, r = .ok t ∧ settle s r = .next t) ∨ (∃ c, r = .error c ∧ settle s r = .next (s.raise c)) := by
  cases r with
  | ok t => exact .inl ⟨t, rfl, rfl⟩
  | error c => exact .inr ⟨c, rfl, rfl⟩

/-! ### Bounds and memory access -/

theorem inBounds_iff (a n : Nat) : inBounds a n = true ↔ n = 0 ∨ a + n ≤ 4096 := by
  simp only [inBounds, Bool.or_eq_true, decide_eq_true_eq]
  exact Iff.rfl

theorem State.memRead_inBounds {a n : Nat} (h : n = 0 ∨ a + n ≤ 4096) :
    s.memRead a n = .ok (Memory.readRun (resetByte s.cfg) s.mem a n) := by
  simp [State.memRead, (inBounds_iff a n).mpr h]

theorem State.memRead_outside {a n : Nat} (h : ¬ (n = 0 ∨ a + n ≤ 4096)) : s.memRead a n = .error (.outOfBoundsMem a n) := by
  have : ¬ inBounds a n = true := fun e => h ((inBounds_iff a n).mp e)
  simp [State.memRead, this]

theorem State.memWrite_inBounds {a : Nat} {l : List Byte} (h : l.length = 0 ∨ a + l.length ≤ 4096) :
    s.memWrite a l = .ok (s.putRun a l) := by
  simp [State.memWrite, (inBounds_iff a l.length).mpr h]

theorem State.memWrite_outside {a : Nat} {l : List Byte} (h : ¬ (l.length = 0 ∨ a + l.length ≤ 4096)) :
    s.memWrite a l = .error (.outOfBoundsMem a l.length) := by
  have : ¬ inBounds a l.length = true := fun e => h ((inBounds_iff a l.length).mp e)
  simp [State.memWrite, this]

/-- A byte after a run was stored inside a canonical memory. -/
theorem State.byteAt_putRun {a : Nat} {l : List Byte} (ha : a + l.length ≤ 4096 ∨ l = [])
    (hm : Memory.wf (resetByte s.cfg) s.mem = true) (q : Nat) :
    (s.putRun a l).byteAt q = if a ≤ q ∧ q < a + l.length then l.getD (q - a) 0#8 else s.byteAt q :=
  Memory.read_writeRun ha hm q

/-! ### The call stack -/

theorem State.push_full (w : Word) (h : s.sp = 15) : s.push w = .error .stackOverflow := by simp [State.push, h]

theorem State.push_room (w : Word) (h : s.sp ≠ 15) :
    s.push w = .ok { s with stack := s.stack.set s.sp.val w, sp := s.sp + 1 } := by simp [State.push, h]

theorem State.popPC_empty (h : s.sp = 0) : s.popPC = .error .stackUnderflow := by simp [State.popPC, h]

theorem State.popPC_held (h : s.sp ≠ 0) : s.popPC = .ok { s with pc := s.stack[(s.sp - 1).val], sp := s.sp - 1 } := by
  simp [State.popPC, h]

/-! ### Keys -/

theorem State.keyAt_legal {a : Byte} (h : a.toNat < 16) : s.keyAt a = .ok s.key[a.toNat] := by simp [State.keyAt, h]

theorem State.keyAt_illegal {a : Byte} (h : ¬ a.toNat < 16) : s.keyAt a = .error (.outOfBoundsKey a.toNat) := by
  simp [State.keyAt, h]

/-- The key Fx0A captures is pressed, and no lower one is. -/
theorem State.lowestKey_some {k : KeyIx} (h : s.lowestKey = some k) :
    s.key[k.val] = true ∧ ∀ j : KeyIx, j.val < k.val → s.key[j.val] = false := by
  unfold State.lowestKey at h
  refine ⟨by simpa using List.find?_some h, fun j hj => ?_⟩
  obtain ⟨-, as, bs, hl, has⟩ := List.find?_eq_some_iff_append.mp h
  have hjm : j ∈ as := by
    have hj' : j ∈ List.finRange 16 := List.mem_finRange j
    rw [hl] at hj'
    rcases List.mem_append.mp hj' with h1 | h1
    · exact h1
    · exfalso
      have hp : (as ++ k :: bs).Pairwise (fun a b => a < b) := hl ▸ List.pairwise_lt_finRange 16
      rcases List.mem_cons.mp h1 with h2 | h2
      · subst h2; omega
      · have := (List.pairwise_cons.mp (List.pairwise_append.mp hp).2.1).1 j h2
        have : k.val < j.val := this
        omega
  simpa using has j hjm

theorem State.lowestKey_none (h : s.lowestKey = none) (j : KeyIx) : s.key[j.val] = false := by
  unfold State.lowestKey at h
  simpa using List.find?_eq_none.mp h j (List.mem_finRange j)

/-! ### Draws -/

/-- A draw is some byte, and taking it moves only the model's own fields. -/
theorem State.random_state : s.random.2 = { s with draws := s.random.2.draws, freeIndex := s.random.2.freeIndex } := by
  unfold State.random
  split <;> rfl

@[simp] theorem State.reg_random (q : RegIx) : s.random.2.reg q = s.reg q := by
  unfold State.random
  split <;> rfl

/-! ### The register range of Fx55 and Fx65 -/

theorem mem_regsUpTo (x k : RegIx) : k ∈ regsUpTo x ↔ k.val ≤ x.val := by simp [regsUpTo]

theorem regsUpTo_eq_map : ∀ x : RegIx, (regsUpTo x).map Fin.val = List.range (x.val + 1) := by decide

@[simp] theorem regsUpTo_length (x : RegIx) : (regsUpTo x).length = x.val + 1 := by
  rw [← List.length_map (f := Fin.val), regsUpTo_eq_map, List.length_range]

theorem regsUpTo_nodup (x : RegIx) : (regsUpTo x).Nodup := (List.nodup_finRange 16).filter _

theorem regsUpTo_getElem (x : RegIx) {k : Nat} (h : k < (regsUpTo x).length) : ((regsUpTo x)[k]).val = k := by
  have h1 : ((regsUpTo x).map Fin.val)[k]'(by simpa using h) = k := by simp only [regsUpTo_eq_map, List.getElem_range]
  simpa using h1

@[simp] theorem State.regRange_length (x : RegIx) : (s.regRange x).length = x.val + 1 := by simp [State.regRange]

/-- The k-th byte Fx55 stores is V[k]. -/
theorem State.regRange_getD {x k : RegIx} (h : k.val ≤ x.val) : (s.regRange x).getD k.val 0#8 = s.reg k := by
  have hk : k.val < (regsUpTo x).length := by simp; omega
  have he : (regsUpTo x)[k.val] = k := Fin.ext (regsUpTo_getElem x hk)
  have hs : (regsUpTo x)[k.val]? = some k := by rw [List.getElem?_eq_getElem hk, he]
  simp only [State.regRange, List.getD, List.getElem?_map, hs, Option.map_some, Option.getD_some]

/-- Writing a list of registers changes no other field. -/
theorem State.setRegs_eq (rs : List RegIx) (l : List Byte) : s.setRegs rs l = { s with v := (s.setRegs rs l).v } := by
  induction rs generalizing s l with
  | nil => rfl
  | cons r rs ih =>
    cases l with
    | nil => rfl
    | cons b l => rw [State.setRegs, ih]; rfl

theorem State.reg_setRegs_other {rs : List RegIx} {q : RegIx} (h : q ∉ rs) (l : List Byte) : (s.setRegs rs l).reg q = s.reg q := by
  induction rs generalizing s l with
  | nil => rfl
  | cons r rs ih =>
    cases l with
    | nil => rfl
    | cons b l =>
      rw [State.setRegs, ih (fun e => h (List.mem_cons_of_mem _ e)), State.reg_setReg_other]
      exact fun e => h (e ▸ List.mem_cons_self)

/-- The k-th listed register receives the k-th byte. -/
theorem State.reg_setRegs {rs : List RegIx} (hn : rs.Nodup) {l : List Byte} (hl : l.length = rs.length) {k : Nat}
    (hk : k < rs.length) : (s.setRegs rs l).reg rs[k] = l.getD k 0#8 := by
  induction rs generalizing s l k with
  | nil => simp at hk
  | cons r rs ih =>
    cases l with
    | nil => simp at hl
    | cons b l =>
      rw [List.nodup_cons] at hn
      cases k with
      | zero => simp [State.setRegs, State.reg_setRegs_other hn.1]
      | succ k =>
        have hk' : k < rs.length := by simpa using hk
        simpa [State.setRegs] using ih hn.2 (by simpa using hl) hk'

/-- V[k] after Fx65 writes the list to V[0..x] (k ≤ x). -/
theorem State.reg_setRegs_upTo {x k : RegIx} (h : k.val ≤ x.val) {l : List Byte} (hl : l.length = x.val + 1) :
    (s.setRegs (regsUpTo x) l).reg k = l.getD k.val 0#8 := by
  have hk : k.val < (regsUpTo x).length := by simp; omega
  have he : (regsUpTo x)[k.val] = k := Fin.ext (regsUpTo_getElem x hk)
  have := State.reg_setRegs (s := s) (regsUpTo_nodup x) (l := l) (by simpa using hl) hk
  rwa [he] at this

end Sys2Proof.Machine
end

