-- ==== Sys2Proof/Laws/Exec.lean ====
section
/-! SUPPORT. What `exec` answers for the instructions that may raise, on each side of their check: the next state written out,
so that no proof unfolds `settle` or a meaning. -/

namespace Sys2Proof.Machine

variable {s : State}

/-! ### Call and return -/

theorem exec_call_room (nnn : Imm12) (h : s.sp ≠ 15) :
    exec (.call nnn) s = .next { s with stack := s.stack.set s.sp.val s.pc, sp := s.sp + 1, pc := zext16 nnn } := by
  simp only [exec, execCall, State.push_room _ h, Except.map, settle_ok, State.setPC]

theorem exec_call_full (nnn : Imm12) (h : s.sp = 15) : exec (.call nnn) s = .next (s.raise .stackOverflow) := by
  simp only [exec, execCall, State.push_full _ h, Except.map, settle_error]

theorem exec_ret_held (h : s.sp ≠ 0) :
    exec .ret s = .next { s with pc := s.stack[(s.sp - 1).val], sp := s.sp - 1 } := by
  simp only [exec, execRet, State.popPC_held h, settle_ok]

theorem exec_ret_empty (h : s.sp = 0) : exec .ret s = .next (s.raise .stackUnderflow) := by
  simp only [exec, execRet, State.popPC_empty h, settle_error]

/-! ### Memory instructions -/

theorem exec_ldB_inside (x : RegIx) (h : s.i.toNat + 3 ≤ 4096) :
    exec (.ldB x) s = .next (s.putRun s.i.toNat (bcdDigits (s.reg x))) := by
  simp only [exec, execLdB]
  rw [State.memWrite_inBounds (l := bcdDigits (s.reg x)) (.inr h), settle_ok]

theorem exec_ldB_outside (x : RegIx) (h : 4096 < s.i.toNat + 3) :
    exec (.ldB x) s = .next (s.raise (.outOfBoundsMem s.i.toNat 3)) := by
  have hn : ¬ ((bcdDigits (s.reg x)).length = 0 ∨ s.i.toNat + (bcdDigits (s.reg x)).length ≤ 4096) := by
    simp [bcdDigits]; omega
  simp only [exec, execLdB]
  rw [State.memWrite_outside hn, settle_error]
  rfl

theorem exec_storeRegs_inside (x : RegIx) (h : s.i.toNat + (x.val + 1) ≤ 4096) :
    exec (.storeRegs x) s = .next (s.putRun s.i.toNat (s.regRange x)) := by
  simp only [exec, execStoreRegs]
  rw [State.memWrite_inBounds (.inr (by simpa using h)), settle_ok]

theorem exec_storeRegs_outside (x : RegIx) (h : 4096 < s.i.toNat + (x.val + 1)) :
    exec (.storeRegs x) s = .next (s.raise (.outOfBoundsMem s.i.toNat (x.val + 1))) := by
  simp only [exec, execStoreRegs]
  rw [State.memWrite_outside (by simp; omega), settle_error, State.regRange_length]

theorem exec_loadRegs_inside (x : RegIx) (h : s.i.toNat + (x.val + 1) ≤ 4096) :
    exec (.loadRegs x) s
      = .next (s.setRegs (regsUpTo x) (Memory.readRun (resetByte s.cfg) s.mem s.i.toNat (x.val + 1))) := by
  simp only [exec, execLoadRegs]
  rw [State.memRead_inBounds (.inr h), Except.map, settle_ok]

theorem exec_loadRegs_outside (x : RegIx) (h : 4096 < s.i.toNat + (x.val + 1)) :
    exec (.loadRegs x) s = .next (s.raise (.outOfBoundsMem s.i.toNat (x.val + 1))) := by
  simp only [exec, execLoadRegs]
  rw [State.memRead_outside (by omega), Except.map, settle_error]

/-! ### Drawing -/

theorem exec_drw_inside (x y : RegIx) (n : Count) (h : n.val = 0 ∨ s.i.toNat + n.val ≤ 4096) :
    exec (.drw x y n) s = .next (s.drawAt x y (Memory.readRun (resetByte s.cfg) s.mem s.i.toNat n.val)) := by
  simp only [exec, execDrw]
  rw [State.memRead_inBounds h, Except.map, settle_ok]

theorem exec_drw_outside (x y : RegIx) (n : Count) (h0 : n.val ≠ 0) (h : 4096 < s.i.toNat + n.val) :
    exec (.drw x y n) s = .next (s.raise (.outOfBoundsMem s.i.toNat n.val)) := by
  simp only [exec, execDrw]
  rw [State.memRead_outside (by omega), Except.map, settle_error]

/-! ### Keys -/

theorem exec_skp_legal (x : RegIx) (h : (s.reg x).toNat < 16) :
    exec (.skp x) s = .next (s.skipIf s.key[(s.reg x).toNat]) := by
  simp only [exec, execSkp, State.keyAt_legal h, Except.map, settle_ok]

theorem exec_skp_illegal (x : RegIx) (h : ¬ (s.reg x).toNat < 16) :
    exec (.skp x) s = .next (s.raise (.outOfBoundsKey (s.reg x).toNat)) := by
  simp only [exec, execSkp, State.keyAt_illegal h, Except.map, settle_error]

theorem exec_sknp_legal (x : RegIx) (h : (s.reg x).toNat < 16) :
    exec (.sknp x) s = .next (s.skipIf (!s.key[(s.reg x).toNat])) := by
  simp only [exec, execSknp, State.keyAt_legal h, Except.map, settle_ok]

theorem exec_sknp_illegal (x : RegIx) (h : ¬ (s.reg x).toNat < 16) :
    exec (.sknp x) s = .next (s.raise (.outOfBoundsKey (s.reg x).toNat)) := by
  simp only [exec, execSknp, State.keyAt_illegal h, Except.map, settle_error]

theorem exec_ldVxK_pressed (x : RegIx) {k : KeyIx} (h : s.lowestKey = some k) :
    exec (.ldVxK x) s = .next (s.setReg x (keyByte k)) := by
  simp only [exec, execLdVxK, h]

theorem exec_ldVxK_waiting (x : RegIx) (h : s.lowestKey = none) : exec (.ldVxK x) s = .next (s.setPC (s.pc - 2#16)) := by
  simp only [exec, execLdVxK, h]

end Sys2Proof.Machine
end

