-- ==== Sys2Proof/Laws/PerInstr.lean ====
section
/-! SUPPORT. Statements about every instruction, one lemma per constructor. `Canonical`: the encoding of a well-formed
instruction is a canonical encoding of its key in the opcode table (30_encoding.md R97, R104). -/

namespace Sys2Proof.Laws.Canonical

open Sys2Proof

/-- The word `encode` writes matches the canonical mask and match of its key's row. -/
def Statement (i : Instr) : Prop := i.wf = true → i.key.row.acceptsCanonical (encode i) = true

/-- A row without a constraint accepts a word whose masked bits are its value. -/
theorem accepts_plain {r : OpcodeRow} {c : Word} (hr : r.n2NonZero = false) (h : c &&& r.canonicalMask = r.canonicalValue) :
    r.acceptsCanonical c = true := by
  simp [OpcodeRow.acceptsCanonical, hr, h]

theorem cls : Statement (.cls) := fun _ => by decide

theorem ret : Statement (.ret) := fun _ => by decide

theorem sys (nnn : Imm12) : Statement (.sys nnn) := fun h => by
  have hm : encode (.sys nnn) &&& 0xF000#16 = 0x0000#16 := (encNNN_and 0x0#4 nnn).trans (by decide)
  have hn : n2 (encode (.sys nnn)) ≠ 0x0#4 := by
    intro e
    have h1 : nnn.extractLsb' 8 4 = 0x0#4 := (n2_encNNN 0x0#4 nnn).symm.trans e
    have h2 : (nnn.extractLsb' 8 4).toNat = 0 := by rw [h1]; rfl
    have h3 : 0x100 ≤ nnn.toNat := by simpa [Instr.wf] using h
    have h4 := nnn.isLt
    rw [BitVec.extractLsb'_toNat, Nat.shiftRight_eq_div_pow] at h2
    omega
  simp [OpcodeRow.acceptsCanonical, Instr.key, Key.row, hm, hn]

theorem jp (nnn : Imm12) : Statement (.jp nnn) := fun _ => accepts_plain rfl ((encNNN_and _ nnn).trans rfl)

theorem call (nnn : Imm12) : Statement (.call nnn) := fun _ => accepts_plain rfl ((encNNN_and _ nnn).trans rfl)

theorem seImm (x : RegIx) (kk : Byte) : Statement (.seImm x kk) := fun _ => accepts_plain rfl ((encXKK_and _ x kk 0x00#8).trans (by rw [BitVec.and_zero]; rfl))

theorem sneImm (x : RegIx) (kk : Byte) : Statement (.sneImm x kk) := fun _ => accepts_plain rfl ((encXKK_and _ x kk 0x00#8).trans (by rw [BitVec.and_zero]; rfl))

theorem seReg (x : RegIx) (y : RegIx) : Statement (.seReg x y) := fun _ => accepts_plain rfl ((encXYN_and _ x y _ 0xF#4).trans rfl)

theorem ldImm (x : RegIx) (kk : Byte) : Statement (.ldImm x kk) := fun _ => accepts_plain rfl ((encXKK_and _ x kk 0x00#8).trans (by rw [BitVec.and_zero]; rfl))

theorem addImm (x : RegIx) (kk : Byte) : Statement (.addImm x kk) := fun _ => accepts_plain rfl ((encXKK_and _ x kk 0x00#8).trans (by rw [BitVec.and_zero]; rfl))

theorem ldReg (x : RegIx) (y : RegIx) : Statement (.ldReg x y) := fun _ => accepts_plain rfl ((encXYN_and _ x y _ 0xF#4).trans rfl)

theorem orReg (x : RegIx) (y : RegIx) : Statement (.orReg x y) := fun _ => accepts_plain rfl ((encXYN_and _ x y _ 0xF#4).trans rfl)

theorem andReg (x : RegIx) (y : RegIx) : Statement (.andReg x y) := fun _ => accepts_plain rfl ((encXYN_and _ x y _ 0xF#4).trans rfl)

theorem xorReg (x : RegIx) (y : RegIx) : Statement (.xorReg x y) := fun _ => accepts_plain rfl ((encXYN_and _ x y _ 0xF#4).trans rfl)

theorem addReg (x : RegIx) (y : RegIx) : Statement (.addReg x y) := fun _ => accepts_plain rfl ((encXYN_and _ x y _ 0xF#4).trans rfl)

theorem subReg (x : RegIx) (y : RegIx) : Statement (.subReg x y) := fun _ => accepts_plain rfl ((encXYN_and _ x y _ 0xF#4).trans rfl)

theorem shr (x : RegIx) (y : RegIx) : Statement (.shr x y) := fun _ => accepts_plain rfl ((encXYN_and _ x y _ 0xF#4).trans rfl)

theorem subn (x : RegIx) (y : RegIx) : Statement (.subn x y) := fun _ => accepts_plain rfl ((encXYN_and _ x y _ 0xF#4).trans rfl)

theorem shl (x : RegIx) (y : RegIx) : Statement (.shl x y) := fun _ => accepts_plain rfl ((encXYN_and _ x y _ 0xF#4).trans rfl)

theorem sneReg (x : RegIx) (y : RegIx) : Statement (.sneReg x y) := fun _ => accepts_plain rfl ((encXYN_and _ x y _ 0xF#4).trans rfl)

theorem ldI (nnn : Imm12) : Statement (.ldI nnn) := fun _ => accepts_plain rfl ((encNNN_and _ nnn).trans rfl)

theorem jpV0 (nnn : Imm12) : Statement (.jpV0 nnn) := fun _ => accepts_plain rfl ((encNNN_and _ nnn).trans rfl)

theorem rnd (x : RegIx) (kk : Byte) : Statement (.rnd x kk) := fun _ => accepts_plain rfl ((encXKK_and _ x kk 0x00#8).trans (by rw [BitVec.and_zero]; rfl))

theorem drw (x : RegIx) (y : RegIx) (n : Count) : Statement (.drw x y n) := fun _ => accepts_plain rfl ((encXYN_and _ x y _ 0x0#4).trans (by rw [BitVec.and_zero]; rfl))

theorem skp (x : RegIx) : Statement (.skp x) := fun _ => accepts_plain rfl ((encXKK_and _ x 0x9E#8 0xFF#8).trans rfl)

theorem sknp (x : RegIx) : Statement (.sknp x) := fun _ => accepts_plain rfl ((encXKK_and _ x 0xA1#8 0xFF#8).trans rfl)

theorem ldVxDT (x : RegIx) : Statement (.ldVxDT x) := fun _ => accepts_plain rfl ((encXKK_and _ x 0x07#8 0xFF#8).trans rfl)

theorem ldDTVx (x : RegIx) : Statement (.ldDTVx x) := fun _ => accepts_plain rfl ((encXKK_and _ x 0x15#8 0xFF#8).trans rfl)

theorem ldSTVx (x : RegIx) : Statement (.ldSTVx x) := fun _ => accepts_plain rfl ((encXKK_and _ x 0x18#8 0xFF#8).trans rfl)

theorem ldVxK (x : RegIx) : Statement (.ldVxK x) := fun _ => accepts_plain rfl ((encXKK_and _ x 0x0A#8 0xFF#8).trans rfl)

theorem addI (x : RegIx) : Statement (.addI x) := fun _ => accepts_plain rfl ((encXKK_and _ x 0x1E#8 0xFF#8).trans rfl)

theorem ldF (x : RegIx) : Statement (.ldF x) := fun _ => accepts_plain rfl ((encXKK_and _ x 0x29#8 0xFF#8).trans rfl)

theorem ldB (x : RegIx) : Statement (.ldB x) := fun _ => accepts_plain rfl ((encXKK_and _ x 0x33#8 0xFF#8).trans rfl)

theorem storeRegs (x : RegIx) : Statement (.storeRegs x) := fun _ => accepts_plain rfl ((encXKK_and _ x 0x55#8 0xFF#8).trans rfl)

theorem loadRegs (x : RegIx) : Statement (.loadRegs x) := fun _ => accepts_plain rfl ((encXKK_and _ x 0x65#8 0xFF#8).trans rfl)

end Sys2Proof.Laws.Canonical
end

