-- ==== Sys2Proof/Laws/Step.lean ====
section
/-! SUPPORT. What an instruction and a step can do, said once: `exec` always answers a next state and moves only the fields an
instruction may move; the cases of a fetch and of a step. -/

namespace Sys2Proof.Machine

variable {s t : State}

/-! ### What no instruction touches -/

/-- The fields that no base handler writes (40_step_fetch_dispatch.md R138; 10_state.md R31, R37 to R41, R43). -/
structure Untouched (s t : State) : Prop where
  key : t.key = s.key
  keyq : t.keyq = s.keyq
  held : t.held = s.held
  cycleIndex : t.cycleIndex = s.cycleIndex
  ipc : t.ipc = s.ipc
  freq : t.freq = s.freq
  pacing : t.pacing = s.pacing
  hooks : t.hooks = s.hooks
  ulog : t.ulog = s.ulog
  cfg : t.cfg = s.cfg

theorem Untouched.rfl' : Untouched s s := ⟨rfl, rfl, rfl, rfl, rfl, rfl, rfl, rfl, rfl, rfl⟩

theorem Untouched.setReg {r : RegIx} {b : Byte} (h : Untouched s t) : Untouched s (t.setReg r b) :=
  ⟨h.key, h.keyq, h.held, h.cycleIndex, h.ipc, h.freq, h.pacing, h.hooks, h.ulog, h.cfg⟩

theorem Untouched.raise {c : Condition} : Untouched s (s.raise c) := ⟨rfl, rfl, rfl, rfl, rfl, rfl, rfl, rfl, rfl, rfl⟩

theorem Untouched.skipIf {b : Bool} : Untouched s (s.skipIf b) := by
  cases b <;> exact ⟨rfl, rfl, rfl, rfl, rfl, rfl, rfl, rfl, rfl, rfl⟩

theorem Untouched.random : Untouched s s.random.2 := by
  unfold State.random
  split <;> exact ⟨rfl, rfl, rfl, rfl, rfl, rfl, rfl, rfl, rfl, rfl⟩

theorem Untouched.setRegs {rs : List RegIx} {l : List Byte} : Untouched s (s.setRegs rs l) := by
  rw [State.setRegs_eq]
  exact ⟨rfl, rfl, rfl, rfl, rfl, rfl, rfl, rfl, rfl, rfl⟩

theorem Untouched.drawAt {x y : RegIx} {l : List Byte} : Untouched s (s.drawAt x y l) :=
  ⟨rfl, rfl, rfl, rfl, rfl, rfl, rfl, rfl, rfl, rfl⟩

/-- A settled operation, given what its success leaves untouched. -/
theorem Untouched.settle {r : Except Condition State} (h : ∀ t, r = .ok t → Untouched s t) :
    ∃ t, Machine.settle s r = .next t ∧ Untouched s t := by
  rcases settle_cases (s := s) r with ⟨t, hr, e⟩ | ⟨c, -, e⟩
  · exact ⟨t, e, h t hr⟩
  · exact ⟨_, e, Untouched.raise⟩

/-- The success of an operation followed by a total one. -/
theorem except_map_ok {ε α β : Type} {r : Except ε α} {f : α → β} {t : β} (h : r.map f = .ok t) :
    ∃ a, r = .ok a ∧ f a = t := by
  cases r with
  | ok a => exact ⟨a, rfl, by simpa [Except.map] using h⟩
  | error c => simp [Except.map] at h

/-- Every base handler answers a next state, and leaves these fields as they were. -/
theorem exec_next (i : Instr) (s : State) : ∃ t, exec i s = .next t ∧ Untouched s t := by
  cases i with
  | cls => exact ⟨_, rfl, ⟨rfl, rfl, rfl, rfl, rfl, rfl, rfl, rfl, rfl, rfl⟩⟩
  | ret =>
    refine Untouched.settle (fun t h => ?_)
    unfold State.popPC at h
    split at h <;> cases h
    exact ⟨rfl, rfl, rfl, rfl, rfl, rfl, rfl, rfl, rfl, rfl⟩
  | sys nnn => exact ⟨_, rfl, Untouched.rfl'⟩
  | jp nnn => exact ⟨_, rfl, ⟨rfl, rfl, rfl, rfl, rfl, rfl, rfl, rfl, rfl, rfl⟩⟩
  | call nnn =>
    refine Untouched.settle (fun t h => ?_)
    obtain ⟨u, hu, rfl⟩ := except_map_ok h
    unfold State.push at hu
    split at hu <;> cases hu
    exact ⟨rfl, rfl, rfl, rfl, rfl, rfl, rfl, rfl, rfl, rfl⟩
  | seImm x kk => exact ⟨_, rfl, Untouched.skipIf⟩
  | sneImm x kk => exact ⟨_, rfl, Untouched.skipIf⟩
  | seReg x y => exact ⟨_, rfl, Untouched.skipIf⟩
  | ldImm x kk => exact ⟨_, rfl, Untouched.rfl'.setReg⟩
  | addImm x kk => exact ⟨_, rfl, Untouched.rfl'.setReg⟩
  | ldReg x y => exact ⟨_, rfl, Untouched.rfl'.setReg⟩
  | orReg x y => exact ⟨_, rfl, Untouched.rfl'.setReg⟩
  | andReg x y => exact ⟨_, rfl, Untouched.rfl'.setReg⟩
  | xorReg x y => exact ⟨_, rfl, Untouched.rfl'.setReg⟩
  | addReg x y => exact ⟨_, rfl, Untouched.rfl'.setReg.setReg⟩
  | subReg x y => exact ⟨_, rfl, Untouched.rfl'.setReg.setReg⟩
  | shr x y => exact ⟨_, rfl, Untouched.rfl'.setReg.setReg⟩
  | subn x y => exact ⟨_, rfl, Untouched.rfl'.setReg.setReg⟩
  | shl x y => exact ⟨_, rfl, Untouched.rfl'.setReg.setReg⟩
  | sneReg x y => exact ⟨_, rfl, Untouched.skipIf⟩
  | ldI nnn => exact ⟨_, rfl, ⟨rfl, rfl, rfl, rfl, rfl, rfl, rfl, rfl, rfl, rfl⟩⟩
  | jpV0 nnn => exact ⟨_, rfl, ⟨rfl, rfl, rfl, rfl, rfl, rfl, rfl, rfl, rfl, rfl⟩⟩
  | rnd x kk => exact ⟨_, rfl, Untouched.random.setReg⟩
  | drw x y n =>
    refine Untouched.settle (fun t h => ?_)
    obtain ⟨l, -, rfl⟩ := except_map_ok h
    exact Untouched.drawAt
  | skp x =>
    refine Untouched.settle (fun t h => ?_)
    obtain ⟨p, -, rfl⟩ := except_map_ok h
    exact Untouched.skipIf
  | sknp x =>
    refine Untouched.settle (fun t h => ?_)
    obtain ⟨p, -, rfl⟩ := except_map_ok h
    exact Untouched.skipIf
  | ldVxDT x => exact ⟨_, rfl, Untouched.rfl'.setReg⟩
  | ldDTVx x => exact ⟨_, rfl, ⟨rfl, rfl, rfl, rfl, rfl, rfl, rfl, rfl, rfl, rfl⟩⟩
  | ldSTVx x => exact ⟨_, rfl, ⟨rfl, rfl, rfl, rfl, rfl, rfl, rfl, rfl, rfl, rfl⟩⟩
  | ldVxK x =>
    simp only [exec, execLdVxK]
    cases s.lowestKey with
    | some k => exact ⟨_, rfl, Untouched.rfl'.setReg⟩
    | none => exact ⟨_, rfl, ⟨rfl, rfl, rfl, rfl, rfl, rfl, rfl, rfl, rfl, rfl⟩⟩
  | addI x => exact ⟨_, rfl, ⟨rfl, rfl, rfl, rfl, rfl, rfl, rfl, rfl, rfl, rfl⟩⟩
  | ldF x => exact ⟨_, rfl, ⟨rfl, rfl, rfl, rfl, rfl, rfl, rfl, rfl, rfl, rfl⟩⟩
  | ldB x =>
    refine Untouched.settle (fun t h => ?_)
    unfold State.memWrite at h
    split at h <;> cases h
    exact ⟨rfl, rfl, rfl, rfl, rfl, rfl, rfl, rfl, rfl, rfl⟩
  | storeRegs x =>
    refine Untouched.settle (fun t h => ?_)
    unfold State.memWrite at h
    split at h <;> cases h
    exact ⟨rfl, rfl, rfl, rfl, rfl, rfl, rfl, rfl, rfl, rfl⟩
  | loadRegs x =>
    refine Untouched.settle (fun t h => ?_)
    obtain ⟨l, -, rfl⟩ := except_map_ok h
    exact Untouched.setRegs

/-! ### Fetch and step -/

/-- A fetch inside memory reads the word at PC and moves PC past it (R131, R64). -/
theorem State.fetch_ok (h : s.pc.toNat ≤ 4094) :
    s.fetch = .ok (wordOfBytes (s.byteAt s.pc.toNat) (s.byteAt (s.pc.toNat + 1)), s.setPC (s.pc + 2#16)) := by
  have hb : (2 : Nat) = 0 ∨ s.pc.toNat + 2 ≤ 4096 := by omega
  simp only [State.fetch, State.memRead_inBounds hb, Except.map, State.byteAt,
    Memory.readRun_getD (base := resetByte s.cfg) s.mem (show 0 < 2 by omega),
    Memory.readRun_getD (base := resetByte s.cfg) s.mem (show 1 < 2 by omega), Nat.add_zero]

/-- A fetch that leaves memory raises (R131). -/
theorem State.fetch_error (h : ¬ s.pc.toNat ≤ 4094) : s.fetch = .error (.outOfBoundsMem s.pc.toNat 2) := by
  have hb : ¬ ((2 : Nat) = 0 ∨ s.pc.toNat + 2 ≤ 4096) := by omega
  simp only [State.fetch, State.memRead_outside hb, Except.map]

/-- R136. -/
theorem step_halted (h : s.halted ≠ none) : step s = .next s := by
  cases hs : s.halted with
  | none => exact absurd hs h
  | some c => simp [step, cpuStep, hs]

theorem step_fetchError (hh : s.halted = none) (h : ¬ s.pc.toNat ≤ 4094) :
    step s = .next (s.raise (.outOfBoundsMem s.pc.toNat 2)) := by
  simp [step, cpuStep, hh, State.fetch_error h]

theorem step_fetched (hh : s.halted = none) (h : s.pc.toNat ≤ 4094) :
    step s = runWord (wordOfBytes (s.byteAt s.pc.toNat) (s.byteAt (s.pc.toNat + 1))) (s.setPC (s.pc + 2#16)) := by
  simp [step, cpuStep, hh, State.fetch_ok h]

/-- What one step does: nothing, a fetch fault, an unknown word, or the handler of the fetched word. -/
theorem step_cases (s : State) :
    (s.halted ≠ none ∧ step s = .next s)
      ∨ (s.halted = none ∧ 4094 < s.pc.toNat ∧ step s = .next (s.raise (.outOfBoundsMem s.pc.toNat 2)))
      ∨ (s.halted = none ∧ s.pc.toNat ≤ 4094 ∧ ∃ c e, decode c = .error e
          ∧ step s = .next ((s.setPC (s.pc + 2#16)).reportUnknown c))
      ∨ (s.halted = none ∧ s.pc.toNat ≤ 4094 ∧ ∃ c i, decode c = .ok i
          ∧ step s = runHandler i c (s.setPC (s.pc + 2#16))) := by
  by_cases hh : s.halted = none
  · by_cases h : s.pc.toNat ≤ 4094
    · have hs := step_fetched hh h
      generalize wordOfBytes (s.byteAt s.pc.toNat) (s.byteAt (s.pc.toNat + 1)) = c at hs
      cases hd : decode c with
      | ok i =>
        refine .inr (.inr (.inr ⟨hh, h, c, i, hd, ?_⟩))
        rw [hs, runWord, hd]
      | error e =>
        refine .inr (.inr (.inl ⟨hh, h, c, e, hd, ?_⟩))
        rw [hs, runWord, hd]
    · exact .inr (.inl ⟨hh, by omega, step_fetchError hh h⟩)
  · exact .inl ⟨hh, step_halted hh⟩

/-! ### Hooked keys -/

theorem runHandler_base {i : Instr} (c : Word) (h : s.hookOf i.key = none) : runHandler i c s = exec i s := by
  simp [runHandler, h]

theorem runHandler_replace {i : Instr} (c : Word) {code : HostCode} (h : s.hookOf i.key = some (.replace code)) :
    runHandler i c s = .next (s.hostEffect (Config.hostHandler code c s)) := by
  simp [runHandler, h]

theorem runHandler_pre {i : Instr} (c : Word) {code : HostCode} (h : s.hookOf i.key = some (.pre code)) :
    runHandler i c s = runPre code i s := by
  simp [runHandler, h]

theorem runHandler_post {i : Instr} (c : Word) {code : HostCode} (h : s.hookOf i.key = some (.post code)) :
    runHandler i c s = runPost code i s := by
  simp [runHandler, h]

end Sys2Proof.Machine
end

