-- ==== Sys2Proof/Laws/Run.lean ====
section
/-! SUPPORT. Runs of steps: every handler and every step answers a next state; runs split and join; the batch of a cycle is a
run of steps; what hooked host code cannot touch. -/

namespace Sys2Proof.Machine

variable {s t u : State}

/-! ### Every step answers -/

theorem runHandler_next (i : Instr) (c : Word) (s : State) : ∃ t, runHandler i c s = .next t := by
  unfold runHandler
  split
  · exact (exec_next i s).imp fun _ h => h.1
  · exact ⟨_, rfl⟩
  · unfold runPre
    simp only
    split
    · exact ⟨_, rfl⟩
    · exact (exec_next i _).imp fun _ h => h.1
  · obtain ⟨t, ht, -⟩ := exec_next i s
    unfold runPost
    rw [ht]
    simp only
    split <;> exact ⟨_, rfl⟩

theorem step_next (s : State) : ∃ t, step s = .next t := by
  rcases step_cases s with ⟨-, e⟩ | ⟨-, -, e⟩ | ⟨-, -, c, _, -, e⟩ | ⟨-, -, c, i, -, e⟩
  · exact ⟨_, e⟩
  · exact ⟨_, e⟩
  · exact ⟨_, e⟩
  · rw [e]; exact runHandler_next _ _ _

/-! ### Runs -/

theorem runSteps_next (n : Nat) (s : State) : ∃ t, runSteps n s = .next t := by
  induction n generalizing s with
  | zero => exact ⟨_, rfl⟩
  | succ n ih => obtain ⟨v, hv⟩ := step_next s; rw [runSteps, hv]; exact ih v

theorem runSteps_halted (h : s.halted ≠ none) (n : Nat) : runSteps n s = .next s := by
  induction n with
  | zero => rfl
  | succ n ih => rw [runSteps, step_halted h]; exact ih

/-- A run of `n + m` steps is one of `n` and then one of `m`. -/
theorem runSteps_split (n m : Nat) (h : runSteps (n + m) s = .next u) :
    ∃ v, runSteps n s = .next v ∧ runSteps m v = .next u := by
  induction n generalizing s with
  | zero => exact ⟨s, rfl, by simpa using h⟩
  | succ n ih =>
    obtain ⟨v, hv⟩ := step_next s
    rw [Nat.add_right_comm, runSteps, hv] at h
    obtain ⟨w, h1, h2⟩ := ih h
    exact ⟨w, by rw [runSteps, hv]; exact h1, h2⟩

/-- What every step keeps, every run keeps. -/
theorem runSteps_induction {P : State → Prop} (hP : ∀ a b, P a → step a = .next b → P b) (n : Nat) (hs : P s)
    (h : runSteps n s = .next u) : P u := by
  induction n generalizing s with
  | zero => cases h; exact hs
  | succ n ih =>
    obtain ⟨v, hv⟩ := step_next s
    rw [runSteps, hv] at h
    exact ih (hP _ _ hs hv) h

/-- The batch of a cycle ends where a run of as many steps does: a halted core does not move (R136, R274). -/
theorem runBatch_of_runSteps (n : Nat) (h : runSteps n s = .next u) : runBatch n s = .next u := by
  induction n generalizing s with
  | zero => exact h
  | succ n ih =>
    obtain ⟨v, hv⟩ := step_next s
    rw [runSteps, hv] at h
    rw [runBatch, hv]
    simp only at h ⊢
    split
    · rename_i hh
      rw [runSteps_halted (fun e => by simp [e] at hh)] at h
      exact h
    · exact ih h

/-! ### Host code -/

/-- What host code keeps if every write of it, every raise and every move of the free index does. -/
theorem hostEffect_induction {P : State → Prop} (hw : ∀ a w, P a → P (State.hostWrite a w)) (hr : ∀ a c, P a → P (a.raise c))
    (hf : P { s with freeIndex := s.freeIndex + 1 }) (e : HostEffect) : P (s.hostEffect e) := by
  have h : ∀ (l : List HostWrite) (a : State), P a → P (l.foldl State.hostWrite a) := by
    intro l
    induction l with
    | nil => exact fun a ha => ha
    | cons w l ih => exact fun a ha => ih _ (hw _ _ ha)
  unfold State.hostEffect
  split
  · exact h _ _ hf
  · exact hr _ _ (h _ _ hf)

/-- Host code writes MachineState only (R320; notes/assumptions/30). -/
theorem hostEffect_scheduler (e : HostEffect) :
    (s.hostEffect e).keyq = s.keyq ∧ (s.hostEffect e).held = s.held ∧ (s.hostEffect e).cycleIndex = s.cycleIndex
      ∧ (s.hostEffect e).ipc = s.ipc ∧ (s.hostEffect e).hooks = s.hooks ∧ (s.hostEffect e).ulog = s.ulog
      ∧ (s.hostEffect e).cfg = s.cfg :=
  hostEffect_induction
    (P := fun a => a.keyq = s.keyq ∧ a.held = s.held ∧ a.cycleIndex = s.cycleIndex ∧ a.ipc = s.ipc ∧ a.hooks = s.hooks
      ∧ a.ulog = s.ulog ∧ a.cfg = s.cfg)
    (fun a w h => by cases w <;> exact h) (fun a c h => h) ⟨rfl, rfl, rfl, rfl, rfl, rfl, rfl⟩ e

end Sys2Proof.Machine
end

