-- ==== Sys2Proof/Tests/Slice0.lean ====
section
/-! SUPPORT. Small tests. Expected results come from spec/95_test_vectors.md (the vector is named at each test) or from words
written out bit by bit from the encodings of 30_encoding.md R91, R95, R97. -/

namespace Sys2Proof.Tests

open Sys2Proof Sys2Proof.Machine

/-! ### WellFormed smoke: the one check refuses an ill-formed term (R93) -/

theorem test_wf_sys_refuses_zero_x : (Instr.sys 0x0FF#12).wf = false := by decide
theorem test_wf_sys_accepts_nonzero_x : (Instr.sys 0x100#12).wf = true := by decide

/-! ### Decoding: words written out nibble by nibble from the key's pattern -/

theorem test_decode_cls : decode 0b0000000011100000#16 = .ok .cls := by decide
theorem test_decode_ret : decode 0b0000000011101110#16 = .ok .ret := by decide
theorem test_decode_sys : decode 0b0000000100100011#16 = .ok (.sys 0x123#12) := by decide
theorem test_decode_jp : decode 0b0001001000000100#16 = .ok (.jp 0x204#12) := by decide
theorem test_decode_call : decode 0b0010001000010000#16 = .ok (.call 0x210#12) := by decide
theorem test_decode_seImm : decode 0b0011101000000101#16 = .ok (.seImm 10 0x05#8) := by decide
theorem test_decode_sneImm : decode 0b0100101000000101#16 = .ok (.sneImm 10 0x05#8) := by decide
theorem test_decode_seReg : decode 0b0101000100100000#16 = .ok (.seReg 1 2) := by decide
theorem test_decode_ldImm : decode 0b0110000000001010#16 = .ok (.ldImm 0 0x0A#8) := by decide
theorem test_decode_addImm : decode 0b0111000111111111#16 = .ok (.addImm 1 0xFF#8) := by decide
theorem test_decode_ldReg : decode 0b1000000100100000#16 = .ok (.ldReg 1 2) := by decide
theorem test_decode_orReg : decode 0b1000000100100001#16 = .ok (.orReg 1 2) := by decide
theorem test_decode_andReg : decode 0b1000000100100010#16 = .ok (.andReg 1 2) := by decide
theorem test_decode_xorReg : decode 0b1000000100100011#16 = .ok (.xorReg 1 2) := by decide
theorem test_decode_addReg : decode 0b1000000100100100#16 = .ok (.addReg 1 2) := by decide
theorem test_decode_subReg : decode 0b1000000100100101#16 = .ok (.subReg 1 2) := by decide
theorem test_decode_shr : decode 0b1000000100100110#16 = .ok (.shr 1 2) := by decide
theorem test_decode_subn : decode 0b1000000100100111#16 = .ok (.subn 1 2) := by decide
theorem test_decode_shl : decode 0b1000000100101110#16 = .ok (.shl 1 2) := by decide
theorem test_decode_sneReg : decode 0b1001000100100000#16 = .ok (.sneReg 1 2) := by decide
theorem test_decode_ldI : decode 0b1010001100000000#16 = .ok (.ldI 0x300#12) := by decide
theorem test_decode_jpV0 : decode 0b1011001100000000#16 = .ok (.jpV0 0x300#12) := by decide
theorem test_decode_rnd : decode 0b1100000100001111#16 = .ok (.rnd 1 0x0F#8) := by decide
theorem test_decode_drw : decode 0b1101000100101010#16 = .ok (.drw 1 2 10) := by decide
theorem test_decode_skp : decode 0b1110010110011110#16 = .ok (.skp 5) := by decide
theorem test_decode_sknp : decode 0b1110010110100001#16 = .ok (.sknp 5) := by decide
theorem test_decode_ldVxDT : decode 0b1111000100000111#16 = .ok (.ldVxDT 1) := by decide
theorem test_decode_ldVxK : decode 0b1111001000001010#16 = .ok (.ldVxK 2) := by decide
theorem test_decode_ldDTVx : decode 0b1111000000010101#16 = .ok (.ldDTVx 0) := by decide
theorem test_decode_ldSTVx : decode 0b1111001100011000#16 = .ok (.ldSTVx 3) := by decide
theorem test_decode_addI : decode 0b1111001000011110#16 = .ok (.addI 2) := by decide
theorem test_decode_ldF : decode 0b1111000000101001#16 = .ok (.ldF 0) := by decide
theorem test_decode_ldB : decode 0b1111000000110011#16 = .ok (.ldB 0) := by decide
theorem test_decode_storeRegs : decode 0b1111001101010101#16 = .ok (.storeRegs 3) := by decide
theorem test_decode_loadRegs : decode 0b1111001101100101#16 = .ok (.loadRegs 3) := by decide

/-- R98: aliases, among them 0x0000. -/
theorem test_decode_aliases :
    decode 0x0000#16 = .ok .cls ∧ decode 0x000E#16 = .ok .ret ∧ decode 0x5127#16 = .ok (.seReg 1 2)
      ∧ decode 0xE50E#16 = .ok (.skp 5) ∧ decode 0xE5F1#16 = .ok (.sknp 5) := by decide

/-- V-F4, V-F5: unknown opcodes, refused by name with the raw value. -/
theorem test_decode_unknown :
    [0x8128#16, 0x0001#16, 0xE000#16, 0xF000#16, 0xFFFF#16, 0xF175#16].map decode
      = [0x8128#16, 0x0001#16, 0xE000#16, 0xF000#16, 0xFFFF#16, 0xF175#16].map
          (fun c => .error (.unknownOpcode c)) := by decide

/-- R64: the first byte is the most significant one; R90: one byte is too few. -/
theorem test_decode_bytes :
    decodeBytes [0x60#8, 0x0A#8, 0xFF#8] = .ok (.ldImm 0 0x0A#8, [0xFF#8]) ∧ decodeBytes [0x60#8] = .error .truncated := by
  decide

/-- S13: c = 0xD12A. -/
theorem test_fields :
    fieldX 0xD12A#16 = 1 ∧ fieldY 0xD12A#16 = 2 ∧ fieldN 0xD12A#16 = 10 ∧ fieldKK 0xD12A#16 = 0x2A#8
      ∧ fieldNNN 0xD12A#16 = 0x12A#12 := by decide

theorem test_decodeTableWord : decodeTableWord 16 0xD12A = some (.drw 1 2 10) := by decide

/-! ### One step on small states -/

/-- The reset state with one opcode at 0x200 (95_test_vectors.md, conventions), changed by `f`. -/
def booted (c : Nat) (f : State → State) : State := f (State.reset.withFetchWord 16 c)

/-- The state after one step, where the step answers one. -/
def after (s : State) : State :=
  match step s with
  | .next t => t
  | _ => s

/-- One step of the opcode on the reset state changed by `f`. -/
def ran (c : Nat) (f : State → State) : State := after (booted c f)

/-- Write registers: pairs of number and value. -/
def regs (l : List (RegIx × Byte)) (s : State) : State := l.foldl (fun t p => t.setReg p.1 p.2) s

/-- Write bytes of memory. -/
def bytes (a : Nat) (l : List Byte) (s : State) : State := s.putRun a l

/-- S1. -/
theorem test_S1_loaded_rom_steps :
    (match State.reset.loadRom [0x60#8, 0x0A#8] with
      | .ok s => ((after s).reg 0, (after s).pc)
      | .error _ => (0#8, 0#16)) = (0x0A#8, 0x202#16) := by decide

/-- V-F2: the fetch fault leaves PC. -/
theorem test_VF2_fetch_fault :
    (ran 0x6001 (fun s => s.setPC 0xFFF#16)) = (booted 0x6001 (fun s => s.setPC 0xFFF#16)).raise (.outOfBoundsMem 0xFFF 2) := by
  decide

/-- V-F3: an odd PC is not checked. -/
theorem test_VF3_odd_pc :
    (fun t => (t.reg 0, t.pc)) (ran 0x0000 (fun s => (bytes 0x201 [0x60#8, 0x01#8] s).setPC 0x201#16)) = (1#8, 0x203#16) := by
  decide

/-- V-F4. -/
theorem test_VF4_unknown_is_logged : (fun t => (t.ulog, t.pc, t.halted)) (ran 0x8128 id) = ([0x8128#16], 0x202#16, none) := by
  decide

/-- V-F7. -/
theorem test_VF7_halted_does_nothing :
    after (booted 0x6001 (fun s => s.raise .stackUnderflow)) = booted 0x6001 (fun s => s.raise .stackUnderflow) := by decide

/-- V-C1. -/
theorem test_VC1_sys : (ran 0x0123 id).pc = 0x202#16 := by decide

/-- V-C4 (alias of 00EE). -/
theorem test_VC4_ret :
    (fun t => (t.pc, t.sp, t.stack[1])) (ran 0x000E (fun s => { s with sp := 2, stack := (s.stack.set 0 0x20A#16).set 1 0x300#16 }))
      = (0x300#16, 1, 0x300#16) := by decide

/-- V-C3. -/
theorem test_VC3_underflow : (fun t => (t.halted, t.pc, t.sp)) (ran 0x00EE id) = (some .stackUnderflow, 0x202#16, 0) := by decide

/-- V-C7. -/
theorem test_VC7_jp : (ran 0x1FFF id).pc = 0xFFF#16 := by decide

/-- V-C9. -/
theorem test_VC9_call :
    (fun t => (t.stack[14], t.sp, t.pc)) (ran 0x2300 (fun s => { s with sp := 14 })) = (0x202#16, 15, 0x300#16) := by decide

/-- V-C10. -/
theorem test_VC10_overflow :
    (fun t => (t.halted, t.pc, t.sp)) (ran 0x2300 (fun s => { s with sp := 15 })) = (some .stackOverflow, 0x202#16, 15) := by decide

/-- V-C12, V-C13. -/
theorem test_VC12_seImm : ((ran 0x3A05 (regs [(10, 5#8)])).pc, (ran 0x3A05 (regs [(10, 6#8)])).pc) = (0x204#16, 0x202#16) := by decide

/-- V-C14. -/
theorem test_VC14_sneImm : ((ran 0x4A05 (regs [(10, 5#8)])).pc, (ran 0x4A05 (regs [(10, 6#8)])).pc) = (0x202#16, 0x204#16) := by decide

/-- V-C15, V-C16. -/
theorem test_VC15_seReg :
    ((ran 0x5127 (regs [(1, 9#8), (2, 9#8)])).pc, (ran 0x5120 (regs [(1, 9#8), (2, 8#8)])).pc) = (0x204#16, 0x202#16) := by decide

/-- V-C18. -/
theorem test_VC18_sneReg :
    ((ran 0x9120 (regs [(1, 9#8), (2, 8#8)])).pc, (ran 0x9120 (regs [(1, 9#8), (2, 9#8)])).pc) = (0x204#16, 0x202#16) := by decide

/-- V-C20: no reduction mod 4096. -/
theorem test_VC20_jpV0 : (ran 0xBFFF (regs [(0, 0xFF#8)])).pc = 0x10FE#16 := by decide

/-- V-A1. -/
theorem test_VA1_ldImm : (ran 0x6F07 id).reg vf = 7#8 := by decide

/-- V-A2: no carry flag. -/
theorem test_VA2_addImm :
    (fun t => (t.reg 1, t.reg vf)) (ran 0x7101 (regs [(1, 0xFF#8), (15, 7#8)])) = (0#8, 7#8) := by decide

/-- V-A5. -/
theorem test_VA5_ldReg : (ran 0x8120 (regs [(2, 0x3C#8)])).reg 1 = 0x3C#8 := by decide

/-- V-A6: VF unchanged. -/
theorem test_VA6_or :
    (fun t => (t.reg 1, t.reg vf)) (ran 0x8121 (regs [(1, 0x0F#8), (2, 0xF0#8), (15, 9#8)])) = (0xFF#8, 9#8) := by decide

/-- V-A7. -/
theorem test_VA7_and : (ran 0x8122 (regs [(1, 0x3C#8), (2, 0x0F#8)])).reg 1 = 0x0C#8 := by decide

/-- V-A8. -/
theorem test_VA8_xor : (ran 0x8123 (regs [(1, 0xFF#8), (2, 0x0F#8)])).reg 1 = 0xF0#8 := by decide

/-- V-A11. -/
theorem test_VA11_add : (fun t => (t.reg 0, t.reg vf)) (ran 0x8014 (regs [(0, 0xFF#8), (1, 0xFF#8)])) = (0xFE#8, 1#8) := by decide

/-- V-A13: VF is the result register, the carry stays. -/
theorem test_VA13_add_into_vf : (ran 0x8F14 (regs [(15, 200#8), (1, 100#8)])).reg vf = 1#8 := by decide

/-- V-A17. -/
theorem test_VA17_sub : (fun t => (t.reg 0, t.reg vf)) (ran 0x8015 (regs [(0, 0#8), (1, 1#8)])) = (0xFF#8, 0#8) := by decide

/-- S9: equal operands do not borrow. -/
theorem test_S9_sub_equal :
    (fun t => (t.reg 0, t.reg vf)) (ran 0x8015 (regs [(0, 7#8), (1, 7#8)])) = (0#8, 1#8) := by decide

/-- V-A20: y ignored. -/
theorem test_VA20_shr :
    (fun t => (t.reg 2, t.reg vf, t.reg 1)) (ran 0x8216 (regs [(2, 0xFF#8), (1, 0x33#8)])) = (0x7F#8, 1#8, 0x33#8) := by decide

/-- V-A21: flag first, result second. -/
theorem test_VA21_shr_vf : (ran 0x8F06 (regs [(15, 5#8)])).reg vf = 2#8 := by decide

/-- V-A22: the destination is V[y]. -/
theorem test_VA22_subn :
    (fun t => (t.reg 2, t.reg 1, t.reg vf)) (ran 0x8127 (regs [(1, 3#8), (2, 10#8)])) = (7#8, 3#8, 1#8) := by decide

/-- V-A25: y = F, the flag stays. -/
theorem test_VA25_subn_vf : (ran 0x81F7 (regs [(1, 10#8), (15, 3#8)])).reg vf = 0#8 := by decide

/-- S10. -/
theorem test_S10_shl : (fun t => (t.reg 3, t.reg vf)) (ran 0x830E (regs [(3, 0x81#8)])) = (0x02#8, 1#8) := by decide

/-- V-A27. -/
theorem test_VA27_shl_vf : (ran 0x8F0E (regs [(15, 0x81#8)])).reg vf = 0x02#8 := by decide

/-- V-A28: with the draw 0xA7 supplied. -/
theorem test_VA28_rnd : (ran 0xC10F (fun s => s.supplyRandom 0xA7#8)).reg 1 = 0x07#8 := by decide

/-- V-M1. -/
theorem test_VM1_ldI : (ran 0xAFFF id).i = 0xFFF#16 := by decide

/-- V-M3: overflow is of 16 bits. -/
theorem test_VM3_addI :
    (fun t => (t.i, t.reg vf)) (ran 0xF21E (fun s => (regs [(2, 1#8)] s).setI 0xFFF#16)) = (0x1000#16, 0#8) := by decide

/-- V-M5: a sum of exactly 65536. -/
theorem test_VM5_addI :
    (fun t => (t.i, t.reg vf)) (ran 0xF21E (fun s => (regs [(2, 0xFF#8)] s).setI 0xFF01#16)) = (0#16, 1#8) := by decide

/-- V-M7: no nibble mask. -/
theorem test_VM7_ldF : ((ran 0xF029 (regs [(0, 0xA#8)])).i, (ran 0xF029 (regs [(0, 0xFF#8)])).i) = (0x032#16, 0x4FB#16) := by decide

/-- S2. -/
theorem test_S2_ldB :
    (ran 0xF033 (fun s => (regs [(0, 205#8)] s).setI 0x300#16)).memRead 0x300 4 = .ok [2#8, 0#8, 5#8, 0#8] := by decide

/-- V-M10: no partial effect. -/
theorem test_VM10_ldB_out_of_bounds :
    (fun t => (t.halted, t.byteAt 0xFFE, t.pc)) (ran 0xF033 (fun s => (regs [(0, 123#8)] s).setI 0xFFE#16))
      = (some (.outOfBoundsMem 0xFFE 3), 0#8, 0x202#16) := by decide

/-- S3. -/
theorem test_S3_storeRegs :
    (ran 0xF355 (fun s => bytes 0x304 [0xEE#8] ((regs [(0, 1#8), (1, 2#8), (2, 3#8), (3, 4#8), (4, 5#8)] s).setI 0x300#16))).memRead
      0x300 5 = .ok [1#8, 2#8, 3#8, 4#8, 0xEE#8] := by decide

/-- V-M12: no partial store. -/
theorem test_VM12_storeRegs :
    (fun t => (t.halted, t.byteAt 0xFFF)) (ran 0xF155 (fun s => (regs [(0, 0xAB#8), (1, 0xCD#8)] s).setI 0xFFF#16))
      = (some (.outOfBoundsMem 0xFFF 2), 0#8) := by decide

/-- S3, the load. -/
theorem test_S3_loadRegs :
    (fun t => (t.reg 0, t.reg 1, t.reg 2, t.reg 3, t.reg 4))
        (ran 0xF365 (fun s => bytes 0x300 [2#8, 0#8, 5#8, 9#8, 7#8] ((regs [(4, 0x99#8)] s).setI 0x300#16)))
      = (2#8, 0#8, 5#8, 9#8, 0x99#8) := by decide

/-- V-M15: no partial load. -/
theorem test_VM15_loadRegs :
    (fun t => (t.halted, t.reg 0)) (ran 0xFF65 (fun s => (regs [(0, 0x55#8)] s).setI 0xFF1#16))
      = (some (.outOfBoundsMem 0xFF1 16), 0x55#8) := by decide

/-- The lit pixels of a row range, as (row, column) pairs. -/
def lit (s : State) (rows : List Nat) : List (Nat × Nat) :=
  rows.flatMap (fun r => ((List.range 64).filter (s.pix.get r)).map (fun c => (r, c)))

/-- V-D1: font glyph 0, fourteen pixels. -/
theorem test_VD1_font_glyph :
    lit (ran 0xD015 id) [0, 1, 2, 3, 4, 5]
      = [(0, 0), (0, 1), (0, 2), (0, 3), (1, 0), (1, 3), (2, 0), (2, 3), (3, 0), (3, 3), (4, 0), (4, 1), (4, 2), (4, 3)] := by
  decide

/-- V-D5: a collision. -/
theorem test_VD5_collision :
    (fun t => (lit t [0], t.reg vf))
        (ran 0xD121 (fun s => { (bytes 0x300 [0xC0#8] s).setI 0x300#16 with pix := (s.pix.set 0 1 true).set 0 5 true }))
      = ([(0, 0), (0, 5)], 1#8) := by decide

/-- V-D15: `Clear()` assigns the change flag. -/
theorem test_VD15_cls : (ran 0x00E0 (fun s => { s with dispChanged := true })).dispChanged = false := by decide

/-- S4: a non-empty buffer. -/
theorem test_S4_cls :
    (fun t => (t.pix.anySet, t.outputChanged.1, t.outputChanged.2.outputChanged.1))
        (ran 0x00E0 (fun s => { s with pix := s.pix.set 3 3 true })) = (false, true, false) := by decide

/-- V-K1. -/
theorem test_VK1_skp :
    ((ran 0xE59E (fun s => (regs [(5, 7#8)] s).setKey 7 true)).pc, (ran 0xE59E (regs [(5, 7#8)])).pc) = (0x204#16, 0x202#16) := by decide

/-- V-K3. -/
theorem test_VK3_skp_out_of_bounds :
    (fun t => (t.halted, t.pc)) (ran 0xE59E (regs [(5, 16#8)])) = (some (.outOfBoundsKey 16), 0x202#16) := by decide

/-- V-K2. -/
theorem test_VK2_sknp :
    ((ran 0xE5A1 (fun s => (regs [(5, 7#8)] s).setKey 7 true)).pc, (ran 0xE5A1 (regs [(5, 7#8)])).pc) = (0x202#16, 0x204#16) := by decide

/-- V-K4. -/
theorem test_VK4_sknp_out_of_bounds : (ran 0xE5A1 (regs [(5, 0xFF#8)])).halted = some (.outOfBoundsKey 255) := by decide

/-- V-K7. -/
theorem test_VK7_ldVxDT : (ran 0xF107 (fun s => s.setDT 6#8)).reg 1 = 6#8 := by decide

/-- V-K8. -/
theorem test_VK8_lowest_key :
    (fun t => (t.reg 2, t.pc)) (ran 0xF20A (fun s => (s.setKey 9 true).setKey 3 true)) = (3#8, 0x202#16) := by decide

/-- V-K9. -/
theorem test_VK9_no_key : (fun t => (t.reg 2, t.pc)) (ran 0xF20A (regs [(2, 0xEE#8)])) = (0xEE#8, 0x200#16) := by decide

/-- V-K11. -/
theorem test_VK11_ldDTVx : (ran 0xF015 (regs [(0, 7#8)])).dt = 7#8 := by decide

/-- V-K12. -/
theorem test_VK12_ldSTVx : (fun t => (t.st, t.buzzerChanged)) (ran 0xF318 (regs [(3, 4#8)])) = (4#8, true) := by decide

/-- V-K14. -/
theorem test_VK14_ldSTVx :
    (fun t => (t.st, t.buzzerChanged)) (ran 0xF318 (fun s => { regs [(3, 2#8)] s with st := 4#8 })) = (2#8, false) := by decide

/-! ### Scheduler and host transactions -/

/-- The state and reply of one cycle without a profile, where it answers one. -/
def cycled (s : State) : State × CycleReply :=
  match cycle [] s with
  | .next r => r
  | _ => (s, .fatal .stackOverflow)

/-- V-S4: nine words 0x0000. -/
theorem test_VS4_cycle_runs_nine_steps :
    (fun r => (r.1.pc, r.1.cycleIndex, match r.2 with | .frame f => (f.index, f.buzzer, f.changed) | .fatal _ => (9, true, true)))
        (cycled State.reset) = (0x212#16, 1, (0, false, false)) := by decide

/-- V-S3: a fatal condition abandons the cycle. -/
theorem test_VS3_fatal_cycle :
    (fun r => ((r.1.pc, r.1.reg 10, r.1.dt, r.1.st), (r.1.key[3], r.1.held, r.1.cycleIndex, r.2)))
        (cycled { bytes 0x200 [0x6A#8, 0x05#8, 0xFA#8, 0x15#8, 0xFA#8, 0x18#8, 0x00#8, 0xEE#8] State.reset with keyq := [3] })
      = ((0x208#16, 5#8, 5#8, 5#8), (true, some 3, 0, .fatal .stackUnderflow)) := by decide

/-- V-S5: one byte too many. -/
theorem test_VS5_rom_too_large : State.reset.loadRom (List.replicate 3585 0#8) = .error (.romTooLarge 3585) := by
  unfold State.loadRom
  rw [if_neg (by rw [List.length_replicate]; decide), List.length_replicate]

/-- S14: `mem_bcd` of 2, 0, 5. -/
theorem test_S14_get_variable :
    (bytes 0x300 [2#8, 0#8, 5#8] State.reset).getVariable (.memBcd 0x300) = .ok 205 := by decide

/-- S15: actions [4, 6]. -/
theorem test_S15_take_action :
    [1, 2].map (fun i => (State.reset.takeAction [4, 6] i).map State.keyq) = [.ok [4], .ok [6]]
      ∧ (State.reset.takeAction [4, 6] 3).map State.keyq = .error (.outOfBounds 3) := by decide

/-- R315, R319: a hook is stored under its key; a string that is no key is refused. -/
theorem test_hook_port :
    (State.reset.hook "8xy4" 1).map (fun s => s.hookOf .k8xy4) = .ok (some (.replace 1))
      ∧ (State.reset.hook "8xy9" 1).map (fun s => s.hookOf .k8xy4) = .error (.unknownKey "8xy9") := by decide

/-! ### Witnesses: for every statement of Certificates/Slice0/Obligations.lean with hypotheses, states and operands that meet
them, at the boundary of each range -/

/-- The base state of the witnesses meets the invariant; so does any change of fields that `StepInv` does not read. -/
theorem reset_stepInv : State.reset.StepInv where
  cfg_valid := by decide
  ipc_pos := by decide
  mem_wf := by decide
  pix_wf := Grid.wf_blank

theorem reset_inv : State.reset.Inv := { reset_stepInv with held_free := fun _ => rfl }

theorem reset_noHooks : State.reset.NoHooks := fun k => by cases k <;> rfl

/-- The reset state with the word `hi lo` at 4094, the last address a word can be fetched from, and PC there. -/
abbrev at4094 (hi lo : Byte) : State := { bytes 4094 [hi, lo] State.reset with pc := 4094#16 }

theorem witness_DecodeOfEncodeIsIdentity :
    (Instr.sys 0x100#12).wf = true ∧ (Instr.sys 0xFFF#12).wf = true ∧ (Instr.drw 15 15 15).wf = true := by decide

theorem witness_DecodedWordReencodes :
    decode 0x0100#16 = .ok (.sys 0x100#12) ∧ Key.k0nnn.row.acceptsCanonical 0x0100#16 = true
      ∧ decode 0x00F0#16 = .ok .cls ∧ Key.k00E0.row.acceptsCanonical 0x00F0#16 = false := by decide

theorem witness_DecoderAgreesWithOpcodeTable :
    Key.k00E0.row.accepts 0x0000#16 = true ∧ Key.k0nnn.row.accepts 0x0100#16 = true ∧ Key.kFx65.row.accepts 0xFF65#16 = true := by
  decide

theorem witness_UnknownOpcodesAreThese : decode 0x0001#16 = .error (.unknownOpcode 0x0001#16) := by decide

theorem witness_AliasWordsDecodeToTheirKey :
    (n1 0x00F0#16 = 0x0#4 ∧ n2 0x00F0#16 = 0x0#4 ∧ n4 0x00F0#16 = 0x0#4)
      ∧ (n1 0x000E#16 = 0x0#4 ∧ n2 0x000E#16 = 0x0#4 ∧ n4 0x000E#16 = 0xE#4)
      ∧ n1 0x5FFF#16 = 0x5#4 ∧ n1 0x9FFF#16 = 0x9#4
      ∧ (n1 0xEF0E#16 = 0xE#4 ∧ n4 0xEF0E#16 = 0xE#4) ∧ (n1 0xEFF1#16 = 0xE#4 ∧ n4 0xEFF1#16 = 0x1#4) := by decide

/-- The last address a word can be fetched from. -/
theorem witness_StepRunsDecodedInstruction :
    (at4094 0x60#8 0x0A#8).halted = none ∧ (at4094 0x60#8 0x0A#8).FetchesWord 0x600A#16
      ∧ decode 0x600A#16 = .ok (.ldImm 0 0x0A#8) ∧ (at4094 0x60#8 0x0A#8).hookOf .k6xkk = none := by
  unfold State.FetchesWord; decide

theorem witness_UnknownWordIsLoggedAndSkipped :
    (at4094 0x81#8 0x28#8).halted = none ∧ (at4094 0x81#8 0x28#8).FetchesWord 0x8128#16
      ∧ decode 0x8128#16 = .error (.unknownOpcode 0x8128#16) := by
  unfold State.FetchesWord; decide

theorem witness_FetchOutsideMemoryHalts :
    (State.reset.setPC 4095#16).halted = none ∧ 4096 < (State.reset.setPC 4095#16).pc.toNat + 2 := by decide

theorem witness_HaltedMachineDoesNothing : (State.reset.raise .stackOverflow).halted = some .stackOverflow := rfl

/-- A state with a hook of each kind on 6xkk, the word 600A at PC. -/
abbrev hooked (h : Hook) : State := { at4094 0x60#8 0x0A#8 with hooks := State.reset.hooks.set 9 (some h) }

theorem witness_HookedStepRunsHostCode :
    (hooked (.replace 7)).halted = none ∧ (hooked (.replace 7)).FetchesWord 0x600A#16
      ∧ decode 0x600A#16 = .ok (.ldImm 0 0x0A#8) ∧ (hooked (.replace 7)).hookOf .k6xkk = some (.replace 7)
      ∧ (hooked (.pre 7)).hookOf .k6xkk = some (.pre 7) ∧ (hooked (.post 7)).hookOf .k6xkk = some (.post 7) := by
  unfold State.FetchesWord; decide

theorem witness_LoadAndLogicResults :
    n1 0x6FFF#16 = 0x6#4 ∧ n1 0x7FFF#16 = 0x7#4 ∧ (n1 0x8120#16 = 0x8#4 ∧ n4 0x8120#16 = 0x0#4)
      ∧ n4 0x8121#16 = 0x1#4 ∧ n4 0x8122#16 = 0x2#4 ∧ n4 0x8123#16 = 0x3#4 := by decide

/-- Both sides of the case on the result register, for each of the three and the two shifts. -/
theorem witness_AddSubtractResults :
    (0 : RegIx) ≠ vf ∧ (14 : RegIx) ≠ vf ∧ ¬ (15 : RegIx) ≠ vf
      ∧ (n1 0x8124#16 = 0x8#4 ∧ n4 0x8124#16 = 0x4#4) ∧ n4 0x8125#16 = 0x5#4 ∧ n4 0x8127#16 = 0x7#4 := by decide

theorem witness_ShiftResults :
    (14 : RegIx) ≠ vf ∧ ¬ (15 : RegIx) ≠ vf ∧ (n1 0x8126#16 = 0x8#4 ∧ n4 0x8126#16 = 0x6#4) ∧ n4 0x812E#16 = 0xE#4 := by decide

theorem witness_RandomResult :
    (State.reset.supplyRandom 0xA7#8).draws = [0xA7#8] ∧ State.reset.draws = [] ∧ (0 : RegIx) ≠ 1
      ∧ n1 0xC10F#16 = 0xC#4 := by decide

theorem witness_SkipResults :
    n1 0x3A05#16 = 0x3#4 ∧ n1 0x4A05#16 = 0x4#4 ∧ n1 0x5127#16 = 0x5#4 ∧ n1 0x9120#16 = 0x9#4 := by decide

theorem witness_NoOpAndJumpResults :
    (n1 0x0100#16 = 0x0#4 ∧ n2 0x0100#16 ≠ 0x0#4) ∧ n1 0x1FFF#16 = 0x1#4 ∧ n1 0xB300#16 = 0xB#4 := by decide

theorem witness_CallResult :
    ({ State.reset with sp := 14 } : State).sp.val < 15 ∧ State.reset.sp.val < 15 ∧ (15 : Fin 16) ≠ ({ State.reset with sp := 14 } : State).sp
      ∧ n1 0x2FFF#16 = 0x2#4 := by decide

theorem witness_ReturnResult :
    0 < ({ State.reset with sp := 1 } : State).sp.val ∧ (0 : Fin 16).val + 1 = ({ State.reset with sp := 1 } : State).sp.val
      ∧ 0 < ({ State.reset with sp := 15 } : State).sp.val := by decide

theorem witness_StackLimitsHalt : ({ State.reset with sp := 15 } : State).sp.val = 15 ∧ State.reset.sp.val = 0 := by decide

theorem witness_CallThenReturnComesBack :
    ({ State.reset with sp := 14 } : State).sp.val < 15 ∧ (15 : Fin 16) ≠ ({ State.reset with sp := 14 } : State).sp := by decide

theorem witness_IndexRegisterResults :
    n1 0xAFFF#16 = 0xA#4 ∧ (n1 0xFF1E#16 = 0xF#4 ∧ fieldKK 0xFF1E#16 = 0x1E#8) ∧ fieldKK 0xF029#16 = 0x29#8
      ∧ (0 : RegIx) ≠ vf := by decide

/-- I = 4093: the last place where three bytes fit. -/
theorem witness_BcdStoreResult :
    (State.reset.setI 4093#16).StepInv ∧ (State.reset.setI 4093#16).i.toNat + 3 ≤ 4096
      ∧ n1 0xFF33#16 = 0xF#4 ∧ fieldKK 0xFF33#16 = 0x33#8 :=
  ⟨⟨reset_stepInv.1, reset_stepInv.2, reset_stepInv.3, reset_stepInv.4⟩, by decide⟩

theorem witness_RegisterStoreResult :
    (State.reset.setI 4080#16).StepInv ∧ (State.reset.setI 4080#16).i.toNat + ((15 : RegIx).val + 1) ≤ 4096
      ∧ n1 0xFF55#16 = 0xF#4 ∧ fieldKK 0xFF55#16 = 0x55#8 :=
  ⟨⟨reset_stepInv.1, reset_stepInv.2, reset_stepInv.3, reset_stepInv.4⟩, by decide⟩

theorem witness_RegisterLoadResult :
    (State.reset.setI 4080#16).i.toNat + ((15 : RegIx).val + 1) ≤ 4096
      ∧ (State.reset.setI 4095#16).i.toNat + ((0 : RegIx).val + 1) ≤ 4096 ∧ (0 : RegIx).val < (1 : RegIx).val
      ∧ n1 0xFF65#16 = 0xF#4 ∧ fieldKK 0xFF65#16 = 0x65#8 := by decide

theorem witness_MemoryRangeFaultsHalt :
    4096 < (State.reset.setI 4094#16).i.toNat + 3 ∧ 4096 < (State.reset.setI 4081#16).i.toNat + ((15 : RegIx).val + 1)
      ∧ (1 : Count).val ≠ 0 ∧ 4096 < (State.reset.setI 4096#16).i.toNat + (1 : Count).val := by decide

theorem witness_StoredRegistersLoadBack :
    (State.reset.setI 4080#16).StepInv ∧ (State.reset.setI 4080#16).i.toNat + ((15 : RegIx).val + 1) ≤ 4096 :=
  ⟨witness_RegisterStoreResult.1, witness_RegisterStoreResult.2.1⟩

theorem witness_ByteStoreReadsBack : State.reset.StepInv ∧ 4095 < 4096 := ⟨reset_stepInv, by decide⟩

/-- A state that stores the word 600A where it fetches next. -/
abbrev storing : State := { regs [(0, 0x60#8), (1, 0x0A#8)] State.reset with i := 4094#16, pc := 4094#16 }

theorem witness_StoredWordIsFetchedNext :
    storing.StepInv ∧ storing.halted = none ∧ storing.i = storing.pc ∧ storing.pc.toNat + 2 ≤ 4096
      ∧ decode (wordOfBytes (storing.reg 0) (storing.reg 1)) = .ok (.ldImm 0 0x0A#8) ∧ storing.hookOf .k6xkk = none :=
  ⟨⟨reset_stepInv.1, reset_stepInv.2, reset_stepInv.3, reset_stepInv.4⟩, by decide⟩

theorem witness_ClearDisplayResult : State.reset.StepInv ∧ 31 < State.reset.cfg.rows ∧ 63 < State.reset.cfg.cols :=
  ⟨reset_stepInv, by decide⟩

/-- The in-bounds cases at their ends: no byte anywhere, and fifteen bytes up to the last one. -/
theorem witness_DrawSpriteResult :
    (State.reset.setI 0xFFFF#16).StepInv ∧ (0 : Count).val = 0 ∧ (State.reset.setI 4081#16).i.toNat + (15 : Count).val ≤ 4096
      ∧ n1 0xD12A#16 = 0xD#4 ∧ 31 < State.reset.cfg.rows ∧ 63 < State.reset.cfg.cols :=
  ⟨⟨reset_stepInv.1, reset_stepInv.2, reset_stepInv.3, reset_stepInv.4⟩, by decide⟩

/-- The collision clause: glyph 0 drawn over a lit pixel at (0, 0), and over a dark display. -/
theorem witness_DrawSpriteResult_collision :
    (fun s t : State => decide (s.pix.get 0 0 = true ∧ t.pix.get 0 0 = false))
        (booted 0xD015 (fun s => { s with pix := s.pix.set 0 0 true })) (ran 0xD015 (fun s => { s with pix := s.pix.set 0 0 true }))
      = true ∧ (ran 0xD015 id).pix.get 0 0 = true := by decide

theorem witness_DrawNeverWraps :
    (regs [(0, 64#8), (1, 32#8)] State.reset).StepInv
      ∧ (∃ t, exec (.drw 0 1 0) (regs [(0, 64#8), (1, 32#8)] State.reset) = .next t)
      ∧ State.reset.cfg.cols ≤ ((regs [(0, 64#8), (1, 32#8)] State.reset).reg 0).toNat
      ∧ State.reset.cfg.rows ≤ ((regs [(0, 64#8), (1, 32#8)] State.reset).reg 1).toNat
      ∧ (ran 0xD015 id).pix.get 0 0 ≠ (booted 0xD015 id).pix.get 0 0 :=
  ⟨⟨reset_stepInv.1, reset_stepInv.2, reset_stepInv.3, reset_stepInv.4⟩, ⟨_, rfl⟩, by decide⟩

theorem witness_KeySkipResults :
    ((regs [(5, 15#8)] State.reset).reg 5).toNat = (15 : KeyIx).val ∧ ((regs [(5, 0#8)] State.reset).reg 5).toNat = (0 : KeyIx).val := by
  decide

theorem witness_KeyIndexFaultsHalt : 16 ≤ ((regs [(5, 16#8)] State.reset).reg 5).toNat := by decide

theorem witness_TimerRegisterResults :
    n1 0xFF07#16 = 0xF#4 ∧ fieldKK 0xFF07#16 = 0x07#8 ∧ fieldKK 0xFF15#16 = 0x15#8 ∧ fieldKK 0xFF18#16 = 0x18#8 := by decide

/-- Only key 15 pressed; no key pressed. -/
theorem witness_KeyWaitResult :
    (State.reset.setKey 15 true).key[(15 : KeyIx).val] = true
      ∧ (∀ j : KeyIx, j.val < (15 : KeyIx).val → (State.reset.setKey 15 true).key[j.val] = false)
      ∧ (∀ k : KeyIx, State.reset.key[k.val] = false) ∧ n1 0xFF0A#16 = 0xF#4 ∧ fieldKK 0xFF0A#16 = 0x0A#8 := by decide

theorem witness_KeyWaitHoldsTheMachine :
    (at4094 0xF2#8 0x0A#8).halted = none ∧ (at4094 0xF2#8 0x0A#8).FetchesWord 0xF20A#16
      ∧ decode 0xF20A#16 = .ok (.ldVxK 2) ∧ (at4094 0xF2#8 0x0A#8).hookOf .kFx0A = none
      ∧ ∀ k : KeyIx, (at4094 0xF2#8 0x0A#8).key[k.val] = false := by
  unfold State.FetchesWord; decide

/-- An instruction that raises, and one that does not. -/
theorem witness_OnlyListedInstructionsHalt :
    State.reset.halted = none ∧ exec .ret State.reset = .next (State.reset.raise .stackUnderflow)
      ∧ (State.reset.raise .stackUnderflow).halted = some .stackUnderflow ∧ Raises State.reset .stackUnderflow .ret
      ∧ exec (.sys 0x100#12) State.reset = .next State.reset :=
  ⟨rfl, rfl, rfl, ⟨rfl, rfl⟩, rfl⟩

/-- A word that decodes (0000, an alias of 00E0), one on whose key there is no hook while another key has one, and one that does
not decode. -/
theorem witness_ProgramCounterAfterEveryStep :
    (State.reset.halted = none ∧ State.reset.FetchesWord 0x0000#16 ∧ (∀ i, decode 0x0000#16 = .ok i → State.reset.hookOf i.key = none)
      ∧ step State.reset = .next (after State.reset) ∧ (after State.reset).halted = none ∧ decode 0x0000#16 = .ok .cls)
    ∧ (hooked (.replace 7)).hookOf .k6xkk = some (.replace 7) ∧ (hooked (.replace 7)).hookOf .k00E0 = none
    ∧ (at4094 0x81#8 0x28#8).FetchesWord 0x8128#16 ∧ decode 0x8128#16 = .error (.unknownOpcode 0x8128#16) :=
  ⟨⟨rfl, by unfold State.FetchesWord; decide, fun i _ => reset_noHooks i.key, rfl, by decide, by decide⟩, by decide, by decide,
    by unfold State.FetchesWord; decide, by decide⟩

/-- An instruction that is neither, one that names F, and a flag writer with its exceptions. -/
theorem witness_FlagChangesOnlyWhereListed :
    State.reset.halted = none ∧ exec (.sys 0x100#12) State.reset = .next State.reset
      ∧ ¬ IsFlagWriter (.sys 0x100#12) ∧ ¬ NamesVF (.sys 0x100#12) ∧ NamesVF (.ldImm vf 1#8) ∧ IsFlagWriter (.shr 0 0)
      ∧ (∃ t, exec (.shr 0 0) State.reset = .next t ∧ t.halted = none) ∧ ∀ y, Instr.shr 0 0 ≠ .shr vf y :=
  ⟨rfl, rfl, not_false, not_false, rfl, trivial, ⟨_, rfl, rfl⟩, fun y => by simp [vf]⟩

theorem witness_MemoryChangesOnlyByStores :
    State.reset.StepInv ∧ (∃ t, exec (.ldB 0) State.reset = .next t) ∧ (∃ t, exec (.storeRegs 15) State.reset = .next t)
      ∧ exec (.sys 0x100#12) State.reset = .next State.reset ∧ ∀ x, Instr.sys 0x100#12 ≠ .ldB x :=
  ⟨reset_stepInv, ⟨_, rfl⟩, ⟨_, rfl⟩, rfl, fun x => by simp⟩

theorem witness_StepLeavesSchedulerAlone :
    State.reset.NoHooks ∧ step State.reset = .next (after State.reset) := ⟨reset_noHooks, rfl⟩

theorem witness_IndexStackAndDisplayChangeOnlyWhereListed :
    exec (.sys 0x100#12) State.reset = .next State.reset ∧ (∀ nnn, Instr.sys 0x100#12 ≠ .ldI nnn) ∧ Instr.sys 0x100#12 ≠ .cls :=
  ⟨rfl, fun nnn => by simp, by simp⟩

/-- A configuration other than the default: 8 columns, 1 row, a one-byte font at the last place R6 admits. -/
theorem witness_ResetStateMeetsInvariant :
    construct ⟨8, 1, 0x1F0, 1, List.replicate 16 0#8⟩ 1 60 true
      = .ok (State.initial ⟨8, 1, 0x1F0, 1, List.replicate 16 0#8⟩ 1 60 true) := by rfl

theorem witness_StepKeepsInvariant : State.reset.StepInv ∧ step State.reset = .next (after State.reset) := ⟨reset_stepInv, rfl⟩

theorem witness_TransactionsKeepInvariant :
    State.reset.Inv ∧ transact .reset State.reset = .next (State.reset, .done) ∧ transactAll [.reset] State.reset = .next State.reset :=
  ⟨reset_inv, rfl, rfl⟩

theorem witness_HaltLatchHoldsUntilReset :
    (State.reset.raise .stackOverflow).halted = some .stackOverflow ∧ Transaction.step ≠ .reset := ⟨rfl, by decide⟩

/-- The last pixel; addresses 79, 80 and 4095: the last font byte, the first byte after it, the last byte of memory. -/
theorem witness_ResetState : (31 < 32 ∧ 63 < 64) ∧ 79 < 80 ∧ (80 ≤ 80 ∧ 80 < 4096) ∧ 80 ≤ 4095 ∧ 4095 < 4096 := by decide

theorem witness_CycleRunsExactlyIpcSteps :
    State.reset.Inv ∧ State.reset.halted = none
      ∧ ∃ u, runSteps State.reset.ipc State.reset.injectKey = .next u ∧ u.halted = none :=
  ⟨reset_inv, rfl, ⟨_, rfl, rfl⟩⟩

/-- 00EE with no call outstanding, in the first step of a batch. -/
theorem witness_CycleCutShortByFatalCondition :
    (at4094 0x00#8 0xEE#8).halted = none
      ∧ ∃ u, runSteps (at4094 0x00#8 0xEE#8).ipc (at4094 0x00#8 0xEE#8).injectKey = .next u ∧ u.halted = some .stackUnderflow :=
  ⟨rfl, ⟨_, rfl, rfl⟩⟩

/-- One step per cycle: 600A, which is neither Fx15 nor Fx18. -/
abbrev oneStep : State := { at4094 0x60#8 0x0A#8 with ipc := 1, keyq := [3], dt := 1#8 }

theorem witness_TimersDecrementOncePerCycle :
    oneStep.NoHooks ∧ (∃ t f, cycle [] oneStep = .next (t, .frame f))
      ∧ ∀ (n : Nat) (u : State) (c : Word) (x : RegIx),
          n < oneStep.ipc → runSteps n oneStep.injectKey = .next u → u.FetchesWord c →
            decode c ≠ .ok (.ldDTVx x) ∧ decode c ≠ .ok (.ldSTVx x) := by
  refine ⟨reset_noHooks, ⟨_, _, rfl⟩, fun n u c x hn hu hf => ?_⟩
  obtain rfl : n = 0 := by
    have : oneStep.ipc = 1 := rfl
    omega
  cases hu
  have hc : c = 0x600A#16 := BitVec.eq_of_toNat_eq (hf.2.trans (by decide))
  subst hc
  have hd : decode 0x600A#16 = .ok (.ldImm 0 0x0A#8) := by decide
  rw [hd]
  exact ⟨by simp, by simp⟩

theorem witness_QueuedKeyLastsOneCycle :
    oneStep.Inv ∧ oneStep.halted = none ∧ oneStep.NoHooks ∧ (∃ t f, cycle [] oneStep = .next (t, .frame f))
      ∧ oneStep.keyq = [3] ∧ State.reset.keyq = [] ∧ (∃ t f, cycle [] State.reset = .next (t, .frame f)) := by
  refine ⟨⟨⟨by decide, by decide, by decide, Grid.wf_blank⟩, fun _ => rfl⟩, rfl, reset_noHooks, ⟨_, _, rfl⟩, rfl, rfl, ⟨_, _, rfl⟩⟩

theorem witness_FrameReportsTheCycle : ∃ t f, cycle [("score", .memBcd 0x300)] State.reset = .next (t, .frame f) := ⟨_, _, rfl⟩

theorem witness_LoadRomPlacesTheImage :
    State.reset.StepInv ∧ (List.replicate 3584 0#8).length ≤ 3584 ∧ 3584 < (List.replicate 3585 0#8).length := by
  exact ⟨reset_stepInv, by rw [List.length_replicate], by rw [List.length_replicate]; decide⟩

/-- The index at both ends of each range; an action that names a key, one that names none, and one above N. -/
theorem witness_KeyAndQueryPorts :
    15 < 16 ∧ 16 ≤ 16 ∧ 4093 + 2 ≤ 4095 ∧ 4095 < 4094 + 2 ∧ [15, 16][0]? = some 15 ∧ [15, 16][1]? = some 16
      ∧ [15, 16].length ≤ 2 := by decide

theorem witness_HookPortSetsOneKey :
    (Transaction.hook Key.k8xy4.name 1, some (Hook.replace 1)) ∈
        [(Transaction.hook Key.k8xy4.name 1, some (Hook.replace 1)), (.unhook Key.k8xy4.name, none),
          (.preHook Key.k8xy4.name 1, some (.pre 1)), (.postHook Key.k8xy4.name 1, some (.post 1))]
      ∧ ∀ k : Key, k.name ≠ "8xy9" :=
  ⟨List.mem_cons_self, fun k => by cases k <;> decide⟩

theorem witness_SelfJumpParks :
    (booted 0x1200 id).halted = none ∧ (booted 0x1200 id).FetchesWord 0x1200#16 ∧ decode 0x1200#16 = .ok (.jp 0x200#12)
      ∧ (booted 0x1200 id).hookOf .k1nnn = none ∧ (booted 0x1200 id).pc.toNat = (0x200#12 : Imm12).toNat := by
  unfold State.FetchesWord; decide

end Sys2Proof.Tests
end

section
/-! PROOFS. The step on a fetched word (20_memory.md R64): the rules that lead from `State.FetchesWord` to `runWord` and
`runHandler`, and the statement of family 20_memory.md. -/

namespace Sys2Proof.Machine

variable {s : State} {c : Word}

/-- Both bytes of a fetched word lie in memory, so PC is at most 4094 (R131). -/
theorem State.FetchesWord.pc_le (hf : s.FetchesWord c) : s.pc.toNat ≤ 4094 := by
  obtain ⟨hbound, -⟩ := hf
  omega

/-- The number `mem[PC] * 256 + mem[PC+1]` of R64 determines the word: it is the concatenation that the model's fetch builds. -/
theorem State.FetchesWord.wordOfBytes_eq (hf : s.FetchesWord c) :
    wordOfBytes (s.byteAt s.pc.toNat) (s.byteAt (s.pc.toNat + 1)) = c := by
  obtain ⟨-, hword⟩ := hf
  exact BitVec.eq_of_toNat_eq ((wordOfBytes_toNat _ _).trans hword.symm)

/-- A step decodes and dispatches the word at PC, with PC moved past it (R131, R134). -/
theorem step_fetchesWord (hh : s.halted = none) (hf : s.FetchesWord c) : step s = runWord c (s.setPC (s.pc + 2#16)) := by
  rw [step_fetched hh hf.pc_le, hf.wordOfBytes_eq]

/-- A word that decodes goes to the handler of its instruction (R133). -/
theorem runWord_decoded {i : Instr} (hd : decode c = .ok i) : runWord c s = runHandler i c s := by
  rw [runWord, hd]

/-- Settles O7: the word fetched is the word of R64, and without a hook on its key the handler is the base handler. -/
theorem stepRunsDecodedInstruction : Obligations.StepRunsDecodedInstruction := by
  intro s c i hh hf hd hhook
  have hbase : (s.setPC (s.pc + 2#16)).hookOf i.key = none := hhook
  calc step s
      _ = runWord c (s.setPC (s.pc + 2#16)) := step_fetchesWord hh hf
      _ = runHandler i c (s.setPC (s.pc + 2#16)) := runWord_decoded hd
      _ = exec i (s.setPC (s.pc + 2#16)) := runHandler_base c hbase

end Sys2Proof.Machine
end

section
/-! PROOFS. The no-operation and the two jumps (41_control_flow.md R151, R153, R159): their encodings, their targets, their base
handlers, and the statement O17 of that family. -/

namespace Sys2Proof

/-! ### Their encodings (30_encoding.md R96) -/

variable {c : Word}

theorem decode_sys (h1 : n1 c = 0x0#4) (h2 : n2 c ≠ 0x0#4) : decode c = .ok (.sys (fieldNNN c)) := by
  simp only [decode, h1, decode0, if_pos h2]

theorem decode_jp (h1 : n1 c = 0x1#4) : decode c = .ok (.jp (fieldNNN c)) := by
  simp only [decode, h1]

theorem decode_jpV0 (h1 : n1 c = 0xB#4) : decode c = .ok (.jpV0 (fieldNNN c)) := by
  simp only [decode, h1]

end Sys2Proof

namespace Sys2Proof.Machine

variable {s : State}

/-! ### Their targets -/

@[simp] theorem zext16_toNat (nnn : Imm12) : (zext16 nnn).toNat = nnn.toNat :=
  BitVec.toNat_setWidth_of_le (by decide)

/-- The sum of R159 is at most 0xFF + 0xFFF, so 16 bits hold it. -/
theorem setWidth_add_zext16_toNat (b : Byte) (nnn : Imm12) :
    (b.setWidth 16 + zext16 nnn).toNat = b.toNat + nnn.toNat := by
  have hb : (b.setWidth 16).toNat = b.toNat := BitVec.toNat_setWidth_of_le (by decide)
  have hsum : b.toNat + nnn.toNat < 2 ^ 16 := by omega
  rw [BitVec.toNat_add, hb, zext16_toNat, Nat.mod_eq_of_lt hsum]

/-! ### Their base handlers -/

theorem exec_sys (nnn : Imm12) : exec (.sys nnn) s = .next s := rfl

theorem exec_jp (nnn : Imm12) : exec (.jp nnn) s = .next (s.setPC (zext16 nnn)) := rfl

theorem exec_jpV0 (nnn : Imm12) : exec (.jpV0 nnn) s = .next (s.setPC ((s.reg 0).setWidth 16 + zext16 nnn)) := rfl

theorem onlyPC_setPC (w : Word) : OnlyPC s (s.setPC w) := ⟨rfl, s.byteAt_setPC w⟩

/-- Settles O17: both jumps are a `setPC`, whose target is the unreduced number of R153 and R159. -/
theorem noOpAndJumpResults : Obligations.NoOpAndJumpResults := by
  refine ⟨fun c => ⟨decode_sys, decode_jp, decode_jpV0⟩, fun s nnn => ⟨exec_sys nnn, ?jp, ?jpV0⟩⟩
  case jp => exact ⟨_, exec_jp nnn, zext16_toNat nnn, onlyPC_setPC _⟩
  case jpV0 => exact ⟨_, exec_jpV0 nnn, setWidth_add_zext16_toNat (s.reg 0) nnn, onlyPC_setPC _⟩

end Sys2Proof.Machine
end

section
/-! PROOFS. The loads, the immediate add and the bitwise operations (42_load_arith_logic.md R171 to R176): their encodings, their
base handlers, each one a register write, and the statement O12 of that family. -/

namespace Sys2Proof

/-! ### Their encodings (30_encoding.md R96) -/

variable {c : Word}

theorem decode_ldImm (h1 : n1 c = 0x6#4) : decode c = .ok (.ldImm (fieldX c) (fieldKK c)) := by
  simp only [decode, h1]

theorem decode_addImm (h1 : n1 c = 0x7#4) : decode c = .ok (.addImm (fieldX c) (fieldKK c)) := by
  simp only [decode, h1]

/-- With n1 = 8 the operation is chosen by n4 alone. -/
theorem decode_eq_decode8 (h1 : n1 c = 0x8#4) : decode c = decode8 c := by
  simp only [decode, h1]

theorem decode_ldReg (h1 : n1 c = 0x8#4) (h4 : n4 c = 0x0#4) : decode c = .ok (.ldReg (fieldX c) (fieldY c)) := by
  simp only [decode_eq_decode8 h1, decode8, h4]

theorem decode_orReg (h1 : n1 c = 0x8#4) (h4 : n4 c = 0x1#4) : decode c = .ok (.orReg (fieldX c) (fieldY c)) := by
  simp only [decode_eq_decode8 h1, decode8, h4]

theorem decode_andReg (h1 : n1 c = 0x8#4) (h4 : n4 c = 0x2#4) : decode c = .ok (.andReg (fieldX c) (fieldY c)) := by
  simp only [decode_eq_decode8 h1, decode8, h4]

theorem decode_xorReg (h1 : n1 c = 0x8#4) (h4 : n4 c = 0x3#4) : decode c = .ok (.xorReg (fieldX c) (fieldY c)) := by
  simp only [decode_eq_decode8 h1, decode8, h4]

end Sys2Proof

namespace Sys2Proof.Machine

variable {s : State} {x y : RegIx} {kk : Byte}

/-! ### Their base handlers -/

theorem exec_ldImm : exec (.ldImm x kk) s = .next (s.setReg x kk) := rfl

theorem exec_addImm : exec (.addImm x kk) s = .next (s.setReg x (s.reg x + kk)) := rfl

theorem exec_ldReg : exec (.ldReg x y) s = .next (s.setReg x (s.reg y)) := rfl

theorem exec_orReg : exec (.orReg x y) s = .next (s.setReg x (s.reg x ||| s.reg y)) := rfl

theorem exec_andReg : exec (.andReg x y) s = .next (s.setReg x (s.reg x &&& s.reg y)) := rfl

theorem exec_xorReg : exec (.xorReg x y) s = .next (s.setReg x (s.reg x ^^^ s.reg y)) := rfl

/-! ### A handler that is one register write -/

/-- Writing a register of `rs` changes only registers of `rs`. -/
theorem onlyRegs_setReg {rs : List RegIx} (hx : x ∈ rs) (b : Byte) : OnlyRegs rs s (s.setReg x b) :=
  ⟨rfl, fun _ hq => s.reg_setReg_other b (ne_of_mem_of_not_mem hx hq).symm, s.byteAt_setReg x b⟩

/-- A handler that writes `b` to `V[x]` leaves `b` there and changes nothing else, VF included unless x = F (R170f). -/
theorem exec_setReg_result {i : Instr} {b : Byte} (he : exec i s = .next (s.setReg x b)) :
    ∃ t, exec i s = .next t ∧ t.reg x = b ∧ OnlyRegs [x] s t :=
  ⟨_, he, s.reg_setReg_same x b, onlyRegs_setReg (List.mem_singleton_self x) b⟩

/-- 7xkk leaves the sum mod 256 of R172 in `V[x]`: the carry is lost. -/
theorem exec_addImm_result (s : State) (x : RegIx) (kk : Byte) :
    ∃ t, exec (.addImm x kk) s = .next t
      ∧ (t.reg x).toNat = ((s.reg x).toNat + kk.toNat) % 256 ∧ OnlyRegs [x] s t := by
  obtain ⟨t, he, hsum, hframe⟩ := exec_setReg_result (exec_addImm (s := s) (x := x) (kk := kk))
  exact ⟨t, he, by rw [hsum, BitVec.toNat_add], hframe⟩

/-- Settles O12: each of the six decodes from its nibbles and is one write to `V[x]`. -/
theorem loadAndLogicResults : Obligations.LoadAndLogicResults :=
  ⟨fun _ => ⟨decode_ldImm, decode_addImm, decode_ldReg, decode_orReg, decode_andReg, decode_xorReg⟩,
    fun s x _ kk =>
      ⟨exec_setReg_result exec_ldImm, exec_addImm_result s x kk, exec_setReg_result exec_ldReg,
        exec_setReg_result exec_orReg, exec_setReg_result exec_andReg, exec_setReg_result exec_xorReg⟩⟩

end Sys2Proof.Machine
end

section
/-! PROOFS. The three instructions that write I (43_index_memory.md R201 to R203): their encodings, the numbers they compute, their
base handlers, and the statement O22 of that family. -/

namespace Sys2Proof

/-! ### Their encodings (30_encoding.md R96) -/

variable {c : Word}

theorem decode_ldI (h1 : n1 c = 0xA#4) : decode c = .ok (.ldI (fieldNNN c)) := by
  simp only [decode, h1]

/-- With n1 = F the operation is chosen by the byte n3 n4 alone. -/
theorem decode_eq_decodeF (h1 : n1 c = 0xF#4) : decode c = decodeF c := by
  rw [decode, h1]
  rfl

theorem decode_addI (h1 : n1 c = 0xF#4) (hkk : fieldKK c = 0x1E#8) : decode c = .ok (.addI (fieldX c)) := by
  simp only [decode_eq_decodeF h1, decodeF, hkk]

theorem decode_ldF (h1 : n1 c = 0xF#4) (hkk : fieldKK c = 0x29#8) : decode c = .ok (.ldF (fieldX c)) := by
  simp only [decode_eq_decodeF h1, decodeF, hkk]

end Sys2Proof

namespace Sys2Proof.Machine

/-! ### The numbers they compute -/

/-- The byte of a decided flag, as a choice between 1 and 0 (R22). -/
theorem flagByte_decide (p : Prop) [Decidable p] : flagByte (decide p) = if p then 1#8 else 0#8 := by
  simp only [flagByte, decide_eq_true_eq]

/-- The flag of R202 compares the unwrapped sum with 65535. -/
theorem indexOverflow_eq (i : Word) (a : Byte) :
    indexOverflow i a = if 65535 < i.toNat + a.toNat then 1#8 else 0#8 :=
  flagByte_decide _

/-- The sum of R202 wraps at 16 bits; the byte is added whole. -/
theorem add_setWidth_toNat (i : Word) (a : Byte) : (i + a.setWidth 16).toNat = (i.toNat + a.toNat) % 65536 := by
  have ha : (a.setWidth 16).toNat = a.toNat := BitVec.toNat_setWidth_of_le (by decide)
  rw [BitVec.toNat_add, ha]

theorem fontAddress_toNat (cfg : Config) (a : Byte) :
    (fontAddress cfg a).toNat = (cfg.fontOffset + a.toNat * cfg.glyphSize) % 65536 :=
  BitVec.toNat_ofNat _ 16

/-! ### Their base handlers -/

variable {s : State} {x : RegIx} {nnn : Imm12}

theorem exec_ldI : exec (.ldI nnn) s = .next (s.setI (zext16 nnn)) := rfl

theorem exec_addI :
    exec (.addI x) s = .next ((s.setI (s.i + (s.reg x).setWidth 16)).setReg vf (indexOverflow s.i (s.reg x))) := rfl

theorem exec_ldF : exec (.ldF x) s = .next (s.setI (fontAddress s.cfg (s.reg x))) := rfl

/-- A handler that writes `w` to I leaves the number `w` there and changes nothing else. -/
theorem exec_setI_result {i : Instr} {w : Word} {n : Nat} (he : exec i s = .next (s.setI w)) (hw : w.toNat = n) :
    ∃ t, exec i s = .next t ∧ t.i.toNat = n ∧ t = { s with i := t.i } ∧ SameMemory s t :=
  ⟨_, he, hw, rfl, s.byteAt_setI w⟩

/-- Fx1E writes I and then VF, both from the operands as read, so for x = F the sum takes the old VF and the flag replaces it. -/
theorem exec_addI_result (s : State) (x : RegIx) :
    ∃ t, exec (.addI x) s = .next t
      ∧ t.i.toNat = (s.i.toNat + (s.reg x).toNat) % 65536
      ∧ t.reg vf = (if 65535 < s.i.toNat + (s.reg x).toNat then 1#8 else 0#8)
      ∧ (∀ q : RegIx, q ≠ vf → t.reg q = s.reg q)
      ∧ t = { s with v := t.v, i := t.i } ∧ SameMemory s t := by
  refine ⟨_, exec_addI, add_setWidth_toNat s.i (s.reg x), ?flag, ?registers, rfl, ?memory⟩
  case flag => rw [State.reg_setReg_same, indexOverflow_eq]
  case registers => exact fun q hq => State.reg_setReg_other _ _ hq
  case memory => exact State.byteAt_setReg _ vf _

/-- Settles O22: Annn and Fx29 are one write to I, Fx1E is a write to I and one to VF. -/
theorem indexRegisterResults : Obligations.IndexRegisterResults :=
  ⟨fun _ => ⟨decode_ldI, decode_addI, decode_ldF⟩,
    fun s x nnn =>
      ⟨exec_setI_result exec_ldI (zext16_toNat nnn), exec_addI_result s x,
        exec_setI_result exec_ldF (fontAddress_toNat s.cfg (s.reg x))⟩⟩

end Sys2Proof.Machine
end

section
/-! PROOFS. The two display instructions (44_display.md R222, R226 to R228): their base handlers, the pixels a sprite can reach,
and the statements O32 and O30 of that family. -/

namespace Sys2Proof.Machine

variable {s : State} {x y : RegIx} {l : List Byte}

/-! ### Where a sprite's bits fall (R221) -/

/-- A set sprite bit falls in the unwrapped rectangle of 8 columns and one row per byte that starts at `(a, b)`. -/
theorem inside_of_spriteBit {a b r c : Nat} (h : spriteBit l a b r c = true) :
    a ≤ c ∧ c < a + 8 ∧ b ≤ r ∧ r < b + l.length := by
  simp only [spriteBit, Bool.and_eq_true, decide_eq_true_eq] at h
  obtain ⟨⟨hrow, hrow', hcol, hcol'⟩, -⟩ := h
  exact ⟨hcol, hcol', hrow, hrow'⟩

/-- A pixel that `DrawSprite` changes has a set sprite bit on it (R223). -/
theorem spriteBit_of_blitSprite_get_ne {rows cols a b r c : Nat} {g : Grid} (hg : Grid.wf rows cols g = true)
    (hne : (blitSprite rows cols a b l g).pix.get r c ≠ g.get r c) : spriteBit l a b r c = true := by
  by_contra hbit
  apply hne
  rw [(blitSprite_step l hg).get, Bool.eq_false_of_not_eq_true hbit, Bool.and_false, Bool.xor_false]

/-! ### The state after a sprite is drawn (R228) -/

theorem State.drawAt_pix :
    (s.drawAt x y l).pix = (blitSprite s.cfg.rows s.cfg.cols (s.reg x).toNat (s.reg y).toNat l s.pix).pix := rfl

theorem State.drawAt_vf :
    (s.drawAt x y l).reg vf
      = flagByte (blitSprite s.cfg.rows s.cfg.cols (s.reg x).toNat (s.reg y).toNat l s.pix).collision :=
  State.reg_setReg_same _ vf _

/-- A pixel that changes lies in the unwrapped rectangle at `(V[x], V[y])`, the registers as read before VF is written. -/
theorem State.drawAt_changes_inside {r c : Nat} (hs : s.StepInv) (hne : (s.drawAt x y l).pix.get r c ≠ s.pix.get r c) :
    (s.reg x).toNat ≤ c ∧ c < (s.reg x).toNat + 8 ∧ (s.reg y).toNat ≤ r ∧ r < (s.reg y).toNat + l.length := by
  rw [State.drawAt_pix] at hne
  exact inside_of_spriteBit (spriteBit_of_blitSprite_get_ne hs.pix_wf hne)

/-- A start at or past an edge changes no pixel and reports no collision. -/
theorem State.drawAt_off_grid (h : s.cfg.cols ≤ (s.reg x).toNat ∨ s.cfg.rows ≤ (s.reg y).toNat) :
    (s.drawAt x y l).pix = s.pix ∧ (s.drawAt x y l).reg vf = 0#8 := by
  rw [State.drawAt_pix, State.drawAt_vf, blitSprite_off_grid l s.pix h]
  exact ⟨rfl, rfl⟩

/-- Settles O32: in bounds, Dxyn is `drawAt` with the `n` bytes at I, whose sprite bits fall in the unwrapped rectangle. -/
theorem drawNeverWraps : Obligations.DrawNeverWraps := by
  intro s t x y n hs hbound hexec
  rw [exec_drw_inside x y n hbound] at hexec
  cases hexec
  refine ⟨fun r c _ _ hne => ?rectangle, State.drawAt_off_grid⟩
  case rectangle => simpa only [Memory.readRun_length] using State.drawAt_changes_inside hs hne

/-! ### Clearing the display (R222, R227) -/

theorem exec_cls : exec .cls s = .next s.clearDisplay := rfl

/-- Settles O30: 00E0 is `clearDisplay`, whose flag is read from the pixels before they are cleared. -/
theorem clearDisplayResult : Obligations.ClearDisplayResult := by
  intro s hs
  refine ⟨_, exec_cls, ?pixels, ?flag, Grid.wf_blank, rfl, s.byteAt_clearDisplay⟩
  case pixels => exact fun r c _ _ => Grid.get_blank r c
  case flag => exact Grid.anySet_iff hs.pix_wf

end Sys2Proof.Machine
end

section
/-! PROOFS. The three timer instructions (45_keyboard_timers.md R243, R245, R246): their encodings, their base handlers, the
buzzer flag of `SetST`, and the statement O35 of that family. -/

namespace Sys2Proof

/-! ### Their encodings (30_encoding.md R96) -/

variable {c : Word}

theorem decode_ldVxDT (h1 : n1 c = 0xF#4) (hkk : fieldKK c = 0x07#8) : decode c = .ok (.ldVxDT (fieldX c)) := by
  simp only [decode_eq_decodeF h1, decodeF, hkk]

theorem decode_ldDTVx (h1 : n1 c = 0xF#4) (hkk : fieldKK c = 0x15#8) : decode c = .ok (.ldDTVx (fieldX c)) := by
  simp only [decode_eq_decodeF h1, decodeF, hkk]

theorem decode_ldSTVx (h1 : n1 c = 0xF#4) (hkk : fieldKK c = 0x18#8) : decode c = .ok (.ldSTVx (fieldX c)) := by
  simp only [decode_eq_decodeF h1, decodeF, hkk]

end Sys2Proof

namespace Sys2Proof.Machine

variable {s : State} {x : RegIx}

/-! ### Their base handlers -/

theorem exec_ldVxDT : exec (.ldVxDT x) s = .next (s.setReg x s.dt) := rfl

theorem exec_ldDTVx : exec (.ldDTVx x) s = .next (s.setDT (s.reg x)) := rfl

theorem exec_ldSTVx : exec (.ldSTVx x) s = .next (s.setST (s.reg x)) := rfl

/-! ### The buzzer flag (R30) -/

/-- `SetST` sets buzzer_changed when exactly one of the old and the new ST is zero, and never clears it. -/
theorem State.setST_buzzerChanged_iff (s : State) (b : Byte) :
    (s.setST b).buzzerChanged = true ↔ s.buzzerChanged = true ∨ ¬ (s.st = 0#8 ↔ b = 0#8) := by
  rw [State.setST_buzzerChanged, Bool.or_eq_true, bne_iff_ne, ne_eq, decide_eq_decide]

/-! ### Their results -/

theorem exec_ldDTVx_result (s : State) (x : RegIx) :
    ∃ t, exec (.ldDTVx x) s = .next t ∧ t.dt = s.reg x ∧ t = { s with dt := t.dt } ∧ SameMemory s t :=
  ⟨_, exec_ldDTVx, s.setDT_dt (s.reg x), rfl, s.byteAt_setDT (s.reg x)⟩

theorem exec_ldSTVx_result (s : State) (x : RegIx) :
    ∃ t, exec (.ldSTVx x) s = .next t ∧ t.st = s.reg x
      ∧ (t.buzzerChanged = true ↔ s.buzzerChanged = true ∨ ¬ (s.st = 0#8 ↔ s.reg x = 0#8))
      ∧ t = { s with st := t.st, buzzerChanged := t.buzzerChanged } ∧ SameMemory s t :=
  ⟨_, exec_ldSTVx, s.setST_st (s.reg x), s.setST_buzzerChanged_iff (s.reg x), rfl, s.byteAt_setST (s.reg x)⟩

/-- Settles O35: Fx07 is one register write, Fx15 one write to DT, and Fx18 one `SetST`, which alone touches the buzzer flag. -/
theorem timerRegisterResults : Obligations.TimerRegisterResults :=
  ⟨fun _ => ⟨decode_ldVxDT, decode_ldDTVx, decode_ldSTVx⟩,
    fun s x => ⟨exec_setReg_result exec_ldVxDT, exec_ldDTVx_result s x, exec_ldSTVx_result s x⟩⟩

end Sys2Proof.Machine
end

section
/-! PROOFS. The timers in a cycle (48_scheduler_cycle.md R261 to R268): the key injection and the end of the cycle say what they do
to DT and ST, a completed cycle is opened into its parts, only Fx15 and Fx18 write a timer, and the statement O53 of that family. -/

namespace Sys2Proof.Machine

variable {s t u : State}

/-! ### The timers at the two ends of a cycle -/

@[simp] theorem State.injectKey_dt (s : State) : s.injectKey.dt = s.dt := by unfold State.injectKey; split <;> rfl

@[simp] theorem State.injectKey_st (s : State) : s.injectKey.st = s.st := by unfold State.injectKey; split <;> rfl

@[simp] theorem State.injectKey_hooks (s : State) : s.injectKey.hooks = s.hooks := by unfold State.injectKey; split <;> rfl

@[simp] theorem State.releaseKey_dt (s : State) : s.releaseKey.dt = s.dt := by unfold State.releaseKey; split <;> rfl

@[simp] theorem State.releaseKey_st (s : State) : s.releaseKey.st = s.st := by unfold State.releaseKey; split <;> rfl

/-- The decrement of R264 is the truncated one of the naturals. -/
theorem timerTick_toNat (b : Byte) : (timerTick b).toNat = b.toNat - 1 := by
  unfold timerTick
  split
  case isTrue hzero => rw [hzero]; rfl
  case isFalse hpos => bv_omega

theorem State.endCycle_dt (s : State) (p : Profile) : (s.endCycle p).1.dt = timerTick s.dt := s.tickTimers.releaseKey_dt

theorem State.endCycle_st (s : State) (p : Profile) : (s.endCycle p).1.st = timerTick s.st := s.tickTimers.releaseKey_st

/-! ### A completed cycle -/

/-- A cycle that returns a Frame ran all IPC steps from the injected state, and they left the core running (R263, R274). -/
theorem cycle_frame {p : Profile} {f : Frame} (h : cycle p s = .next (t, .frame f)) :
    s.halted = none ∧ ∃ u, runSteps s.ipc s.injectKey = .next u ∧ u.halted = none ∧ u.endCycle p = (t, f) := by
  obtain ⟨u, hrun⟩ := runSteps_next s.ipc s.injectKey
  rw [cycle, runBatch_of_runSteps _ hrun] at h
  cases hs : s.halted with
  | some c => simp [hs] at h
  | none =>
    cases hu : u.halted with
    | some c => simp [hs, hu] at h
    | none =>
      simp only [hs, hu] at h
      cases h
      exact ⟨rfl, u, hrun, hu, rfl⟩

/-! ### What a step without hooks can do -/

/-- Whether a hook is installed is a fact about the hook table alone. -/
theorem State.NoHooks.of_hooks_eq (hno : s.NoHooks) (h : t.hooks = s.hooks) : t.NoHooks := fun k => by
  rw [State.hookOf, h]
  exact hno k

/-- Inside memory the word at PC is the one that the model's fetch builds (R64). -/
theorem State.fetchesWord_wordOfBytes (h : s.pc.toNat ≤ 4094) :
    s.FetchesWord (wordOfBytes (s.byteAt s.pc.toNat) (s.byteAt (s.pc.toNat + 1))) :=
  ⟨by omega, wordOfBytes_toNat _ _⟩

/-- With no hook installed a step does nothing, raises, logs an unknown word, or runs the base handler of the word at PC. -/
theorem step_noHooks_cases (hno : s.NoHooks) (h : step s = .next t) :
    t = s ∨ (∃ c, t = s.raise c) ∨ (∃ c, t = (s.setPC (s.pc + 2#16)).reportUnknown c)
      ∨ ∃ c i, s.FetchesWord c ∧ decode c = .ok i ∧ exec i (s.setPC (s.pc + 2#16)) = .next t := by
  by_cases hh : s.halted = none
  · by_cases hpc : s.pc.toNat ≤ 4094
    · have hf := s.fetchesWord_wordOfBytes hpc
      rw [step_fetchesWord hh hf] at h
      generalize wordOfBytes (s.byteAt s.pc.toNat) (s.byteAt (s.pc.toNat + 1)) = c at hf h
      cases hd : decode c with
      | error e =>
        rw [runWord, hd] at h
        cases h
        exact .inr (.inr (.inl ⟨c, rfl⟩))
      | ok i =>
        have hbase : (s.setPC (s.pc + 2#16)).hookOf i.key = none := hno i.key
        rw [runWord_decoded hd, runHandler_base c hbase] at h
        exact .inr (.inr (.inr ⟨c, i, hf, hd, h⟩))
    · rw [step_fetchError hh hpc] at h
      cases h
      exact .inr (.inl ⟨_, rfl⟩)
  · rw [step_halted hh] at h
    cases h
    exact .inl rfl

theorem exec_hooks {i : Instr} (h : exec i s = .next t) : t.hooks = s.hooks := by
  obtain ⟨t', he, hsame⟩ := exec_next i s
  cases he.symm.trans h
  exact hsame.hooks

/-- Only the hook ports install hooks (R41), so a step keeps their absence. -/
theorem step_noHooks (hno : s.NoHooks) (h : step s = .next t) : t.NoHooks := by
  rcases step_noHooks_cases hno h with rfl | ⟨c, rfl⟩ | ⟨c, rfl⟩ | ⟨c, i, -, -, he⟩
  · exact hno
  · exact hno
  · exact hno
  · exact hno.of_hooks_eq ((exec_hooks he).trans (s.setPC_hooks _))

/-! ### What leaves both timers alone -/

/-- DT and ST are as before. -/
structure SameTimers (s t : State) : Prop where
  dt : t.dt = s.dt
  st : t.st = s.st

theorem SameTimers.refl (s : State) : SameTimers s s := ⟨rfl, rfl⟩

theorem SameTimers.trans (h : SameTimers s t) (h' : SameTimers t u) : SameTimers s u :=
  ⟨h'.dt.trans h.dt, h'.st.trans h.st⟩

theorem SameTimers.skipIf {b : Bool} : SameTimers s (s.skipIf b) := by cases b <;> exact ⟨rfl, rfl⟩

theorem SameTimers.setRegs {rs : List RegIx} {l : List Byte} : SameTimers s (s.setRegs rs l) := by
  rw [State.setRegs_eq]
  exact ⟨rfl, rfl⟩

theorem SameTimers.random_setReg {r : RegIx} {b : Byte} : SameTimers s (s.random.2.setReg r b) := by
  rw [State.random_state]
  exact ⟨rfl, rfl⟩

theorem SameTimers.memWrite {a : Nat} {l : List Byte} (h : s.memWrite a l = .ok t) : SameTimers s t := by
  unfold State.memWrite at h
  split at h <;> cases h
  exact ⟨rfl, rfl⟩

/-- A settled operation leaves the timers alone if its success does: a condition taken changes only the latch. -/
theorem SameTimers.of_settle {r : Except Condition State} (h : settle s r = .next t)
    (hr : ∀ a, r = .ok a → SameTimers s a) : SameTimers s t := by
  cases r with
  | ok a => cases h; exact hr _ rfl
  | error c => cases h; exact ⟨rfl, rfl⟩

/-- The same for an operation that reads and then cannot fail. -/
theorem SameTimers.of_settle_map {α : Type} {r : Except Condition α} {g : α → State} (h : settle s (r.map g) = .next t)
    (hg : ∀ a, SameTimers s (g a)) : SameTimers s t :=
  .of_settle h fun b hb => by
    obtain ⟨a, -, rfl⟩ := except_map_ok hb
    exact hg a

/-- An instruction that writes a timer: Fx15 or Fx18 (R245, R246). -/
def WritesTimer (i : Instr) : Prop := ∃ x, i = .ldDTVx x ∨ i = .ldSTVx x

/-- Every base handler but those of Fx15 and Fx18 leaves both timers as they were (R138). -/
theorem exec_sameTimers {i : Instr} (h : exec i s = .next t) (hi : ¬ WritesTimer i) : SameTimers s t := by
  cases i with
  | ret =>
    refine .of_settle h fun a ha => ?_
    unfold State.popPC at ha
    split at ha <;> cases ha
    exact ⟨rfl, rfl⟩
  | call nnn =>
    refine .of_settle h fun a ha => ?_
    obtain ⟨u, hu, rfl⟩ := except_map_ok ha
    unfold State.push at hu
    split at hu <;> cases hu
    exact ⟨rfl, rfl⟩
  | seImm x kk | sneImm x kk | seReg x y | sneReg x y => cases h; exact .skipIf
  | rnd x kk => cases h; exact .random_setReg
  | drw x y n => exact .of_settle_map h fun _ => ⟨rfl, rfl⟩
  | skp x | sknp x => exact .of_settle_map h fun _ => .skipIf
  | ldVxK x =>
    cases hk : s.lowestKey with
    | some k => cases (exec_ldVxK_pressed x hk).symm.trans h; exact ⟨rfl, rfl⟩
    | none => cases (exec_ldVxK_waiting x hk).symm.trans h; exact ⟨rfl, rfl⟩
  | ldB x | storeRegs x => exact .of_settle h fun _ => .memWrite
  | loadRegs x => exact .of_settle_map h fun _ => .setRegs
  | ldDTVx x => exact absurd ⟨x, .inl rfl⟩ hi
  | ldSTVx x => exact absurd ⟨x, .inr rfl⟩ hi
  | cls | sys nnn | jp nnn | ldImm x kk | addImm x kk | ldReg x y | orReg x y | andReg x y | xorReg x y | addReg x y
  | subReg x y | shr x y | subn x y | shl x y | ldI nnn | jpV0 nnn | ldVxDT x | addI x | ldF x => cases h; exact ⟨rfl, rfl⟩

/-! ### Steps and runs that fetch no Fx15 and no Fx18 -/

/-- The word at PC, if there is one, is neither Fx15 nor Fx18. -/
def State.FetchesNoTimerWrite (s : State) : Prop :=
  ∀ (c : Word) (x : RegIx), s.FetchesWord c → decode c ≠ .ok (.ldDTVx x) ∧ decode c ≠ .ok (.ldSTVx x)

theorem State.FetchesNoTimerWrite.not_writesTimer {c : Word} {i : Instr} (hq : s.FetchesNoTimerWrite)
    (hf : s.FetchesWord c) (hd : decode c = .ok i) : ¬ WritesTimer i := by
  rintro ⟨x, rfl | rfl⟩
  · exact (hq c x hf).1 hd
  · exact (hq c x hf).2 hd

theorem step_sameTimers (hno : s.NoHooks) (hq : s.FetchesNoTimerWrite) (h : step s = .next t) : SameTimers s t := by
  rcases step_noHooks_cases hno h with rfl | ⟨c, rfl⟩ | ⟨c, rfl⟩ | ⟨c, i, hf, hd, he⟩
  · exact .refl _
  · exact ⟨rfl, rfl⟩
  · exact ⟨rfl, rfl⟩
  · have hpc : SameTimers s (s.setPC (s.pc + 2#16)) := ⟨rfl, rfl⟩
    exact hpc.trans (exec_sameTimers he (hq.not_writesTimer hf hd))

theorem runSteps_succ {n : Nat} (h : step s = .next t) : runSteps (n + 1) s = runSteps n t := by rw [runSteps, h]

/-- Induction over the steps of a run, none of which fetches Fx15 or Fx18. -/
theorem runSteps_sameTimers (n : Nat) (hno : s.NoHooks)
    (hq : ∀ (k : Nat) (v : State), k < n → runSteps k s = .next v → v.FetchesNoTimerWrite)
    (h : runSteps n s = .next u) : SameTimers s u := by
  induction n generalizing s with
  | zero => cases h; exact .refl _
  | succ n ih =>
    obtain ⟨v, hv⟩ := step_next s
    have hfirst : SameTimers s v := step_sameTimers hno (hq 0 s n.succ_pos rfl) hv
    refine hfirst.trans (ih (step_noHooks hno hv) (fun k w hk hw => ?_) ((runSteps_succ hv).symm.trans h))
    exact hq (k + 1) w (Nat.succ_lt_succ hk) ((runSteps_succ hv).trans hw)

/-- Settles O53: a completed cycle ticks the timers of the state its batch leaves, and a batch without Fx15 and Fx18 leaves those
of the injected state, which are the ones before the cycle. -/
theorem timersDecrementOncePerCycle : Obligations.TimersDecrementOncePerCycle := by
  intro s t p f hcycle
  obtain ⟨-, u, hrun, -, hend⟩ := cycle_frame hcycle
  have hdt : t.dt.toNat = u.dt.toNat - 1 := by rw [← timerTick_toNat, ← u.endCycle_dt p, hend]
  have hst : t.st.toNat = u.st.toNat - 1 := by rw [← timerTick_toNat, ← u.endCycle_st p, hend]
  refine ⟨s.injectKey_dt, s.injectKey_st, ⟨u, hrun, hdt, hst⟩, fun hno hquiet => ?unwritten⟩
  case unwritten =>
    have hsame : SameTimers s.injectKey u :=
      runSteps_sameTimers s.ipc (hno.of_hooks_eq s.injectKey_hooks) (fun k v hk hv c x => hquiet k v c x hk hv) hrun
    rw [hdt, hst, hsame.dt, hsame.st, s.injectKey_dt, s.injectKey_st]
    exact ⟨rfl, rfl⟩

end Sys2Proof.Machine
end

section
/-! PROOFS. The recoverable condition (60_exceptions.md R301): the dispatch of a word that no key matches, and the statement O8 of
that family. -/

namespace Sys2Proof.Machine

/-- A word that does not decode reaches no handler and no hook: it is reported from the state that the fetch left (R135). -/
theorem runWord_undecoded {s : State} {c : Word} {e : DecodeError} (hd : decode c = .error e) :
    runWord c s = .next (s.reportUnknown c) := by
  rw [runWord, hd]

/-- Settles O8: the fetch has moved PC past the word before the dispatch, and the report only appends the word to the log. -/
theorem unknownWordIsLoggedAndSkipped : Obligations.UnknownWordIsLoggedAndSkipped := by
  intro s c e hh hf hd
  calc step s
    _ = runWord c (s.setPC (s.pc + 2#16)) := step_fetchesWord hh hf
    _ = .next ((s.setPC (s.pc + 2#16)).reportUnknown c) := runWord_undecoded hd
    _ = .next { s with pc := s.pc + 2#16, ulog := s.ulog ++ [c] } := rfl

end Sys2Proof.Machine
end

section
/-! PROOFS. The decoder and the encoder (30_encoding.md R92 to R104): a word is put together from its fields, a row of the opcode
table is a condition on nibbles, the decoder answers the instruction of the row that accepts the word, and the statements O1 to O6
of that family. -/

namespace Sys2Proof

variable {c : Word}

/-! ### Encodings of single instructions (R96) -/

theorem decode_eq_decode0 (h1 : n1 c = 0x0#4) : decode c = decode0 c := by
  simp only [decode, h1]

theorem decode_cls (h1 : n1 c = 0x0#4) (h2 : n2 c = 0x0#4) (h4 : n4 c = 0x0#4) : decode c = .ok .cls := by
  simp [decode_eq_decode0 h1, decode0, h2, h4]

theorem decode_ret (h1 : n1 c = 0x0#4) (h2 : n2 c = 0x0#4) (h4 : n4 c = 0xE#4) : decode c = .ok .ret := by
  simp [decode_eq_decode0 h1, decode0, h2, h4]

theorem decode_call (h1 : n1 c = 0x2#4) : decode c = .ok (.call (fieldNNN c)) := by
  simp only [decode, h1]

theorem decode_seImm (h1 : n1 c = 0x3#4) : decode c = .ok (.seImm (fieldX c) (fieldKK c)) := by
  simp only [decode, h1]

theorem decode_sneImm (h1 : n1 c = 0x4#4) : decode c = .ok (.sneImm (fieldX c) (fieldKK c)) := by
  simp only [decode, h1]

theorem decode_seReg (h1 : n1 c = 0x5#4) : decode c = .ok (.seReg (fieldX c) (fieldY c)) := by
  simp only [decode, h1]

theorem decode_sneReg (h1 : n1 c = 0x9#4) : decode c = .ok (.sneReg (fieldX c) (fieldY c)) := by
  simp only [decode, h1]

theorem decode_rnd (h1 : n1 c = 0xC#4) : decode c = .ok (.rnd (fieldX c) (fieldKK c)) := by
  simp only [decode, h1]

theorem decode_drw (h1 : n1 c = 0xD#4) : decode c = .ok (.drw (fieldX c) (fieldY c) (fieldN c)) := by
  simp only [decode, h1]

theorem decode_addReg (h1 : n1 c = 0x8#4) (h4 : n4 c = 0x4#4) : decode c = .ok (.addReg (fieldX c) (fieldY c)) := by
  simp only [decode_eq_decode8 h1, decode8, h4]

theorem decode_subReg (h1 : n1 c = 0x8#4) (h4 : n4 c = 0x5#4) : decode c = .ok (.subReg (fieldX c) (fieldY c)) := by
  simp only [decode_eq_decode8 h1, decode8, h4]

theorem decode_shr (h1 : n1 c = 0x8#4) (h4 : n4 c = 0x6#4) : decode c = .ok (.shr (fieldX c) (fieldY c)) := by
  simp only [decode_eq_decode8 h1, decode8, h4]

theorem decode_subn (h1 : n1 c = 0x8#4) (h4 : n4 c = 0x7#4) : decode c = .ok (.subn (fieldX c) (fieldY c)) := by
  simp only [decode_eq_decode8 h1, decode8, h4]

theorem decode_shl (h1 : n1 c = 0x8#4) (h4 : n4 c = 0xE#4) : decode c = .ok (.shl (fieldX c) (fieldY c)) := by
  simp only [decode_eq_decode8 h1, decode8, h4]

/-- With n1 = E the operation is chosen by n4 alone. -/
theorem decode_eq_decodeE (h1 : n1 c = 0xE#4) : decode c = decodeE c := by
  simp only [decode, h1]

theorem decode_skp (h1 : n1 c = 0xE#4) (h4 : n4 c = 0xE#4) : decode c = .ok (.skp (fieldX c)) := by
  simp only [decode_eq_decodeE h1, decodeE, h4]

theorem decode_sknp (h1 : n1 c = 0xE#4) (h4 : n4 c = 0x1#4) : decode c = .ok (.sknp (fieldX c)) := by
  simp only [decode_eq_decodeE h1, decodeE, h4]

theorem decode_ldVxK (h1 : n1 c = 0xF#4) (hkk : fieldKK c = 0x0A#8) : decode c = .ok (.ldVxK (fieldX c)) := by
  simp only [decode_eq_decodeF h1, decodeF, hkk]

theorem decode_ldB (h1 : n1 c = 0xF#4) (hkk : fieldKK c = 0x33#8) : decode c = .ok (.ldB (fieldX c)) := by
  simp only [decode_eq_decodeF h1, decodeF, hkk]

theorem decode_storeRegs (h1 : n1 c = 0xF#4) (hkk : fieldKK c = 0x55#8) : decode c = .ok (.storeRegs (fieldX c)) := by
  simp only [decode_eq_decodeF h1, decodeF, hkk]

theorem decode_loadRegs (h1 : n1 c = 0xF#4) (hkk : fieldKK c = 0x65#8) : decode c = .ok (.loadRegs (fieldX c)) := by
  simp only [decode_eq_decodeF h1, decodeF, hkk]

/-! ### Decoding what the encoder wrote (R97) -/

/-- In format NNN with n1 = 0 well-formedness says that the x position is nonzero (R93). -/
theorem wf_sys_iff (nnn : Imm12) : (Instr.sys nnn).wf = true ↔ nnn.extractLsb' 8 4 ≠ 0x0#4 := by
  have hn : (nnn.extractLsb' 8 4).toNat = nnn.toNat / 256 := by
    have := nnn.isLt
    rw [BitVec.extractLsb'_toNat, Nat.shiftRight_eq_div_pow]
    omega
  rw [Instr.wf, decide_eq_true_eq, ne_eq, ← BitVec.toNat_inj, hn]
  change _ ↔ ¬ _ = 0
  omega

theorem decode_encode {i : Instr} (hwf : i.wf = true) : decode (encode i) = .ok i := by
  cases i with
  | cls | ret => rfl
  | sys nnn =>
    have h2 : n2 (encNNN 0x0#4 nnn) ≠ 0x0#4 := by rw [n2_encNNN]; exact (wf_sys_iff nnn).mp hwf
    rw [encode, decode_sys (n1_encNNN _ _) h2, fieldNNN_encNNN]
  | jp nnn | call nnn | ldI nnn | jpV0 nnn => simp [encode, decode_jp, decode_call, decode_ldI, decode_jpV0]
  | seImm x kk | sneImm x kk | ldImm x kk | addImm x kk | rnd x kk =>
    simp [encode, decode_seImm, decode_sneImm, decode_ldImm, decode_addImm, decode_rnd]
  | seReg x y | sneReg x y => simp [encode, decode_seReg, decode_sneReg]
  | ldReg x y | orReg x y | andReg x y | xorReg x y =>
    simp [encode, decode_ldReg, decode_orReg, decode_andReg, decode_xorReg]
  | addReg x y | subReg x y | shr x y | subn x y | shl x y =>
    simp [encode, decode_addReg, decode_subReg, decode_shr, decode_subn, decode_shl]
  | drw x y n => simp [encode, decode_drw, nib]
  | skp x | sknp x => simp [encode, decode_skp, decode_sknp]
  | ldVxDT x | ldDTVx x | ldSTVx x | ldVxK x => simp [encode, decode_ldVxDT, decode_ldDTVx, decode_ldSTVx, decode_ldVxK]
  | addI x | ldF x | ldB x | storeRegs x | loadRegs x =>
    simp [encode, decode_addI, decode_ldF, decode_ldB, decode_storeRegs, decode_loadRegs]

/-- Settles O1: the fields of an encoded word are the operands, and the two bytes of a word are read back as the word. -/
theorem decodeOfEncodeIsIdentity : Obligations.DecodeOfEncodeIsIdentity := by
  intro i hwf
  refine ⟨decode_encode hwf, fun rest => ?bytes⟩
  case bytes => rw [encodeBytes, decodeBytes_bytesOfWord, decode_encode hwf]; rfl

/-! ### A word from its fields (R91, R92) -/

theorem encNNN_fields (c : Word) : encNNN (n1 c) (fieldNNN c) = c := append_extractLsb' (n := 4) (m := 12) c

theorem encXKK_fields (c : Word) : encXKK (n1 c) (fieldX c) (fieldKK c) = c := by
  have hx : n1 c ++ nib (fieldX c) = c.extractLsb' 8 8 :=
    BitVec.extractLsb'_append_extractLsb'_eq_extractLsb' (by decide)
  rw [encXKK, hx]
  exact append_extractLsb' (n := 8) (m := 8) c

theorem encXYN_fields (c : Word) : encXYN (n1 c) (fieldX c) (fieldY c) (n4 c) = c := by
  have hx : n1 c ++ nib (fieldX c) = c.extractLsb' 8 8 :=
    BitVec.extractLsb'_append_extractLsb'_eq_extractLsb' (by decide)
  have hy : c.extractLsb' 8 8 ++ nib (fieldY c) = c.extractLsb' 4 12 :=
    BitVec.extractLsb'_append_extractLsb'_eq_extractLsb' (by decide)
  rw [encXYN, hx, hy]
  exact append_extractLsb' (n := 12) (m := 4) c

/-! ### What the masks of the opcode table inspect (R104) -/

/-- A word masked by `m` has value `v` exactly when n1 has its nibble. -/
theorem masked_n1_iff {m v : Word} {a : BitVec 4} (hm : m = 0xF000#16) (hv : v = encNNN a 0#12) :
    c &&& m = v ↔ n1 c = a := by
  have hc : c &&& 0xF000#16 = encNNN (n1 c) 0#12 := by
    conv_lhs => rw [← encNNN_fields c]
    exact encNNN_and _ _
  rw [hm, hv, hc]
  exact ⟨fun h => by simpa using congrArg n1 h, fun h => by rw [h]⟩

theorem masked_n1_kk_iff {m v : Word} {a : BitVec 4} {kk : Byte} (hm : m = 0xF0FF#16) (hv : v = encXKK a 0 kk) :
    c &&& m = v ↔ n1 c = a ∧ fieldKK c = kk := by
  have hc : c &&& 0xF0FF#16 = encXKK (n1 c) 0 (fieldKK c) := by
    conv_lhs => rw [← encXKK_fields c]
    exact (encXKK_and _ _ _ (BitVec.allOnes 8)).trans (by rw [BitVec.and_allOnes])
  rw [hm, hv, hc]
  exact ⟨fun h => ⟨by simpa using congrArg n1 h, by simpa using congrArg fieldKK h⟩, fun ⟨h1, hkk⟩ => by rw [h1, hkk]⟩

theorem masked_n1_n4_iff {m v : Word} {a d : BitVec 4} (hm : m = 0xF00F#16) (hv : v = encXYN a 0 0 d) :
    c &&& m = v ↔ n1 c = a ∧ n4 c = d := by
  have hc : c &&& 0xF00F#16 = encXYN (n1 c) 0 0 (n4 c) := by
    conv_lhs => rw [← encXYN_fields c]
    exact (encXYN_and _ _ _ _ 0xF#4).trans (by rw [and_allOnes4])
  rw [hm, hv, hc]
  exact ⟨fun h => ⟨by simpa using congrArg n1 h, by simpa using congrArg n4 h⟩, fun ⟨h1, h4⟩ => by rw [h1, h4]⟩

theorem masked_n1_n2_n4_iff {m v : Word} {a b d : BitVec 4} (hm : m = 0xFF0F#16) (hv : v = encXYN a b.toFin 0 d) :
    c &&& m = v ↔ n1 c = a ∧ n2 c = b ∧ n4 c = d := by
  have hmask : (0xFF0F#16 : Word) = ((0xF#4 ++ 0xF#4 : BitVec 8) ++ 0#4 : BitVec 12) ++ 0xF#4 := by decide
  have hc : c &&& 0xFF0F#16 = encXYN (n1 c) (fieldX c) 0 (n4 c) := by
    conv_lhs => rw [← encXYN_fields c, encXYN, hmask, append_and_append, append_and_append, append_and_append]
    rw [and_allOnes4, and_allOnes4, and_allOnes4, BitVec.and_zero]
    rfl
  rw [hm, hv, hc]
  constructor
  · intro h
    have hx : fieldX c = b.toFin := by simpa using congrArg fieldX h
    exact ⟨by simpa using congrArg n1 h, BitVec.toFin_inj.mp hx, by simpa using congrArg n4 h⟩
  · rintro ⟨rfl, rfl, rfl⟩
    rfl

/-- The nibbles that a row of the opcode table asks for. -/
def Key.Pattern (c : Word) : Key → Prop
  | .k00E0 => n1 c = 0x0#4 ∧ n2 c = 0x0#4 ∧ n4 c = 0x0#4
  | .k00EE => n1 c = 0x0#4 ∧ n2 c = 0x0#4 ∧ n4 c = 0xE#4
  | .k0nnn => n1 c = 0x0#4 ∧ n2 c ≠ 0x0#4
  | .k1nnn => n1 c = 0x1#4
  | .k2nnn => n1 c = 0x2#4
  | .k3xkk => n1 c = 0x3#4
  | .k4xkk => n1 c = 0x4#4
  | .k5xy0 => n1 c = 0x5#4
  | .k6xkk => n1 c = 0x6#4
  | .k7xkk => n1 c = 0x7#4
  | .k8xy0 => n1 c = 0x8#4 ∧ n4 c = 0x0#4
  | .k8xy1 => n1 c = 0x8#4 ∧ n4 c = 0x1#4
  | .k8xy2 => n1 c = 0x8#4 ∧ n4 c = 0x2#4
  | .k8xy3 => n1 c = 0x8#4 ∧ n4 c = 0x3#4
  | .k8xy4 => n1 c = 0x8#4 ∧ n4 c = 0x4#4
  | .k8xy5 => n1 c = 0x8#4 ∧ n4 c = 0x5#4
  | .k8xy6 => n1 c = 0x8#4 ∧ n4 c = 0x6#4
  | .k8xy7 => n1 c = 0x8#4 ∧ n4 c = 0x7#4
  | .k8xyE => n1 c = 0x8#4 ∧ n4 c = 0xE#4
  | .k9xy0 => n1 c = 0x9#4
  | .kAnnn => n1 c = 0xA#4
  | .kBnnn => n1 c = 0xB#4
  | .kCxkk => n1 c = 0xC#4
  | .kDxyn => n1 c = 0xD#4
  | .kEx9E => n1 c = 0xE#4 ∧ n4 c = 0xE#4
  | .kExA1 => n1 c = 0xE#4 ∧ n4 c = 0x1#4
  | .kFx07 => n1 c = 0xF#4 ∧ fieldKK c = 0x07#8
  | .kFx15 => n1 c = 0xF#4 ∧ fieldKK c = 0x15#8
  | .kFx18 => n1 c = 0xF#4 ∧ fieldKK c = 0x18#8
  | .kFx0A => n1 c = 0xF#4 ∧ fieldKK c = 0x0A#8
  | .kFx1E => n1 c = 0xF#4 ∧ fieldKK c = 0x1E#8
  | .kFx29 => n1 c = 0xF#4 ∧ fieldKK c = 0x29#8
  | .kFx33 => n1 c = 0xF#4 ∧ fieldKK c = 0x33#8
  | .kFx55 => n1 c = 0xF#4 ∧ fieldKK c = 0x55#8
  | .kFx65 => n1 c = 0xF#4 ∧ fieldKK c = 0x65#8

/-- A row without a constraint compares the masked word with its value. -/
theorem accepts_iff {r : OpcodeRow} (hr : r.n2NonZero = false) : r.accepts c = true ↔ c &&& r.mask = r.value := by
  simp [OpcodeRow.accepts, hr]

theorem accepts_iff_pattern (c : Word) (k : Key) : k.row.accepts c = true ↔ k.Pattern c := by
  cases k with
  | k00E0 | k00EE => exact (accepts_iff rfl).trans (masked_n1_n2_n4_iff rfl rfl)
  | k0nnn =>
    have h1 : c &&& 0xF000#16 = 0x0000#16 ↔ n1 c = 0x0#4 := masked_n1_iff rfl rfl
    simp [OpcodeRow.accepts, Key.row, Key.Pattern, h1]
  | k1nnn | k2nnn | k3xkk | k4xkk | k5xy0 | k6xkk | k7xkk | k9xy0 | kAnnn | kBnnn | kCxkk | kDxyn =>
    exact (accepts_iff rfl).trans (masked_n1_iff rfl rfl)
  | k8xy0 | k8xy1 | k8xy2 | k8xy3 | k8xy4 | k8xy5 | k8xy6 | k8xy7 | k8xyE | kEx9E | kExA1 =>
    exact (accepts_iff rfl).trans (masked_n1_n4_iff rfl rfl)
  | kFx07 | kFx15 | kFx18 | kFx0A | kFx1E | kFx29 | kFx33 | kFx55 | kFx65 =>
    exact (accepts_iff rfl).trans (masked_n1_kk_iff rfl rfl)

/-! ### The decoder and the table agree (R96, R104) -/

/-- The instruction of a key with the operand fields of a word. -/
def Key.instr (c : Word) : Key → Instr
  | .k00E0 => .cls
  | .k00EE => .ret
  | .k0nnn => .sys (fieldNNN c)
  | .k1nnn => .jp (fieldNNN c)
  | .k2nnn => .call (fieldNNN c)
  | .k3xkk => .seImm (fieldX c) (fieldKK c)
  | .k4xkk => .sneImm (fieldX c) (fieldKK c)
  | .k5xy0 => .seReg (fieldX c) (fieldY c)
  | .k6xkk => .ldImm (fieldX c) (fieldKK c)
  | .k7xkk => .addImm (fieldX c) (fieldKK c)
  | .k8xy0 => .ldReg (fieldX c) (fieldY c)
  | .k8xy1 => .orReg (fieldX c) (fieldY c)
  | .k8xy2 => .andReg (fieldX c) (fieldY c)
  | .k8xy3 => .xorReg (fieldX c) (fieldY c)
  | .k8xy4 => .addReg (fieldX c) (fieldY c)
  | .k8xy5 => .subReg (fieldX c) (fieldY c)
  | .k8xy6 => .shr (fieldX c) (fieldY c)
  | .k8xy7 => .subn (fieldX c) (fieldY c)
  | .k8xyE => .shl (fieldX c) (fieldY c)
  | .k9xy0 => .sneReg (fieldX c) (fieldY c)
  | .kAnnn => .ldI (fieldNNN c)
  | .kBnnn => .jpV0 (fieldNNN c)
  | .kCxkk => .rnd (fieldX c) (fieldKK c)
  | .kDxyn => .drw (fieldX c) (fieldY c) (fieldN c)
  | .kEx9E => .skp (fieldX c)
  | .kExA1 => .sknp (fieldX c)
  | .kFx07 => .ldVxDT (fieldX c)
  | .kFx15 => .ldDTVx (fieldX c)
  | .kFx18 => .ldSTVx (fieldX c)
  | .kFx0A => .ldVxK (fieldX c)
  | .kFx1E => .addI (fieldX c)
  | .kFx29 => .ldF (fieldX c)
  | .kFx33 => .ldB (fieldX c)
  | .kFx55 => .storeRegs (fieldX c)
  | .kFx65 => .loadRegs (fieldX c)

@[simp] theorem Key.key_instr (c : Word) (k : Key) : (k.instr c).key = k := by cases k <;> rfl

theorem decode_of_pattern {k : Key} (h : k.Pattern c) : decode c = .ok (k.instr c) := by
  cases k with
  | k00E0 => exact decode_cls h.1 h.2.1 h.2.2
  | k00EE => exact decode_ret h.1 h.2.1 h.2.2
  | k0nnn => exact decode_sys h.1 h.2
  | k1nnn => exact decode_jp h
  | k2nnn => exact decode_call h
  | k3xkk => exact decode_seImm h
  | k4xkk => exact decode_sneImm h
  | k5xy0 => exact decode_seReg h
  | k6xkk => exact decode_ldImm h
  | k7xkk => exact decode_addImm h
  | k8xy0 => exact decode_ldReg h.1 h.2
  | k8xy1 => exact decode_orReg h.1 h.2
  | k8xy2 => exact decode_andReg h.1 h.2
  | k8xy3 => exact decode_xorReg h.1 h.2
  | k8xy4 => exact decode_addReg h.1 h.2
  | k8xy5 => exact decode_subReg h.1 h.2
  | k8xy6 => exact decode_shr h.1 h.2
  | k8xy7 => exact decode_subn h.1 h.2
  | k8xyE => exact decode_shl h.1 h.2
  | k9xy0 => exact decode_sneReg h
  | kAnnn => exact decode_ldI h
  | kBnnn => exact decode_jpV0 h
  | kCxkk => exact decode_rnd h
  | kDxyn => exact decode_drw h
  | kEx9E => exact decode_skp h.1 h.2
  | kExA1 => exact decode_sknp h.1 h.2
  | kFx07 => exact decode_ldVxDT h.1 h.2
  | kFx15 => exact decode_ldDTVx h.1 h.2
  | kFx18 => exact decode_ldSTVx h.1 h.2
  | kFx0A => exact decode_ldVxK h.1 h.2
  | kFx1E => exact decode_addI h.1 h.2
  | kFx29 => exact decode_ldF h.1 h.2
  | kFx33 => exact decode_ldB h.1 h.2
  | kFx55 => exact decode_storeRegs h.1 h.2
  | kFx65 => exact decode_loadRegs h.1 h.2

/-- The words of R99, which no row of the table accepts. -/
def IsUnknown (c : Word) : Prop :=
  (n1 c = 0x0#4 ∧ n2 c = 0x0#4 ∧ n4 c ≠ 0x0#4 ∧ n4 c ≠ 0xE#4)
    ∨ (n1 c = 0x8#4 ∧ n4 c ∈ [0x8#4, 0x9#4, 0xA#4, 0xB#4, 0xC#4, 0xD#4, 0xF#4])
    ∨ (n1 c = 0xE#4 ∧ n4 c ≠ 0x1#4 ∧ n4 c ≠ 0xE#4)
    ∨ (n1 c = 0xF#4
        ∧ fieldKK c ∉ [0x07#8, 0x0A#8, 0x15#8, 0x18#8, 0x1E#8, 0x29#8, 0x33#8, 0x55#8, 0x65#8])

/-- A word that no row accepts is one of R99: its n1 is one of the four that select by further nibbles, and those fit no row. -/
theorem unknown_of_no_pattern (hno : ∀ k : Key, ¬ k.Pattern c) : IsUnknown c := by
  have hn1 : ∀ a : BitVec 4, a ∈ [0x0#4, 0x8#4, 0xE#4, 0xF#4]
      ∨ a ∈ [0x1#4, 0x2#4, 0x3#4, 0x4#4, 0x5#4, 0x6#4, 0x7#4, 0x9#4, 0xA#4, 0xB#4, 0xC#4, 0xD#4] := by decide
  have hn4 : ∀ d : BitVec 4, d ∈ [0x8#4, 0x9#4, 0xA#4, 0xB#4, 0xC#4, 0xD#4, 0xF#4]
      ∨ d ∈ [0x0#4, 0x1#4, 0x2#4, 0x3#4, 0x4#4, 0x5#4, 0x6#4, 0x7#4, 0xE#4] := by decide
  rcases hn1 (n1 c) with hsel | hplain
  · simp only [List.mem_cons, List.not_mem_nil, or_false] at hsel
    rcases hsel with h1 | h1 | h1 | h1
    · have h2 : n2 c = 0x0#4 := by_contra fun h2 => hno .k0nnn ⟨h1, h2⟩
      exact .inl ⟨h1, h2, fun h4 => hno .k00E0 ⟨h1, h2, h4⟩, fun h4 => hno .k00EE ⟨h1, h2, h4⟩⟩
    · refine .inr (.inl ⟨h1, (hn4 (n4 c)).resolve_right fun h4 => ?_⟩)
      simp only [List.mem_cons, List.not_mem_nil, or_false] at h4
      rcases h4 with h4 | h4 | h4 | h4 | h4 | h4 | h4 | h4 | h4
      exacts [hno .k8xy0 ⟨h1, h4⟩, hno .k8xy1 ⟨h1, h4⟩, hno .k8xy2 ⟨h1, h4⟩, hno .k8xy3 ⟨h1, h4⟩,
        hno .k8xy4 ⟨h1, h4⟩, hno .k8xy5 ⟨h1, h4⟩, hno .k8xy6 ⟨h1, h4⟩, hno .k8xy7 ⟨h1, h4⟩, hno .k8xyE ⟨h1, h4⟩]
    · exact .inr (.inr (.inl ⟨h1, fun h4 => hno .kExA1 ⟨h1, h4⟩, fun h4 => hno .kEx9E ⟨h1, h4⟩⟩))
    · refine .inr (.inr (.inr ⟨h1, fun hkk => ?_⟩))
      simp only [List.mem_cons, List.not_mem_nil, or_false] at hkk
      rcases hkk with hkk | hkk | hkk | hkk | hkk | hkk | hkk | hkk | hkk
      exacts [hno .kFx07 ⟨h1, hkk⟩, hno .kFx0A ⟨h1, hkk⟩, hno .kFx15 ⟨h1, hkk⟩, hno .kFx18 ⟨h1, hkk⟩,
        hno .kFx1E ⟨h1, hkk⟩, hno .kFx29 ⟨h1, hkk⟩, hno .kFx33 ⟨h1, hkk⟩, hno .kFx55 ⟨h1, hkk⟩, hno .kFx65 ⟨h1, hkk⟩]
  · simp only [List.mem_cons, List.not_mem_nil, or_false] at hplain
    rcases hplain with h1 | h1 | h1 | h1 | h1 | h1 | h1 | h1 | h1 | h1 | h1 | h1
    exacts [absurd h1 (hno .k1nnn), absurd h1 (hno .k2nnn), absurd h1 (hno .k3xkk), absurd h1 (hno .k4xkk),
      absurd h1 (hno .k5xy0), absurd h1 (hno .k6xkk), absurd h1 (hno .k7xkk), absurd h1 (hno .k9xy0), absurd h1 (hno .kAnnn),
      absurd h1 (hno .kBnnn), absurd h1 (hno .kCxkk), absurd h1 (hno .kDxyn)]

/-- With a selecting n1, nibbles that fit no row leave the decoder in its last branch. -/
theorem decode_of_unknown (h : IsUnknown c) : decode c = .error (.unknownOpcode c) := by
  rcases h with ⟨h1, h2, h0, hE⟩ | ⟨h1, h4⟩ | ⟨h1, h4, hE⟩ | ⟨h1, hkk⟩
  · simp [decode_eq_decode0 h1, decode0, h2, h0, hE]
  · rw [decode_eq_decode8 h1, decode8]
    split <;> simp_all
  · rw [decode_eq_decodeE h1, decodeE]
    split <;> simp_all
  · rw [decode_eq_decodeF h1, decodeF]
    split <;> simp_all

/-- What the decoder answers: the instruction of the row that accepts the word, or the error that carries the raw word. -/
theorem decode_cases (c : Word) :
    (∃ k : Key, k.Pattern c ∧ decode c = .ok (k.instr c)) ∨ (IsUnknown c ∧ decode c = .error (.unknownOpcode c)) := by
  by_cases h : ∃ k : Key, k.Pattern c
  · obtain ⟨k, hk⟩ := h
    exact .inl ⟨k, hk, decode_of_pattern hk⟩
  · have hu : IsUnknown c := unknown_of_no_pattern fun k hk => h ⟨k, hk⟩
    exact .inr ⟨hu, decode_of_unknown hu⟩

theorem decode_ok_iff {i : Instr} : decode c = .ok i ↔ i.key.Pattern c ∧ i = i.key.instr c := by
  constructor
  · intro h
    rcases decode_cases c with ⟨k, hk, he⟩ | ⟨-, he⟩ <;> rw [he] at h <;> cases h
    rw [Key.key_instr]
    exact ⟨hk, rfl⟩
  · rintro ⟨hk, hi⟩
    rw [decode_of_pattern hk, ← hi]

theorem decode_key_iff {k : Key} : (∃ i, decode c = .ok i ∧ i.key = k) ↔ k.row.accepts c = true := by
  rw [accepts_iff_pattern]
  constructor
  · rintro ⟨i, hd, rfl⟩
    exact (decode_ok_iff.mp hd).1
  · exact fun hk => ⟨_, decode_of_pattern hk, k.key_instr c⟩

/-- Settles O3: a row accepts a word exactly when its nibble pattern holds, and the decoder has one answer for a word. -/
theorem decoderAgreesWithOpcodeTable : Obligations.DecoderAgreesWithOpcodeTable := by
  refine ⟨fun c k => decode_key_iff, fun c j k hj hk => ?unique⟩
  case unique =>
    obtain ⟨i, hi, rfl⟩ := decode_key_iff.mpr hj
    obtain ⟨i', hi', rfl⟩ := decode_key_iff.mpr hk
    rw [hi] at hi'
    cases hi'
    rfl

/-- Settles O4: the words that fit no row are the ones of R99. -/
theorem unknownOpcodesAreThese : Obligations.UnknownOpcodesAreThese := by
  intro c
  refine ⟨⟨fun h => ?fails, decode_of_unknown⟩, fun e h => ?carries⟩
  case fails =>
    rcases decode_cases c with ⟨k, -, he⟩ | ⟨hu, -⟩
    · rw [he] at h; cases h
    · exact hu
  case carries =>
    rcases decode_cases c with ⟨k, -, he⟩ | ⟨-, he⟩ <;> rw [he] at h <;> cases h
    rfl

/-! ### Encoding what the decoder read (R93, R97) -/

theorem wf_instr {k : Key} (hk : k.Pattern c) : (k.instr c).wf = true := by
  cases k with
  | k0nnn =>
    obtain ⟨-, h2⟩ := hk
    refine (wf_sys_iff _).mpr fun h => h2 ?_
    rw [← n2_encNNN (n1 c) (fieldNNN c), encNNN_fields] at h
    exact h
  | _ => rfl

/-- A row that accepts a word as canonical has it equal to its canonical value under its canonical mask. -/
theorem masked_of_acceptsCanonical {r : OpcodeRow} (h : r.acceptsCanonical c = true) :
    c &&& r.canonicalMask = r.canonicalValue := by
  simp only [OpcodeRow.acceptsCanonical, Bool.and_eq_true, decide_eq_true_eq] at h
  exact h.1

theorem encNNN_of_n1 {a : BitVec 4} (h1 : n1 c = a) : encNNN a (fieldNNN c) = c := by
  rw [← h1, encNNN_fields]

theorem encXKK_of_n1 {a : BitVec 4} (h1 : n1 c = a) : encXKK a (fieldX c) (fieldKK c) = c := by
  rw [← h1, encXKK_fields]

theorem encXKK_of_n1_kk {a : BitVec 4} {kk : Byte} (h : n1 c = a ∧ fieldKK c = kk) : encXKK a (fieldX c) kk = c := by
  rw [← h.1, ← h.2, encXKK_fields]

theorem encXYN_of_n1_n4 {a d : BitVec 4} (h : n1 c = a ∧ n4 c = d) : encXYN a (fieldX c) (fieldY c) d = c := by
  rw [← h.1, ← h.2, encXYN_fields]

/-- The canonical mask of a row inspects every nibble that is no operand, so the operands give the word back. -/
theorem encode_instr {k : Key} (h : k.row.acceptsCanonical c = true) : encode (k.instr c) = c := by
  have hm := masked_of_acceptsCanonical h
  cases k with
  | k00E0 | k00EE => exact (hm.symm.trans (BitVec.and_allOnes (x := c)))
  | k0nnn | k1nnn | k2nnn | kAnnn | kBnnn => exact encNNN_of_n1 ((masked_n1_iff rfl rfl).mp hm)
  | k3xkk | k4xkk | k6xkk | k7xkk | kCxkk => exact encXKK_of_n1 ((masked_n1_iff rfl rfl).mp hm)
  | kDxyn => exact encXYN_of_n1_n4 ⟨(masked_n1_iff rfl rfl).mp hm, rfl⟩
  | k5xy0 | k9xy0 | k8xy0 | k8xy1 | k8xy2 | k8xy3 | k8xy4 | k8xy5 | k8xy6 | k8xy7 | k8xyE =>
    exact encXYN_of_n1_n4 ((masked_n1_n4_iff rfl rfl).mp hm)
  | kEx9E | kExA1 | kFx07 | kFx15 | kFx18 | kFx0A | kFx1E | kFx29 | kFx33 | kFx55 | kFx65 =>
    exact encXKK_of_n1_kk ((masked_n1_kk_iff rfl rfl).mp hm)

/-- Settles O2: the decoder answers the instruction of the accepting row, whose operands are the fields of the word. -/
theorem decodedWordReencodes : Obligations.DecodedWordReencodes := by
  intro c i hd
  obtain ⟨hk, hi⟩ := decode_ok_iff.mp hd
  refine ⟨?wellFormed, fun hcan => ?word⟩
  case wellFormed => rw [hi]; exact wf_instr hk
  case word => rw [hi]; exact encode_instr hcan

/-! ### Fields as numbers (R92), and nibbles that are not inspected (R98) -/

/-- A field of a word is its number divided and reduced. -/
theorem extractLsb'_toNat_div (c : Word) (start len : Nat) : (c.extractLsb' start len).toNat = c.toNat / 2 ^ start % 2 ^ len := by
  rw [BitVec.extractLsb'_toNat, Nat.shiftRight_eq_div_pow]

/-- Settles O5: each field is a run of bits of the word; the sample words are evaluated. -/
theorem sampleWordsDecode : Obligations.SampleWordsDecode := by
  refine ⟨fun c => ?fields, ?samples⟩
  case samples => decide
  case fields =>
    have hn1 : (n1 c).toNat = c.toNat / 4096 := by
      have := c.isLt
      rw [n1, extractLsb'_toNat_div]
      omega
    have hn4 : (n4 c).toNat = c.toNat % 16 := by simp [n4]
    have hn2 : (n2 c).toNat = c.toNat / 256 % 16 := extractLsb'_toNat_div c 8 4
    have hn3 : (n3 c).toNat = c.toNat / 16 % 16 := extractLsb'_toNat_div c 4 4
    have hkk : (fieldKK c).toNat = c.toNat % 256 := by simp [fieldKK]
    have hnnn : (fieldNNN c).toNat = c.toNat % 4096 := by simp [fieldNNN]
    exact ⟨hn1, hn2, hn3, hn4, hn2, hn3, hn4, hkk, hnnn⟩

/-- Settles O6: each clause is the decoder's answer on the nibbles it does inspect. -/
theorem aliasWordsDecodeToTheirKey : Obligations.AliasWordsDecodeToTheirKey := fun _ =>
  ⟨decode_cls, decode_ret, decode_seReg, decode_sneReg, decode_skp, decode_sknp⟩

end Sys2Proof
end

section
/-! PROOFS. What an instruction does, said once: it takes the condition of the table of 60_exceptions.md R300 and changes nothing
else, or it leaves `afterInstr`. From it, field by field, what every instruction leaves unchanged, and the statements O38 to
O41 and O43. -/

namespace Sys2Proof.Machine

variable {s t : State} {i : Instr} {c : Condition}

/-! ### The state an instruction leaves -/

/-- The state that an instruction leaves when it raises nothing. -/
def State.afterInstr (s : State) : Instr → State
  | .cls => s.clearDisplay
  | .ret => { s with pc := s.stack[(s.sp - 1).val], sp := s.sp - 1 }
  | .sys _ => s
  | .jp nnn => s.setPC (zext16 nnn)
  | .call nnn => { s with stack := s.stack.set s.sp.val s.pc, sp := s.sp + 1, pc := zext16 nnn }
  | .seImm x kk => s.setPC (if s.reg x = kk then s.pc + 2#16 else s.pc)
  | .sneImm x kk => s.setPC (if s.reg x ≠ kk then s.pc + 2#16 else s.pc)
  | .seReg x y => s.setPC (if s.reg x = s.reg y then s.pc + 2#16 else s.pc)
  | .sneReg x y => s.setPC (if s.reg x ≠ s.reg y then s.pc + 2#16 else s.pc)
  | .ldImm x kk => s.setReg x kk
  | .addImm x kk => s.setReg x (s.reg x + kk)
  | .ldReg x y => s.setReg x (s.reg y)
  | .orReg x y => s.setReg x (s.reg x ||| s.reg y)
  | .andReg x y => s.setReg x (s.reg x &&& s.reg y)
  | .xorReg x y => s.setReg x (s.reg x ^^^ s.reg y)
  | .addReg x y => (s.setReg x (s.reg x + s.reg y)).setReg vf (carry (s.reg x) (s.reg y))
  | .subReg x y => (s.setReg x (s.reg x - s.reg y)).setReg vf (notBorrow (s.reg x) (s.reg y))
  | .shr x _ => (s.setReg vf (shiftedOutLow (s.reg x))).setReg x (s.reg x >>> 1)
  | .subn x y => (s.setReg y (s.reg y - s.reg x)).setReg vf (notBorrow (s.reg y) (s.reg x))
  | .shl x _ => (s.setReg vf (shiftedOutHigh (s.reg x))).setReg x (s.reg x <<< 1)
  | .ldI nnn => s.setI (zext16 nnn)
  | .jpV0 nnn => s.setPC ((s.reg 0).setWidth 16 + zext16 nnn)
  | .rnd x kk =>
    { s.setReg x (s.random.1 &&& kk) with draws := s.random.2.draws, freeIndex := s.random.2.freeIndex }
  | .drw x y n => s.drawAt x y (s.bytesAt s.i.toNat n.val)
  | .skp x => s.setPC (if s.key[(s.reg x).toNat]? = some true then s.pc + 2#16 else s.pc)
  | .sknp x => s.setPC (if s.key[(s.reg x).toNat]? = some false then s.pc + 2#16 else s.pc)
  | .ldVxDT x => s.setReg x s.dt
  | .ldDTVx x => s.setDT (s.reg x)
  | .ldSTVx x => s.setST (s.reg x)
  | .ldVxK x =>
    match s.lowestKey with
    | some k => s.setReg x (keyByte k)
    | none => s.setPC (s.pc - 2#16)
  | .addI x => (s.setI (s.i + (s.reg x).setWidth 16)).setReg vf (indexOverflow s.i (s.reg x))
  | .ldF x => s.setI (fontAddress s.cfg (s.reg x))
  | .ldB x => s.putRun s.i.toNat (bcdDigits (s.reg x))
  | .storeRegs x => s.putRun s.i.toNat (s.regRange x)
  | .loadRegs x => { s with v := (s.setRegs (regsUpTo x) (s.bytesAt s.i.toNat (x.val + 1))).v }

/-- A skip writes PC, be it with its old value. -/
theorem skipIf_eq_setPC (p : Prop) [Decidable p] :
    s.skipIf (decide p) = s.setPC (if p then s.pc + 2#16 else s.pc) := by
  by_cases hp : p
  · rw [decide_eq_true hp, if_pos hp]; rfl
  · rw [decide_eq_false hp, if_neg hp]; rfl

/-- An existing latch is set exactly when the table of R25 finds it set. -/
theorem key_getElem_eq_decide {a : Nat} (h : a < 16) : s.key[a] = decide (s.key[a]? = some true) := by
  rw [Vector.getElem?_eq_getElem h]
  cases s.key[a] <;> rfl

theorem not_key_getElem_eq_decide {a : Nat} (h : a < 16) : (!s.key[a]) = decide (s.key[a]? = some false) := by
  rw [Vector.getElem?_eq_getElem h]
  cases s.key[a] <;> rfl

theorem exec_of_raises (h : Raises s c i) : exec i s = .next (s.raise c) := by
  cases i with
  | call nnn => obtain ⟨hsp, rfl⟩ := h; exact exec_call_full nnn hsp
  | ret => obtain ⟨hsp, rfl⟩ := h; exact exec_ret_empty hsp
  | drw x y n => obtain ⟨hn, hi, rfl⟩ := h; exact exec_drw_outside x y n hn hi
  | ldB x => obtain ⟨hi, rfl⟩ := h; exact exec_ldB_outside x hi
  | storeRegs x => obtain ⟨hi, rfl⟩ := h; exact exec_storeRegs_outside x hi
  | loadRegs x => obtain ⟨hi, rfl⟩ := h; exact exec_loadRegs_outside x hi
  | skp x => obtain ⟨hk, rfl⟩ := h; exact exec_skp_illegal x (Nat.not_lt.mpr hk)
  | sknp x => obtain ⟨hk, rfl⟩ := h; exact exec_sknp_illegal x (Nat.not_lt.mpr hk)
  | _ => exact h.elim

theorem exec_of_not_raises (h : ∀ c, ¬ Raises s c i) : exec i s = .next (s.afterInstr i) := by
  cases i with
  | call nnn => exact exec_call_room nnn fun hsp => h _ ⟨hsp, rfl⟩
  | ret => exact exec_ret_held fun hsp => h _ ⟨hsp, rfl⟩
  | seImm x kk | sneImm x kk | seReg x y | sneReg x y => exact congrArg _ (skipIf_eq_setPC _)
  | rnd x kk => exact congrArg (fun u : State => Host.Outcome.next (u.setReg x (s.random.1 &&& kk))) s.random_state
  | drw x y n =>
    refine exec_drw_inside x y n ?_
    by_contra hi
    exact h _ ⟨fun h0 => hi (.inl h0), Nat.lt_of_not_le fun hle => hi (.inr hle), rfl⟩
  | skp x =>
    have hk : (s.reg x).toNat < 16 := Nat.lt_of_not_le fun hk => h _ ⟨hk, rfl⟩
    rw [exec_skp_legal x hk, key_getElem_eq_decide hk, skipIf_eq_setPC, State.afterInstr]
  | sknp x =>
    have hk : (s.reg x).toNat < 16 := Nat.lt_of_not_le fun hk => h _ ⟨hk, rfl⟩
    rw [exec_sknp_legal x hk, not_key_getElem_eq_decide hk, skipIf_eq_setPC, State.afterInstr]
  | ldVxK x =>
    simp only [exec, execLdVxK, State.afterInstr]
    cases s.lowestKey <;> rfl
  | ldB x => exact exec_ldB_inside x (Nat.le_of_not_lt fun hi => h _ ⟨hi, rfl⟩)
  | storeRegs x => exact exec_storeRegs_inside x (Nat.le_of_not_lt fun hi => h _ ⟨hi, rfl⟩)
  | loadRegs x =>
    rw [exec_loadRegs_inside x (Nat.le_of_not_lt fun hi => h _ ⟨hi, rfl⟩), State.setRegs_eq]
    rfl
  | _ => rfl

/-- What an instruction does: it raises what the table of R300 says, or it leaves `afterInstr`. -/
theorem exec_cases (h : exec i s = .next t) :
    (∃ c, Raises s c i ∧ t = s.raise c) ∨ ((∀ c, ¬ Raises s c i) ∧ t = s.afterInstr i) := by
  by_cases hr : ∃ c, Raises s c i
  · obtain ⟨c, hc⟩ := hr
    rw [exec_of_raises hc] at h
    cases h
    exact .inl ⟨c, hc, rfl⟩
  · have hno : ∀ c, ¬ Raises s c i := fun c hc => hr ⟨c, hc⟩
    rw [exec_of_not_raises hno] at h
    cases h
    exact .inr ⟨hno, rfl⟩

/-- Whatever an instruction does, it leaves these fields as they were (R138). -/
theorem exec_untouched (h : exec i s = .next t) : Untouched s t := by
  obtain ⟨t', he, hsame⟩ := exec_next i s
  cases he.symm.trans h
  exact hsame

theorem haltsWith_raise (s : State) (c : Condition) : HaltsWith c s (s.raise c) := ⟨rfl, s.byteAt_raise c⟩

/-! ### What each field becomes -/

@[simp] theorem State.afterInstr_halted (s : State) (i : Instr) : (s.afterInstr i).halted = s.halted := by
  cases i with
  | ldVxK x => rw [State.afterInstr]; cases s.lowestKey <;> rfl
  | _ => rfl

theorem State.afterInstr_i (hldI : ∀ nnn, i ≠ .ldI nnn) (haddI : ∀ x, i ≠ .addI x) (hldF : ∀ x, i ≠ .ldF x) :
    (s.afterInstr i).i = s.i := by
  cases i with
  | ldI nnn => exact absurd rfl (hldI nnn)
  | addI x => exact absurd rfl (haddI x)
  | ldF x => exact absurd rfl (hldF x)
  | ldVxK x => rw [State.afterInstr]; cases s.lowestKey <;> rfl
  | _ => rfl

theorem State.afterInstr_stack (hcall : ∀ nnn, i ≠ .call nnn) (hret : i ≠ .ret) :
    (s.afterInstr i).sp = s.sp ∧ (s.afterInstr i).stack = s.stack := by
  cases i with
  | call nnn => exact absurd rfl (hcall nnn)
  | ret => exact absurd rfl hret
  | ldVxK x => rw [State.afterInstr]; cases s.lowestKey <;> exact ⟨rfl, rfl⟩
  | _ => exact ⟨rfl, rfl⟩

theorem State.afterInstr_pix (hcls : i ≠ .cls) (hdrw : ∀ x y n, i ≠ .drw x y n) :
    (s.afterInstr i).pix = s.pix ∧ (s.afterInstr i).dispChanged = s.dispChanged := by
  cases i with
  | cls => exact absurd rfl hcls
  | drw x y n => exact absurd rfl (hdrw x y n)
  | ldVxK x => rw [State.afterInstr]; cases s.lowestKey <;> exact ⟨rfl, rfl⟩
  | _ => exact ⟨rfl, rfl⟩

theorem State.afterInstr_mem (hldB : ∀ x, i ≠ .ldB x) (hstore : ∀ x, i ≠ .storeRegs x) :
    (s.afterInstr i).mem = s.mem := by
  cases i with
  | ldB x => exact absurd rfl (hldB x)
  | storeRegs x => exact absurd rfl (hstore x)
  | ldVxK x => rw [State.afterInstr]; cases s.lowestKey <;> rfl
  | _ => rfl

theorem State.afterInstr_dt (h : ∀ x, i ≠ .ldDTVx x) : (s.afterInstr i).dt = s.dt := by
  cases i with
  | ldDTVx x => exact absurd rfl (h x)
  | ldVxK x => rw [State.afterInstr]; cases s.lowestKey <;> rfl
  | _ => rfl

theorem State.afterInstr_st (h : ∀ x, i ≠ .ldSTVx x) : (s.afterInstr i).st = s.st := by
  cases i with
  | ldSTVx x => exact absurd rfl (h x)
  | ldVxK x => rw [State.afterInstr]; cases s.lowestKey <;> rfl
  | _ => rfl

/-! ### Halting (R300, R137) -/

/-- Settles O38: a raise sets only the latch, and an instruction that raises nothing leaves the latch clear. -/
theorem onlyListedInstructionsHalt : Obligations.OnlyListedInstructionsHalt := by
  intro i s t hh hexec
  refine ⟨fun c hc => ?listed, fun c hr => ?raised⟩
  case listed =>
    rcases exec_cases hexec with ⟨c', hr, rfl⟩ | ⟨-, rfl⟩
    · obtain rfl : c' = c := Option.some.inj hc
      exact ⟨hr, haltsWith_raise s c'⟩
    · rw [State.afterInstr_halted, hh] at hc
      cases hc
  case raised =>
    rw [exec_of_raises hr] at hexec
    cases hexec
    rfl

/-- An instruction that leaves a running core running has raised nothing. -/
theorem exec_running (hexec : exec i s = .next t) (ht : t.halted = none) : (∀ c, ¬ Raises s c i) ∧ t = s.afterInstr i := by
  rcases exec_cases hexec with ⟨c, -, rfl⟩ | h
  · cases ht
  · exact h

/-! ### I, SP, the stack and the display (R23, R26, R27, R34) -/

/-- A call writes the slot of its SP, which is not the last one: there it would overflow (R154, D6). -/
theorem State.afterInstr_stack_last (h : ∀ c, ¬ Raises s c i) : (s.afterInstr i).stack[15] = s.stack[15] := by
  cases i with
  | call nnn =>
    have hsp : s.sp.val ≠ 15 := fun e => h .stackOverflow ⟨Fin.ext e, rfl⟩
    exact Vector.getElem_set_ne s.sp.isLt (by decide) hsp
  | ret => rfl
  | _ => exact congrArg (·[15]) (State.afterInstr_stack (by simp) (by simp)).2

/-- Settles O43: a raise changes none of these fields, and `afterInstr` only where it is said to. -/
theorem indexStackAndDisplayChangeOnlyWhereListed : Obligations.IndexStackAndDisplayChangeOnlyWhereListed := by
  intro i s t hexec
  rcases exec_cases hexec with ⟨c, -, rfl⟩ | ⟨hno, rfl⟩
  · exact ⟨fun _ _ _ => rfl, fun _ _ => ⟨rfl, rfl⟩, rfl, fun _ _ => ⟨rfl, rfl⟩⟩
  · exact ⟨State.afterInstr_i, State.afterInstr_stack, State.afterInstr_stack_last hno, State.afterInstr_pix⟩

/-! ### Memory (R62, R77, R200) -/

/-- A run stored inside memory leaves every byte outside it as it was. -/
theorem sameMemoryOutside_putRun {a n : Nat} {l : List Byte} (hl : l.length = n) (ha : a + n ≤ 4096)
    (hm : Memory.wf (resetByte s.cfg) s.mem = true) : SameMemoryOutside a n s (s.putRun a l) := by
  intro q hq
  rw [State.byteAt_putRun (.inl (hl ▸ ha)) hm, if_neg (by omega)]

theorem bcdDigits_length (a : Byte) : (bcdDigits a).length = 3 := rfl

/-- Two states whose memory and parameters agree read every byte alike. -/
theorem sameMemory_of_eq (hmem : t.mem = s.mem) (hcfg : t.cfg = s.cfg) : SameMemory s t := fun a => by
  rw [State.byteAt, State.byteAt, hmem, hcfg]

/-- Settles O41: a raise leaves memory alone; a store that raises nothing stays inside the run it checked. -/
theorem memoryChangesOnlyByStores : Obligations.MemoryChangesOnlyByStores := by
  intro i s t hs hexec
  have hcfg : t.cfg = s.cfg := (exec_untouched hexec).cfg
  rcases exec_cases hexec with ⟨c, -, rfl⟩ | ⟨hno, rfl⟩
  · exact ⟨fun _ _ => ⟨rfl, s.byteAt_raise c⟩, fun _ _ q _ => s.byteAt_raise c q, fun _ _ q _ => s.byteAt_raise c q⟩
  · refine ⟨fun hldB hstore => ?others, ?bcd, ?regs⟩
    case others =>
      have hmem := State.afterInstr_mem (s := s) hldB hstore
      exact ⟨hmem, sameMemory_of_eq hmem hcfg⟩
    case bcd =>
      rintro x rfl
      exact sameMemoryOutside_putRun (bcdDigits_length _) (Nat.le_of_not_lt fun hi => hno _ ⟨hi, rfl⟩) hs.mem_wf
    case regs =>
      rintro x rfl
      exact sameMemoryOutside_putRun (State.regRange_length x) (Nat.le_of_not_lt fun hi => hno _ ⟨hi, rfl⟩) hs.mem_wf

/-! ### PC (R25) -/

theorem skipTarget_decide (a : Word) (p : Prop) [Decidable p] :
    (if p then a + 2#16 + 2#16 else a + 2#16) = skipTarget a (decide p) := by
  by_cases hp : p
  · rw [decide_eq_true hp, if_pos hp, BitVec.add_assoc]; rfl
  · rw [decide_eq_false hp, if_neg hp]; rfl

/-- A captured key is a pressed one, and without one no key is pressed. -/
theorem pressed_iff_lowestKey_ne_none : (∃ k : KeyIx, s.key[k.val] = true) ↔ s.lowestKey ≠ none := by
  constructor
  · rintro ⟨k, hk⟩ hnone
    rw [State.lowestKey_none hnone k] at hk
    cases hk
  · intro h
    obtain ⟨k, hk⟩ := Option.ne_none_iff_exists'.mp h
    exact ⟨k, (State.lowestKey_some hk).1⟩

/-- From the state after the fetch, `afterInstr` leaves PC where the table of R25 says. -/
theorem State.afterInstr_pc (s : State) (i : Instr) : ((s.setPC (s.pc + 2#16)).afterInstr i).pc = pcAfter s i := by
  cases i with
  | seImm x kk | sneImm x kk | seReg x y | sneReg x y | skp x | sknp x => exact skipTarget_decide s.pc _
  | ldVxK x =>
    have hkey : (s.setPC (s.pc + 2#16)).lowestKey = s.lowestKey := rfl
    simp only [State.afterInstr, pcAfter, pressed_iff_lowestKey_ne_none, hkey]
    cases s.lowestKey with
    | some k => simp
    | none => simp
  | _ => rfl

/-- Settles O39: a decoded word runs its base handler, which raised nothing; an unknown word is skipped. -/
theorem programCounterAfterEveryStep : Obligations.ProgramCounterAfterEveryStep := by
  intro s t c hh hf hhook hstep ht
  refine ⟨fun i hd => ?decoded, fun e hd => ?unknown⟩
  case decoded =>
    rw [stepRunsDecodedInstruction s c i hh hf hd (hhook i hd)] at hstep
    rw [(exec_running hstep ht).2]
    exact s.afterInstr_pc i
  case unknown =>
    rw [unknownWordIsLoggedAndSkipped s c e hh hf hd] at hstep
    cases hstep
    rfl

/-! ### VF (R22) -/

theorem vf_not_mem_regsUpTo {x : RegIx} (hx : x ≠ vf) : vf ∉ regsUpTo x := by
  rw [mem_regsUpTo]
  intro hle
  exact hx (Fin.ext (Nat.le_antisymm (Nat.le_of_lt_succ x.isLt) hle))

theorem State.afterInstr_vf (hw : ¬ IsFlagWriter i) (hn : ¬ NamesVF i) : (s.afterInstr i).reg vf = s.reg vf := by
  cases i with
  | addReg x y | subReg x y | subn x y | shr x y | shl x y | drw x y n | addI x => exact absurd trivial hw
  | ldImm x _ | addImm x _ | ldReg x _ | orReg x _ | andReg x _ | xorReg x _ | rnd x _ | ldVxDT x =>
    exact State.reg_setReg_other s _ (Ne.symm hn)
  | ldVxK x =>
    rw [State.afterInstr]
    cases s.lowestKey with
    | some k => exact State.reg_setReg_other s _ (Ne.symm hn)
    | none => rfl
  | loadRegs x => exact State.reg_setRegs_other (vf_not_mem_regsUpTo hn) _
  | _ => rfl

theorem flagByte_zero_or_one (b : Bool) : flagByte b = 0#8 ∨ flagByte b = 1#8 := by
  cases b
  · exact .inl rfl
  · exact .inr rfl

theorem shiftedOutLow_eq_flagByte (a : Byte) : shiftedOutLow a = flagByte (a.getLsbD 0) := by
  rw [shiftedOutLow, BitVec.and_one_eq_setWidth_ofBool_getLsbD]
  cases a.getLsbD 0 <;> rfl

/-- Every flag writer leaves the byte of a flag in VF, unless it is a shift, whose later write is to V[x]. -/
theorem State.afterInstr_vf_flag (hw : IsFlagWriter i) (hshr : ∀ y, i ≠ .shr vf y) (hshl : ∀ y, i ≠ .shl vf y) :
    ∃ b, (s.afterInstr i).reg vf = flagByte b := by
  cases i with
  | addReg x y | subReg x y | subn x y | drw x y n | addI x => exact ⟨_, State.reg_setReg_same _ vf _⟩
  | shr x y =>
    have hx : vf ≠ x := fun e => hshr y (e ▸ rfl)
    exact ⟨_, (State.reg_setReg_other _ _ hx).trans ((s.reg_setReg_same vf _).trans (shiftedOutLow_eq_flagByte _))⟩
  | shl x y =>
    have hx : vf ≠ x := fun e => hshl y (e ▸ rfl)
    exact ⟨_, (State.reg_setReg_other _ _ hx).trans (s.reg_setReg_same vf _)⟩
  | _ => exact hw.elim

/-- Settles O40: a raise keeps every register; otherwise VF keeps its value or receives the byte of a flag. -/
theorem flagChangesOnlyWhereListed : Obligations.FlagChangesOnlyWhereListed := by
  intro i s t _ hexec
  refine ⟨fun hw hn => ?kept, fun hw ht hshr hshl => ?flag⟩
  case kept =>
    rcases exec_cases hexec with ⟨c, -, rfl⟩ | ⟨-, rfl⟩
    · rfl
    · exact State.afterInstr_vf hw hn
  case flag =>
    obtain ⟨b, hb⟩ := State.afterInstr_vf_flag (s := s) hw hshr hshl
    rw [(exec_running hexec ht).2, hb]
    exact flagByte_zero_or_one b

end Sys2Proof.Machine
end

section
/-! PROOFS. What every step keeps (10_state.md R47; 40_step_fetch_dispatch.md R138): a property that instructions, host writes and
raises keep is kept by a step and a run, hooked or not; the invariant and the scheduler's fields are such; and the
statement O45. -/

namespace Sys2Proof.Machine

variable {s t u : State}

/-! ### An induction over what a step is made of -/

/-- What every part of a step keeps: the base handlers, the host's writes, a raise and the fetch's and the report's own writes. -/
structure KeptByParts (P : State → Prop) : Prop where
  exec : ∀ {a b : State} {i : Instr}, P a → exec i a = .next b → P b
  hostWrite : ∀ {a : State} (w : HostWrite), P a → P (a.hostWrite w)
  raise : ∀ {a : State} (c : Condition), P a → P (a.raise c)
  freeIndex : ∀ {a : State}, P a → P { a with freeIndex := a.freeIndex + 1 }
  setPC : ∀ {a : State} (w : Word), P a → P (a.setPC w)
  report : ∀ {a : State} (c : Word), P a → P (a.reportUnknown c)

section Parts

variable {P : State → Prop} (hP : KeptByParts P)

include hP

theorem KeptByParts.hostEffect (e : HostEffect) (hs : P s) : P (s.hostEffect e) :=
  hostEffect_induction (fun _ w ha => hP.hostWrite w ha) (fun _ c ha => hP.raise c ha) (hP.freeIndex hs) e

theorem KeptByParts.runHandler {i : Instr} {c : Word} (hs : P s) (h : runHandler i c s = .next t) : P t := by
  cases hh : s.hookOf i.key with
  | none =>
    rw [runHandler_base c hh] at h
    exact hP.exec hs h
  | some hook =>
    cases hook with
    | replace code =>
      rw [runHandler_replace c hh] at h
      cases h
      exact hP.hostEffect _ hs
    | pre code =>
      rw [runHandler_pre c hh, runPre] at h
      split at h
      · cases h
        exact hP.hostEffect _ hs
      · exact hP.exec (hP.hostEffect _ hs) h
    | post code =>
      obtain ⟨v, hv, -⟩ := exec_next i s
      have hPv : P v := hP.exec hs hv
      rw [runHandler_post c hh, runPost, hv] at h
      dsimp only at h
      split at h <;> cases h
      · exact hPv
      · exact hP.hostEffect _ hPv

theorem KeptByParts.step (hs : P s) (h : step s = .next t) : P t := by
  rcases step_cases s with ⟨-, he⟩ | ⟨-, -, he⟩ | ⟨-, -, c, _, -, he⟩ | ⟨-, -, c, i, -, he⟩ <;> rw [he] at h
  · cases h; exact hs
  · cases h; exact hP.raise _ hs
  · cases h; exact hP.report _ (hP.setPC _ hs)
  · exact hP.runHandler (hP.setPC _ hs) h

theorem KeptByParts.runSteps {n : Nat} (hs : P s) (h : runSteps n s = .next t) : P t :=
  runSteps_induction (fun _ _ => hP.step) n hs h

end Parts

/-! ### The invariant of a step (R47) -/

/-- The invariant reads no other field than these four. -/
theorem State.StepInv.of_eq (hs : s.StepInv) (hcfg : t.cfg = s.cfg) (hipc : t.ipc = s.ipc)
    (hmem : Memory.wf (resetByte s.cfg) t.mem = true) (hpix : Grid.wf s.cfg.rows s.cfg.cols t.pix = true) : t.StepInv :=
  ⟨by rw [hcfg]; exact hs.cfg_valid, by rw [hipc]; exact hs.ipc_pos, by rw [hcfg]; exact hmem, by rw [hcfg]; exact hpix⟩

/-- A run of bytes stored inside memory keeps the invariant. -/
theorem State.StepInv.putRun (hs : s.StepInv) {a : Nat} {l : List Byte} (ha : a + l.length ≤ 4096) :
    (s.putRun a l).StepInv :=
  hs.of_eq rfl rfl (Memory.wf_writeRun (.inl ha) hs.mem_wf) hs.pix_wf

theorem State.StepInv.raise (hs : s.StepInv) (c : Condition) : (s.raise c).StepInv := hs.of_eq rfl rfl hs.mem_wf hs.pix_wf

theorem State.StepInv.hostWrite (hs : s.StepInv) (w : HostWrite) : (s.hostWrite w).StepInv := by
  cases w with
  | mem a b => exact hs.putRun (l := [b]) a.isLt
  | pixel r c b => exact hs.of_eq rfl rfl hs.mem_wf (Grid.wf_set hs.pix_wf r c b)
  | _ => exact hs.of_eq rfl rfl hs.mem_wf hs.pix_wf

theorem State.StepInv.afterInstr_mem {i : Instr} (hs : s.StepInv) (hno : ∀ c, ¬ Raises s c i) :
    Memory.wf (resetByte s.cfg) (s.afterInstr i).mem = true := by
  cases i with
  | ldB x => exact (hs.putRun (l := bcdDigits (s.reg x)) (Nat.le_of_not_lt fun hi => hno _ ⟨hi, rfl⟩)).mem_wf
  | storeRegs x =>
    have hi : s.i.toNat + (x.val + 1) ≤ 4096 := Nat.le_of_not_lt fun hi => hno _ ⟨hi, rfl⟩
    exact (hs.putRun (l := s.regRange x) (by rwa [State.regRange_length])).mem_wf
  | _ =>
    rw [State.afterInstr_mem (by simp) (by simp)]
    exact hs.mem_wf

theorem State.StepInv.afterInstr_pix (hs : s.StepInv) (i : Instr) :
    Grid.wf s.cfg.rows s.cfg.cols (s.afterInstr i).pix = true := by
  cases i with
  | cls => exact Grid.wf_blank
  | drw x y n => exact blitSprite_wf hs.pix_wf
  | _ =>
    rw [(State.afterInstr_pix (by simp) (by simp)).1]
    exact hs.pix_wf

theorem State.StepInv.exec {i : Instr} (hs : s.StepInv) (h : exec i s = .next t) : t.StepInv := by
  have hsame := exec_untouched h
  rcases exec_cases h with ⟨c, -, rfl⟩ | ⟨hno, rfl⟩
  · exact hs.raise c
  · exact hs.of_eq hsame.cfg hsame.ipc (hs.afterInstr_mem hno) (hs.afterInstr_pix i)

theorem stepInv_keptByParts : KeptByParts State.StepInv where
  exec := State.StepInv.exec
  hostWrite w hs := hs.hostWrite w
  raise c hs := hs.raise c
  freeIndex hs := hs.of_eq rfl rfl hs.mem_wf hs.pix_wf
  setPC _ hs := hs.of_eq rfl rfl hs.mem_wf hs.pix_wf
  report _ hs := hs.of_eq rfl rfl hs.mem_wf hs.pix_wf

/-- Settles O45: every part of a step keeps the invariant; the stores and the sprites stay inside memory and grid. -/
theorem stepKeepsInvariant : Obligations.StepKeepsInvariant := fun _ _ => stepInv_keptByParts.step

/-! ### The scheduler's fields in a step (R37 to R41) -/

/-- The scheduler's state that no part of a step writes, hooked or not. -/
structure SameScheduler (s t : State) : Prop where
  keyq : t.keyq = s.keyq
  held : t.held = s.held
  cycleIndex : t.cycleIndex = s.cycleIndex

theorem SameScheduler.refl (s : State) : SameScheduler s s := ⟨rfl, rfl, rfl⟩

theorem SameScheduler.of_eq (h : SameScheduler s t) (hkeyq : u.keyq = t.keyq) (hheld : u.held = t.held)
    (hindex : u.cycleIndex = t.cycleIndex) : SameScheduler s u :=
  ⟨hkeyq.trans h.keyq, hheld.trans h.held, hindex.trans h.cycleIndex⟩

theorem sameScheduler_keptByParts (s : State) : KeptByParts (SameScheduler s) where
  exec ha h :=
    have hsame := exec_untouched h
    ha.of_eq hsame.keyq hsame.held hsame.cycleIndex
  hostWrite w ha := by cases w <;> exact ha.of_eq rfl rfl rfl
  raise _ ha := ha.of_eq rfl rfl rfl
  freeIndex ha := ha.of_eq rfl rfl rfl
  setPC _ ha := ha.of_eq rfl rfl rfl
  report _ ha := ha.of_eq rfl rfl rfl

theorem step_sameScheduler (h : step s = .next t) : SameScheduler s t := (sameScheduler_keptByParts s).step (.refl s) h

theorem runSteps_sameScheduler {n : Nat} (h : runSteps n s = .next t) : SameScheduler s t :=
  (sameScheduler_keptByParts s).runSteps (.refl s) h

end Sys2Proof.Machine
end

section
/-! PROOFS. The cycle (48_scheduler_cycle.md R261 to R274): what it is made of, what its two ends leave field by field, what a
step without hooks leaves alone, and the statements O52, O10, O51, O55, O42 and O54. -/

namespace Sys2Proof.Machine

variable {s t u : State}

/-! ### A cycle (R261 to R274) -/

theorem cycle_halted {c : Condition} (p : Profile) (hs : s.halted = some c) : cycle p s = .next (s, .fatal c) := by
  rw [cycle, hs]

/-- A batch that halts the core is the whole cycle (R274). -/
theorem cycle_of_halting {c : Condition} (p : Profile) (hs : s.halted = none) (hrun : runSteps s.ipc s.injectKey = .next u)
    (hu : u.halted = some c) : cycle p s = .next (u, .fatal c) := by
  simp only [cycle, hs, runBatch_of_runSteps _ hrun, hu]

/-- A batch that leaves the core running is followed by the end of the cycle. -/
theorem cycle_of_running (p : Profile) (hs : s.halted = none) (hrun : runSteps s.ipc s.injectKey = .next u)
    (hu : u.halted = none) : cycle p s = .next ((u.endCycle p).1, .frame (u.endCycle p).2) := by
  simp only [cycle, hs, runBatch_of_runSteps _ hrun, hu]

/-- What a cycle does: nothing on a halted core; else its batch, and the end of the cycle if that left the core running. -/
theorem cycle_cases (p : Profile) (s : State) :
    (∃ c, s.halted = some c ∧ cycle p s = .next (s, .fatal c))
      ∨ (s.halted = none ∧ ∃ u, runSteps s.ipc s.injectKey = .next u
          ∧ ((∃ c, u.halted = some c ∧ cycle p s = .next (u, .fatal c))
            ∨ (u.halted = none ∧ cycle p s = .next ((u.endCycle p).1, .frame (u.endCycle p).2)))) := by
  cases hs : s.halted with
  | some c => exact .inl ⟨c, rfl, cycle_halted p hs⟩
  | none =>
    obtain ⟨u, hrun⟩ := runSteps_next s.ipc s.injectKey
    refine .inr ⟨rfl, u, hrun, ?_⟩
    cases hu : u.halted with
    | some c => exact .inl ⟨c, rfl, cycle_of_halting p hs hrun hu⟩
    | none => exact .inr ⟨rfl, cycle_of_running p hs hrun hu⟩

/-- Settles O52: the batch of a cycle ends in the state in which the run of its steps does. -/
theorem cycleCutShortByFatalCondition : Obligations.CycleCutShortByFatalCondition := fun _ _ _ p hs hrun hu =>
  cycle_of_halting p hs hrun hu

/-- Settles O10: both look at the latch first (R136). -/
theorem haltedMachineDoesNothing : Obligations.HaltedMachineDoesNothing := fun _ _ p hs =>
  ⟨step_halted (by rw [hs]; exact Option.some_ne_none _), cycle_halted p hs⟩

/-! ### The two ends of a cycle, field by field -/

@[simp] theorem State.injectKey_cycleIndex (s : State) : s.injectKey.cycleIndex = s.cycleIndex := by
  unfold State.injectKey; split <;> rfl

@[simp] theorem State.releaseKey_cycleIndex (s : State) : s.releaseKey.cycleIndex = s.cycleIndex := by
  unfold State.releaseKey; split <;> rfl

theorem State.injectKey_idle (h : s.keyq = []) : s.injectKey = s := by rw [State.injectKey, h]

theorem State.injectKey_queued {k : KeyIx} {ks : List KeyIx} (h : s.keyq = k :: ks) :
    s.injectKey = { s.setKey k true with keyq := ks, held := some k } := by rw [State.injectKey, h]

/-- The injected key is held, if one was queued (R262). -/
theorem State.injectKey_held (s : State) (hs : s.held = none) : s.injectKey.held = s.keyq.head? := by
  cases hq : s.keyq with
  | nil => rw [State.injectKey_idle hq, hs]; rfl
  | cons k ks => rw [State.injectKey_queued hq]; rfl

theorem State.releaseKey_idle (h : s.held = none) : s.releaseKey = s := by rw [State.releaseKey, h]

theorem State.releaseKey_held {k : KeyIx} (h : s.held = some k) : s.releaseKey = { s.setKey k false with held := none } := by
  rw [State.releaseKey, h]

/-- The line that was set is released, and nothing is held afterwards (R267). -/
theorem State.releaseKey_eq (s : State) :
    s.releaseKey = { s with key := s.held.elim s.key fun k => s.key.set k.val false, held := none } := by
  cases hh : s.held with
  | none => rw [State.releaseKey_idle hh, Option.elim_none, ← hh]
  | some k => rw [State.releaseKey_held hh]; rfl

/-- The state that the end of a cycle leaves (R264 to R268). -/
theorem State.endCycle_eq (s : State) (p : Profile) :
    (s.endCycle p).1
      = { s with
          dt := timerTick s.dt
          st := timerTick s.st
          key := s.held.elim s.key fun k => s.key.set k.val false
          held := none
          dispChanged := false
          buzzerChanged := false
          cycleIndex := s.cycleIndex + 1 } := by
  rw [State.endCycle, State.releaseKey_eq]
  rfl

theorem timerTick_eq_zero_iff (b : Byte) : timerTick b = 0#8 ↔ b = 0#8 ∨ b = 1#8 := by
  rw [← BitVec.toNat_inj, timerTick_toNat, ← BitVec.toNat_inj, ← BitVec.toNat_inj]
  change _ = 0 ↔ _ = 0 ∨ _ = 1
  omega

/-- The decrement of ST changes the buzzer exactly when it takes ST from 1 to 0 (R30, R265). -/
theorem buzzer_edge_of_timerTick (b : Byte) :
    (decide (b = 0#8) != decide (timerTick b = 0#8)) = decide (b = 1#8) := by
  rw [Bool.eq_iff_iff, bne_iff_ne, ne_eq, decide_eq_decide, decide_eq_true_eq, timerTick_eq_zero_iff]
  constructor
  · intro h
    by_contra h1
    exact h ⟨.inl, fun h' => h'.resolve_right h1⟩
  · rintro rfl h
    exact absurd (h.mpr (.inr rfl)) (by decide)

theorem State.endCycle_changed (s : State) (p : Profile) :
    (s.endCycle p).2.changed = (s.dispChanged || s.buzzerChanged || decide (s.st = 1#8)) := by
  rw [State.endCycle, State.releaseKey_eq, ← buzzer_edge_of_timerTick, Bool.or_assoc]
  rfl

/-! ### Completed cycles -/

/-- Settles O51: no step touches the held key or the cycle index, so the end of the cycle releases the key that was injected. -/
theorem cycleRunsExactlyIpcSteps : Obligations.CycleRunsExactlyIpcSteps := by
  intro s u p hs hh hrun hu
  have hsame := runSteps_sameScheduler hrun
  have hheld : u.held = s.keyq.head? := hsame.held.trans (s.injectKey_held (hs.held_free hh))
  have hindex : u.cycleIndex = s.cycleIndex := hsame.cycleIndex.trans s.injectKey_cycleIndex
  refine ⟨_, _, cycle_of_running p hh hrun hu, ?dt, ?st, ?key, u.endCycle_changed p, ?frame⟩
  case dt => rw [State.endCycle_dt, timerTick_toNat]
  case st => rw [State.endCycle_st, timerTick_toNat]
  case key =>
    rw [State.endCycle_eq, hheld]
    cases s.keyq <;> rfl
  case frame => rw [State.endCycle_eq, hindex]

/-- Settles O55: the Frame is read from the state that the cycle leaves, but for the flags it clears and the index it counts. -/
theorem frameReportsTheCycle : Obligations.FrameReportsTheCycle := by
  intro s t p f hcycle
  obtain ⟨-, u, hrun, -, hend⟩ := cycle_frame hcycle
  have hindex : u.tickTimers.releaseKey.cycleIndex = s.cycleIndex :=
    u.tickTimers.releaseKey_cycleIndex.trans ((runSteps_sameScheduler hrun).cycleIndex.trans s.injectKey_cycleIndex)
  obtain rfl : (u.endCycle p).1 = t := by rw [hend]
  obtain rfl : (u.endCycle p).2 = f := by rw [hend]
  exact ⟨hindex, congrArg (· + 1) hindex, rfl, decide_eq_true_iff, rfl, rfl, rfl⟩

/-! ### Steps without hooks (R138) -/

theorem exec_dt {i : Instr} (h : exec i s = .next t) (hi : ∀ x, i ≠ .ldDTVx x) : t.dt = s.dt := by
  rcases exec_cases h with ⟨c, -, rfl⟩ | ⟨-, rfl⟩
  · rfl
  · exact State.afterInstr_dt hi

theorem exec_st {i : Instr} (h : exec i s = .next t) (hi : ∀ x, i ≠ .ldSTVx x) : t.st = s.st := by
  rcases exec_cases h with ⟨c, -, rfl⟩ | ⟨-, rfl⟩
  · rfl
  · exact State.afterInstr_st hi

/-- Settles O42: a step without hooks is a raise, a report or a base handler, none of which writes these fields. -/
theorem stepLeavesSchedulerAlone : Obligations.StepLeavesSchedulerAlone := by
  intro s t hno hstep
  rcases step_noHooks_cases hno hstep with rfl | ⟨c, rfl⟩ | ⟨c, rfl⟩ | ⟨c, i, hf, hd, he⟩
  · exact ⟨rfl, rfl, rfl, rfl, rfl, rfl, rfl, rfl, rfl, fun _ => rfl, fun _ => rfl⟩
  · exact ⟨rfl, rfl, rfl, rfl, rfl, rfl, rfl, rfl, rfl, fun _ => rfl, fun _ => rfl⟩
  · exact ⟨rfl, rfl, rfl, rfl, rfl, rfl, rfl, rfl, rfl, fun _ => rfl, fun _ => rfl⟩
  · have hsame := exec_untouched he
    exact ⟨hsame.key, hsame.keyq, hsame.held, hsame.cycleIndex, hsame.ipc, hsame.freq, hsame.pacing, hsame.hooks, hsame.cfg,
      fun h => (exec_dt he fun x hi => h c x hf (hi ▸ hd)).trans (s.setPC_dt _),
      fun h => (exec_st he fun x hi => h c x hf (hi ▸ hd)).trans (s.setPC_st _)⟩

theorem step_noHooks_key (hno : s.NoHooks) (h : step s = .next t) : t.key = s.key := by
  obtain ⟨hkey, -⟩ := stepLeavesSchedulerAlone s t hno h
  exact hkey

theorem runSteps_noHooks_key {n : Nat} (hno : s.NoHooks) (h : runSteps n s = .next t) : t.key = s.key := by
  have hkept : t.NoHooks ∧ t.key = s.key :=
    runSteps_induction (P := fun a => a.NoHooks ∧ a.key = s.key)
      (fun a b ⟨ha, hk⟩ hab => ⟨step_noHooks ha hab, (step_noHooks_key ha hab).trans hk⟩) n ⟨hno, rfl⟩ h
  exact hkept.2

/-- Settles O54: without hooks no step touches a latch, so the injected line stays set until the cycle releases it. -/
theorem queuedKeyLastsOneCycle : Obligations.QueuedKeyLastsOneCycle := by
  intro s t p f hs hh hno hcycle
  obtain ⟨-, u, hrun, -, hend⟩ := cycle_frame hcycle
  obtain rfl : (u.endCycle p).1 = t := by rw [hend]
  have hno' : s.injectKey.NoHooks := hno.of_hooks_eq s.injectKey_hooks
  have hsame := runSteps_sameScheduler hrun
  have hheld : u.held = s.keyq.head? := hsame.held.trans (s.injectKey_held (hs.held_free hh))
  have hkey : u.key = s.injectKey.key := runSteps_noHooks_key hno' hrun
  rw [State.endCycle_eq]
  refine ⟨rfl, fun k ks hq => ?queued, fun hq => ?idle⟩
  case queued =>
    have hinj := State.injectKey_queued hq
    have hkeyq : u.keyq = ks := by rw [hsame.keyq, hinj]
    have hlatch : s.injectKey.key = s.key.set k.val true := by rw [hinj]; rfl
    have hk : u.held = some k := by rw [hheld, hq]; rfl
    simp only [hk, hkey, hlatch, Option.elim_some]
    refine ⟨hkeyq, Vector.getElem_set_self _, fun j hj => ?other, fun n v _ hv => ?during⟩
    case other =>
      have hne : k.val ≠ j.val := fun e => hj (Fin.ext e.symm)
      rw [Vector.getElem_set_ne _ _ hne, Vector.getElem_set_ne _ _ hne]
    case during =>
      rw [runSteps_noHooks_key hno' hv, hlatch]
      exact Vector.getElem_set_self _
  case idle =>
    have hk : u.held = none := by rw [hheld, hq]; rfl
    rw [State.injectKey_idle hq] at hkey hsame
    simp only [hk, Option.elim_none]
    exact ⟨hsame.keyq.trans hq, hkey⟩

end Sys2Proof.Machine
end

section
/-! PROOFS. The transactions (48_scheduler_cycle.md R275): what each does to the state, that each answers and keeps the invariant
(10_state.md R47), and the statements O47, O48, O46 and O44. -/

namespace Sys2Proof.Machine

variable {s t : State}

/-! ### Transactions (R275) -/

/-- What a transaction that runs no step and is no reset does to the state. -/
inductive PortEffect (s : State) : State → Prop where
  | same : PortEffect s s
  | load (image : List Byte) (h : image.length ≤ romMax) : PortEffect s (s.putRun programOffset image)
  | queue (k : KeyIx) : PortEffect s { s with keyq := s.keyq ++ [k] }
  | latch (k : KeyIx) (b : Bool) : PortEffect s (s.setKey k b)
  | query : PortEffect s s.outputChanged.2
  | hooks (h : Vector (Option Hook) 35) : PortEffect s { s with hooks := h }
  | supply (b : Byte) : PortEffect s (s.supplyRandom b)

/-- A port's reply holds its new state, or the old one (R306). -/
theorem PortEffect.portReply {r : Except HostError State} {y : Reply} {o : Host.Outcome (State × Reply) Fault Refusal}
    (h : o = .next (t, y)) (ho : o = .next (Machine.portReply s r)) (hr : ∀ a, r = .ok a → PortEffect s a) :
    PortEffect s t := by
  rw [ho] at h
  cases r with
  | ok a => cases h; exact hr _ rfl
  | error e => cases h; exact .same

theorem PortEffect.loadRom {image : List Byte} (h : s.loadRom image = .ok t) : PortEffect s t := by
  unfold State.loadRom at h
  split at h <;> cases h
  exact .load image ‹_›

theorem PortEffect.setHook {name : String} {h : Option Hook} (hr : s.setHook name h = .ok t) : PortEffect s t := by
  unfold State.setHook at hr
  split at hr <;> cases hr
  exact .hooks _

theorem transact_port {x : Transaction} {y : Reply} (h : transact x s = .next (t, y)) (hreset : x ≠ .reset)
    (hstep : x ≠ .step) (hcycle : ∀ p, x ≠ .cycle p) : PortEffect s t := by
  cases x with
  | reset => exact absurd rfl hreset
  | step => exact absurd rfl hstep
  | cycle p => exact absurd rfl (hcycle p)
  | loadRom image => exact .portReply h rfl fun _ => .loadRom
  | queueKey k => exact .portReply h rfl fun a ha => by obtain ⟨i, -, rfl⟩ := except_map_ok ha; exact .queue i
  | keyDown k | keyUp k => exact .portReply h rfl fun a ha => by obtain ⟨i, -, rfl⟩ := except_map_ok ha; exact .latch i _
  | getDisplayBuffer | getBuzzerState | getVariable v | readLog => cases h; exact .same
  | outputChanged => cases h; exact .query
  | hook key code | unhook key | preHook key code | postHook key code => exact .portReply h rfl fun _ => .setHook
  | supplyRandom b => cases h; exact .supply b

theorem transact_step_of_next (h : step s = .next t) : transact .step s = .next (t, stepReply t) := by
  simp only [transact, stepTransaction, h]

theorem transact_cycle_of_next {p : Profile} {y : CycleReply} (h : cycle p s = .next (t, y)) :
    transact (.cycle p) s = .next (t, y.toReply) := by
  simp only [transact, cycleTransaction, h]

theorem cycle_next (p : Profile) (s : State) : ∃ t y, cycle p s = .next (t, y) := by
  rcases cycle_cases p s with ⟨c, -, he⟩ | ⟨-, u, -, ⟨c, -, he⟩ | ⟨-, he⟩⟩
  · exact ⟨_, _, he⟩
  · exact ⟨_, _, he⟩
  · exact ⟨_, _, he⟩

/-- Settles O47: a step and a cycle always answer, and the other transactions answer by definition. -/
theorem everyTransactionAnswers : Obligations.EveryTransactionAnswers := by
  intro x s
  cases x with
  | step =>
    obtain ⟨t, h⟩ := step_next s
    exact ⟨_, _, transact_step_of_next h⟩
  | cycle p =>
    obtain ⟨t, y, h⟩ := cycle_next p s
    exact ⟨_, _, transact_cycle_of_next h⟩
  | _ => exact ⟨_, _, rfl⟩

theorem PortEffect.halted (h : PortEffect s t) : t.halted = s.halted := by cases h <;> rfl

/-- Settles O48: no port writes the latch, and a halted step or cycle leaves the state as it is. -/
theorem haltLatchHoldsUntilReset : Obligations.HaltLatchHoldsUntilReset := by
  intro s c hs
  have hstep : transact .step s = .next (s, .fatal c) := by
    rw [transact_step_of_next (step_halted (by rw [hs]; exact Option.some_ne_none c)), stepReply, hs]
  have hcycle : ∀ p, transact (.cycle p) s = .next (s, .fatal c) := fun p => transact_cycle_of_next (cycle_halted p hs)
  refine ⟨fun x t y hx h => ?latch, hstep, hcycle, _, rfl, rfl⟩
  case latch =>
    by_cases hxs : x = .step
    · subst hxs
      rw [hstep] at h
      cases h
      exact hs
    · by_cases hxc : ∃ p, x = .cycle p
      · obtain ⟨p, rfl⟩ := hxc
        rw [hcycle] at h
        cases h
        exact hs
      · exact (transact_port h hx hxs fun p e => hxc ⟨p, e⟩).halted.trans hs

/-! ### The invariant between transactions (R47) -/

/-- The invariant between transactions reads two fields more than that of a step. -/
theorem State.Inv.of_eq (hs : s.Inv) (ht : t.StepInv) (hhalted : t.halted = s.halted) (hheld : t.held = s.held) : t.Inv :=
  ⟨ht, fun h => by rw [hheld]; exact hs.held_free (hhalted ▸ h)⟩

theorem PortEffect.inv (h : PortEffect s t) (hs : s.Inv) : t.Inv := by
  cases h with
  | load image hlen => exact hs.of_eq (hs.putRun (Nat.add_le_of_le_sub' (by decide) hlen)) rfl rfl
  | _ => exact hs.of_eq (hs.toStepInv.of_eq rfl rfl hs.mem_wf hs.pix_wf) rfl rfl

theorem initial_inv {cfg : Config} {ipc : Nat} (hcfg : cfg.valid = true) (hipc : 1 ≤ ipc) (freq : Nat) (pacing : Bool) :
    (State.initial cfg ipc freq pacing).Inv :=
  ⟨⟨hcfg, hipc, rfl, Grid.wf_blank⟩, fun _ => rfl⟩

theorem State.Inv.hostReset (hs : s.Inv) : s.hostReset.Inv :=
  have h := initial_inv hs.cfg_valid hs.ipc_pos s.freq s.pacing
  h.of_eq (h.toStepInv.of_eq rfl rfl h.mem_wf h.pix_wf) rfl rfl

/-- A step that leaves the core running began in a running core. -/
theorem running_of_step_running (h : step s = .next t) (ht : t.halted = none) : s.halted = none := by
  by_contra hh
  rw [step_halted hh] at h
  cases h
  exact hh ht

theorem State.Inv.step (hs : s.Inv) (h : step s = .next t) : t.Inv :=
  ⟨stepInv_keptByParts.step hs.toStepInv h, fun ht => by
    rw [(step_sameScheduler h).held]
    exact hs.held_free (running_of_step_running h ht)⟩

theorem State.StepInv.injectKey (hs : s.StepInv) : s.injectKey.StepInv := by
  unfold State.injectKey
  split
  · exact hs
  · exact hs.of_eq rfl rfl hs.mem_wf hs.pix_wf

theorem State.StepInv.endCycle (hs : s.StepInv) (p : Profile) : (s.endCycle p).1.Inv := by
  rw [State.endCycle_eq]
  exact ⟨hs.of_eq rfl rfl hs.mem_wf hs.pix_wf, fun _ => rfl⟩

theorem State.Inv.cycle {p : Profile} {y : CycleReply} (hs : s.Inv) (h : cycle p s = .next (t, y)) : t.Inv := by
  rcases cycle_cases p s with ⟨c, -, he⟩ | ⟨-, u, hrun, hend⟩
  · cases he.symm.trans h
    exact hs
  · have hu : u.StepInv := stepInv_keptByParts.runSteps hs.toStepInv.injectKey hrun
    rcases hend with ⟨c, hc, he⟩ | ⟨-, he⟩
    · cases he.symm.trans h
      exact ⟨hu, fun hnone => by rw [hc] at hnone; cases hnone⟩
    · cases he.symm.trans h
      exact hu.endCycle p

theorem State.Inv.transact {x : Transaction} {y : Reply} (hs : s.Inv) (h : transact x s = .next (t, y)) : t.Inv := by
  cases x with
  | reset => cases h; exact hs.hostReset
  | step =>
    obtain ⟨u, hu⟩ := step_next s
    cases (transact_step_of_next hu).symm.trans h
    exact hs.step hu
  | cycle p =>
    obtain ⟨u, z, hu⟩ := cycle_next p s
    cases (transact_cycle_of_next hu).symm.trans h
    exact hs.cycle hu
  | _ => exact (transact_port h (by simp) (by simp) (by simp)).inv hs

/-- Settles O46: each transaction keeps the invariant, and a list of them by induction. -/
theorem transactionsKeepInvariant : Obligations.TransactionsKeepInvariant := by
  refine ⟨fun x s t y => State.Inv.transact, fun xs => ?lists⟩
  case lists =>
    induction xs with
    | nil => intro s t hs h; cases h; exact hs
    | cons x xs ih =>
      intro s t hs h
      obtain ⟨v, y, hv⟩ := everyTransactionAnswers x s
      rw [transactAll, hv] at h
      exact ih v t (hs.transact hv) h

theorem initial_noHooks (cfg : Config) (ipc freq : Nat) (pacing : Bool) : (State.initial cfg ipc freq pacing).NoHooks :=
  fun k => Vector.getElem_replicate k.index.isLt

/-- Settles O44: construction checks what the invariant asks of its arguments. -/
theorem resetStateMeetsInvariant : Obligations.ResetStateMeetsInvariant := by
  refine ⟨initial_inv (by decide) (by decide) _ _, fun cfg ipc freq pacing s h => ?constructed⟩
  case constructed =>
    unfold construct at h
    split at h <;> cases h
    rename_i hargs
    rw [Bool.and_eq_true, decide_eq_true_eq] at hargs
    exact ⟨initial_inv hargs.1 hargs.2 freq pacing, initial_noHooks cfg ipc freq pacing⟩

end Sys2Proof.Machine
end

section
/-! PROOFS. Halting instructions, calls, memory stores and loads, and the fetch (41_control_flow.md, 43_index_memory.md,
20_memory.md, 60_exceptions.md): what they leave, written out, and the statements O9, O11, O18 to O21, O23 to O29 and O34 of those
families. -/

namespace Sys2Proof.Machine

variable {s t : State} {c : Condition} {i : Instr}

/-! ### Conditions (R300 to R305) -/

/-- An instruction that raises halts the core and changes nothing else (R137). -/
theorem halts_of_raises (h : Raises s c i) : ∃ t, exec i s = .next t ∧ HaltsWith c s t :=
  ⟨_, exec_of_raises h, haltsWith_raise s c⟩

/-- Settles O20: both limits stand in the table of R300. -/
theorem stackLimitsHalt : Obligations.StackLimitsHalt := fun _ _ =>
  ⟨fun hfull => halts_of_raises ⟨Fin.ext hfull, rfl⟩, fun hempty => halts_of_raises ⟨Fin.ext hempty, rfl⟩⟩

/-- Settles O26: all four accesses stand in the table of R300. -/
theorem memoryRangeFaultsHalt : Obligations.MemoryRangeFaultsHalt := fun _ _ _ _ =>
  ⟨fun hi => halts_of_raises ⟨hi, rfl⟩, fun hi => halts_of_raises ⟨hi, rfl⟩, fun hi => halts_of_raises ⟨hi, rfl⟩,
    fun hn hi => halts_of_raises ⟨hn, hi, rfl⟩⟩

/-- Settles O34: both key skips stand in the table of R300. -/
theorem keyIndexFaultsHalt : Obligations.KeyIndexFaultsHalt := fun _ _ hk =>
  ⟨halts_of_raises ⟨hk, rfl⟩, halts_of_raises ⟨hk, rfl⟩⟩

/-- Settles O9: the fetch checks both bytes before it moves PC. -/
theorem fetchOutsideMemoryHalts : Obligations.FetchOutsideMemoryHalts := fun s hh hpc =>
  ⟨_, step_fetchError hh (by omega), haltsWith_raise s _⟩

/-! ### Call and return (R152, R154) -/

theorem sp_succ_val {sp : Fin 16} (h : sp.val < 15) : (sp + 1).val = sp.val + 1 := by revert sp; decide

theorem sp_pred_val {sp : Fin 16} (h : 0 < sp.val) : (sp - 1).val + 1 = sp.val := by revert sp; decide

theorem exec_call_below (nnn : Imm12) (h : s.sp.val < 15) :
    exec (.call nnn) s = .next { s with stack := s.stack.set s.sp.val s.pc, sp := s.sp + 1, pc := zext16 nnn } :=
  exec_call_room nnn fun e => Nat.ne_of_lt h (congrArg Fin.val e)

theorem exec_ret_above (h : 0 < s.sp.val) :
    exec .ret s = .next { s with pc := s.stack[(s.sp - 1).val], sp := s.sp - 1 } :=
  exec_ret_held fun e => Nat.ne_of_gt h (congrArg Fin.val e)

theorem stack_set_other (w : Word) {j : Fin 16} (hj : j ≠ s.sp) : (s.stack.set s.sp.val w)[j.val] = s.stack[j.val] :=
  Vector.getElem_set_ne s.sp.isLt j.isLt fun e => hj (Fin.ext e.symm)

/-- Settles O18: below the limit a call writes the slot of SP, SP and PC. -/
theorem callResult : Obligations.CallResult := by
  refine ⟨fun _ => decode_call, fun s nnn hsp => ?_⟩
  refine ⟨_, exec_call_below nnn hsp, ?slot, ?others, ?sp, ?pc, rfl, fun _ => rfl⟩
  case slot => exact Vector.getElem_set_self _
  case others => exact fun j hj => stack_set_other s.pc hj
  case sp => exact sp_succ_val hsp
  case pc => exact zext16_toNat nnn

/-- Settles O19: a return reads the slot below SP. -/
theorem returnResult : Obligations.ReturnResult := by
  intro s hsp
  have hpred := sp_pred_val hsp
  refine ⟨_, exec_ret_above hsp, fun j hj => ?pc, hpred, rfl, fun _ => rfl⟩
  case pc =>
    obtain rfl : j = s.sp - 1 := Fin.ext (by omega)
    rfl

/-- Settles O21: the return takes the slot that the call has just written. -/
theorem callThenReturnComesBack : Obligations.CallThenReturnComesBack := by
  intro s nnn hsp
  refine ⟨_, exec_call_below nnn hsp, ?back, Vector.getElem_set_self _, fun j hj => stack_set_other s.pc hj⟩
  case back =>
    have hpos : 0 < (s.sp + 1).val := by rw [sp_succ_val hsp]; exact Nat.succ_pos _
    rw [exec_ret_above hpos]
    simp only [add_sub_cancel_right, Vector.getElem_set_self]

/-! ### Runs of bytes in memory (R65, R204 to R206) -/

/-- The k-th byte of a run stored inside memory stands at `a + k`. -/
theorem byteAt_putRun_add {a k : Nat} {l : List Byte} (hs : s.StepInv) (ha : a + l.length ≤ 4096) (hk : k < l.length) :
    (s.putRun a l).byteAt (a + k) = l.getD k 0#8 := by
  rw [State.byteAt_putRun (.inl ha) hs.mem_wf, if_pos (by omega), Nat.add_sub_cancel_left]

/-- The digits of R204 are below 10 and so fit a byte. -/
theorem bcdDigit_toNat {n : Nat} (h : n < 256) : (BitVec.ofNat 8 n).toNat = n := by
  rw [BitVec.toNat_ofNat, Nat.mod_eq_of_lt h]

/-- Settles O23: Fx33 stores the run of the three digits. -/
theorem bcdStoreResult : Obligations.BcdStoreResult := by
  refine ⟨fun _ => decode_ldB, fun s x hs hi => ?_⟩
  have hdigit : ∀ {k : Nat}, k < 3 →
      (s.putRun s.i.toNat (bcdDigits (s.reg x))).byteAt (s.i.toNat + k) = (bcdDigits (s.reg x)).getD k 0#8 :=
    fun hk => byteAt_putRun_add hs hi hk
  refine ⟨_, exec_ldB_inside x hi, ?hundreds, ?tens, ?ones, ?outside, rfl⟩
  case hundreds => exact (congrArg BitVec.toNat (hdigit (k := 0) (by decide))).trans (bcdDigit_toNat (by omega))
  case tens => exact (congrArg BitVec.toNat (hdigit (by decide))).trans (bcdDigit_toNat (by omega))
  case ones => exact (congrArg BitVec.toNat (hdigit (by decide))).trans (bcdDigit_toNat (by omega))
  case outside => exact sameMemoryOutside_putRun (bcdDigits_length _) hi hs.mem_wf

/-- Settles O24: Fx55 stores the run of V[0..x]. -/
theorem registerStoreResult : Obligations.RegisterStoreResult := by
  refine ⟨fun _ => decode_storeRegs, fun s x hs hi => ⟨_, exec_storeRegs_inside x hi, fun k hk => ?inside, ?outside, rfl⟩⟩
  case inside =>
    have hlen := s.regRange_length x
    rw [byteAt_putRun_add hs (by omega) (by omega), State.regRange_getD hk]
  case outside => exact sameMemoryOutside_putRun (State.regRange_length x) hi hs.mem_wf

/-- Settles O25: Fx65 writes the run at I to V[0..x]. -/
theorem registerLoadResult : Obligations.RegisterLoadResult := by
  refine ⟨fun _ => decode_loadRegs, fun s x hi => ?_⟩
  refine ⟨_, exec_loadRegs_inside x hi, fun k hk => ?loaded, fun k hk => ?kept, ?frame, ?memory⟩
  case loaded =>
    rw [State.reg_setRegs_upTo hk (Memory.readRun_length _ _ _), Memory.readRun_getD _ (Nat.lt_succ_of_le hk)]
    rfl
  case kept => exact State.reg_setRegs_other (fun hmem => absurd ((mem_regsUpTo x k).mp hmem) (Nat.not_le.mpr hk)) _
  case frame => exact State.setRegs_eq _ _
  case memory => rw [State.setRegs_eq]; exact fun _ => rfl

/-- Settles O27: the bytes loaded are the bytes stored, since I is as before. -/
theorem storedRegistersLoadBack : Obligations.StoredRegistersLoadBack := by
  intro s x w hs hi
  obtain ⟨t, ht, hstored, -, hframe⟩ := registerStoreResult.2 s x hs hi
  have hti : t.i = s.i := by rw [hframe]
  obtain ⟨u, hu, hloaded, -⟩ := registerLoadResult.2 { t with v := w } x (by rw [hti]; exact hi)
  refine ⟨t, u, ht, hu, fun k hk => ?_⟩
  rw [hloaded k hk, ← hstored k hk, hti]
  rfl

/-- Settles O28: a store of one byte inside memory. -/
theorem byteStoreReadsBack : Obligations.ByteStoreReadsBack := by
  intro s a b hs ha
  have hbound : a + [b].length ≤ 4096 := ha
  refine ⟨_, State.memWrite_inBounds (.inr hbound), byteAt_putRun_add hs hbound Nat.one_pos, fun q hq => ?others, rfl,
    hs.putRun hbound⟩
  case others =>
    have hout : ¬ (a ≤ q ∧ q < a + [b].length) := by rw [List.length_singleton]; omega
    rw [State.byteAt_putRun (.inl hbound) hs.mem_wf, if_neg hout]

/-- Settles O29: the two bytes stored at PC are what the fetch reads, and a store touches neither PC, latch nor hooks. -/
theorem storedWordIsFetchedNext : Obligations.StoredWordIsFetchedNext := by
  intro s i hs hh hi hpc hd hhook
  obtain ⟨t, ht, hstored, -, hframe⟩ := registerStoreResult.2 s 1 hs (hi ▸ hpc)
  have htpc : t.pc = s.i := by rw [hframe, hi]
  have hth : t.halted = none := by rw [hframe]; exact hh
  have htk : t.hookOf i.key = none := by rw [hframe]; exact hhook
  have hf : t.FetchesWord (wordOfBytes (s.reg 0) (s.reg 1)) := by
    refine ⟨by rw [htpc, hi]; exact hpc, ?_⟩
    have h0 : t.byteAt s.i.toNat = s.reg 0 := hstored 0 (by decide)
    have h1 : t.byteAt (s.i.toNat + 1) = s.reg 1 := hstored 1 (by decide)
    rw [htpc, h0, h1, wordOfBytes_toNat]
  exact ⟨t, ht, stepRunsDecodedInstruction t _ i hth hf hd htk⟩

/-! ### Hooked steps (R315, R317, R318) -/

theorem step_runHandler {w : Word} (hh : s.halted = none) (hf : s.FetchesWord w) (hd : decode w = .ok i) :
    step s = runHandler i w (s.setPC (s.pc + 2#16)) :=
  (step_fetchesWord hh hf).trans (runWord_decoded hd)

/-- Both orders of the question whether the latch is set. -/
theorem ite_isSome {α : Type} (o : Option Condition) (a b : α) :
    (if o.isSome then a else b) = if o = none then b else a := by
  cases o <;> rfl

theorem runPre_eq (code : HostCode) {t : State} (ht : t = s.hostEffect (Config.hostCallback code s)) :
    runPre code i s = if t.halted = none then exec i t else .next t := by
  rw [ht, ← ite_isSome]
  rfl

theorem runPost_eq (code : HostCode) (ht : exec i s = .next t) :
    runPost code i s = .next (if t.halted = none then t.hostEffect (Config.hostCallback code t) else t) := by
  rw [← ite_isSome, runPost, ht]
  exact (apply_ite Host.Outcome.next _ _ _).symm

/-- Settles O11: the fetch leaves the hook table, so the handler of the word is the hook's. -/
theorem hookedStepRunsHostCode : Obligations.HookedStepRunsHostCode := by
  intro s w i code hh hf hd
  rw [step_runHandler hh hf hd]
  refine ⟨fun hhook => runHandler_replace w hhook, fun hhook t ht => ?pre, fun hhook => ?post⟩
  case pre =>
    have hpre : (s.setPC (s.pc + 2#16)).hookOf i.key = some (.pre code) := hhook
    exact (runHandler_pre w hpre).trans (runPre_eq code ht)
  case post =>
    obtain ⟨t, ht, -⟩ := exec_next i (s.setPC (s.pc + 2#16))
    have hpost : (s.setPC (s.pc + 2#16)).hookOf i.key = some (.post code) := hhook
    exact ⟨t, ht, (runHandler_post w hpost).trans (runPost_eq code ht)⟩

end Sys2Proof.Machine
end

section
/-! PROOFS. The flag writers, the shifts, the draw of a random byte and the skips (42_load_arith_logic.md, 41_control_flow.md,
45_keyboard_timers.md): their base handlers and results, and the statements O13 to O16, O33 and O36 of those families. -/

namespace Sys2Proof.Machine

variable {s : State} {x y r : RegIx} {kk a b : Byte}

/-! ### A handler that writes a register and VF (R170) -/

theorem exec_addReg :
    exec (.addReg x y) s = .next ((s.setReg x (s.reg x + s.reg y)).setReg vf (carry (s.reg x) (s.reg y))) := rfl

theorem exec_subReg :
    exec (.subReg x y) s = .next ((s.setReg x (s.reg x - s.reg y)).setReg vf (notBorrow (s.reg x) (s.reg y))) := rfl

theorem exec_subn :
    exec (.subn x y) s = .next ((s.setReg y (s.reg y - s.reg x)).setReg vf (notBorrow (s.reg y) (s.reg x))) := rfl

theorem exec_shr : exec (.shr x y) s = .next ((s.setReg vf (shiftedOutLow (s.reg x))).setReg x (s.reg x >>> 1)) := rfl

theorem exec_shl : exec (.shl x y) s = .next ((s.setReg vf (shiftedOutHigh (s.reg x))).setReg x (s.reg x <<< 1)) := rfl

theorem OnlyRegs.trans {rs : List RegIx} {t u : State} (h : OnlyRegs rs s t) (h' : OnlyRegs rs t u) : OnlyRegs rs s u := by
  obtain ⟨hst, hregs, hmem⟩ := h
  obtain ⟨htu, hregs', hmem'⟩ := h'
  refine ⟨?_, fun q hq => (hregs' q hq).trans (hregs q hq), fun q => (hmem' q).trans (hmem q)⟩
  rw [htu, hst]

/-- Two register writes change only those registers. -/
theorem onlyRegs_setReg_setReg {rs : List RegIx} {p q : RegIx} (hp : p ∈ rs) (hq : q ∈ rs) (a b : Byte) :
    OnlyRegs rs s ((s.setReg p a).setReg q b) :=
  (onlyRegs_setReg hp a).trans (onlyRegs_setReg hq b)

/-! ### Sums, differences and their flags (R177, R178, R180) -/

theorem carry_eq (a b : Byte) : carry a b = if 255 < a.toNat + b.toNat then 1#8 else 0#8 := flagByte_decide _

theorem notBorrow_eq (a b : Byte) : notBorrow a b = if a.toNat < b.toNat then 0#8 else 1#8 := by
  rw [notBorrow, flagByte_decide, ite_not]

theorem sub_toNat (a b : Byte) : (a - b).toNat = (a.toNat + 256 - b.toNat) % 256 := by bv_omega

/-- A handler that writes `a` to `V[r]` and then the flag `b` to VF: the later write stays where they meet (D5). -/
theorem exec_setReg_setVF_result {i : Instr} (he : exec i s = .next ((s.setReg r a).setReg vf b)) {n : Nat} {f : Byte}
    (ha : a.toNat = n) (hb : b = f) :
    ∃ t, exec i s = .next t ∧ (r ≠ vf → (t.reg r).toNat = n) ∧ t.reg vf = f ∧ OnlyRegs [r, vf] s t := by
  refine ⟨_, he, fun hr => ?result, ?flag, onlyRegs_setReg_setReg (by simp) (by simp) a b⟩
  case result => rw [State.reg_setReg_other _ _ hr, State.reg_setReg_same, ha]
  case flag => rw [State.reg_setReg_same, hb]

/-- Settles O13: each writes a sum or a difference of the operands as read, then the flag. -/
theorem addSubtractResults : Obligations.AddSubtractResults :=
  ⟨fun _ => ⟨decode_addReg, decode_subReg, decode_subn⟩, fun _ _ _ =>
    ⟨exec_setReg_setVF_result exec_addReg (BitVec.toNat_add _ _) (carry_eq _ _),
      exec_setReg_setVF_result exec_subReg (sub_toNat _ _) (notBorrow_eq _ _),
      exec_setReg_setVF_result exec_subn (sub_toNat _ _) (notBorrow_eq _ _)⟩⟩

/-! ### Shifts (R179, R181) -/

theorem shiftedOutLow_toNat (a : Byte) : (shiftedOutLow a).toNat = a.toNat % 2 := by
  rw [shiftedOutLow, BitVec.toNat_and]
  exact Nat.and_one_is_mod a.toNat

theorem shiftedOutHigh_toNat (a : Byte) : (shiftedOutHigh a).toNat = a.toNat / 128 := by
  revert a
  decide

theorem shiftLeft_one_toNat (a : Byte) : (a <<< 1).toNat = a.toNat * 2 % 256 := by
  rw [BitVec.toNat_shiftLeft, Nat.shiftLeft_eq]

theorem shiftRight_one_toNat (a : Byte) : (a >>> 1).toNat = a.toNat / 2 := by
  rw [BitVec.toNat_ushiftRight, Nat.shiftRight_eq_div_pow]

/-- A handler that writes the flag `b` to VF and then `a` to `V[r]`. -/
theorem exec_setVF_setReg_result {i : Instr} (he : exec i s = .next ((s.setReg vf b).setReg r a)) {n m : Nat}
    (ha : a.toNat = n) (hb : b.toNat = m) :
    ∃ t, exec i s = .next t ∧ (t.reg r).toNat = n ∧ (r ≠ vf → (t.reg vf).toNat = m) ∧ OnlyRegs [r, vf] s t := by
  refine ⟨_, he, ?result, fun hr => ?flag, onlyRegs_setReg_setReg (by simp) (by simp) b a⟩
  case result => rw [State.reg_setReg_same, ha]
  case flag => rw [State.reg_setReg_other _ _ hr.symm, State.reg_setReg_same, hb]

/-- Settles O14: each writes the bit shifted out to VF, then the shifted operand to V[x]. -/
theorem shiftResults : Obligations.ShiftResults :=
  ⟨fun _ => ⟨decode_shr, decode_shl⟩, fun _ _ _ =>
    ⟨exec_setVF_setReg_result exec_shr (shiftRight_one_toNat _) (shiftedOutLow_toNat _),
      exec_setVF_setReg_result exec_shl (shiftLeft_one_toNat _) (shiftedOutHigh_toNat _)⟩⟩

/-! ### Random draws (R182, R184) -/

theorem exec_rnd : exec (.rnd x kk) s = .next (s.random.2.setReg x (s.random.1 &&& kk)) := rfl

theorem random_supplied {bs : List Byte} (h : s.draws = b :: bs) : s.random = (b, { s with draws := bs }) := by
  rw [State.random, h]

theorem random_free (h : s.draws = []) :
    s.random = (Config.freeByte s.freeIndex, { s with freeIndex := s.freeIndex + 1 }) := by
  rw [State.random, h]

/-- Settles O15: the draw moves only the model's own fields, the write only V[x]. -/
theorem randomResult : Obligations.RandomResult := by
  refine ⟨fun _ => decode_rnd, fun s x kk => ?_⟩
  refine ⟨_, s.random.1, exec_rnd, State.reg_setReg_same _ x _, fun b bs h => ?supplied, fun h => ?free, ?frame, ?others,
    ?memory⟩
  case supplied => rw [random_supplied h]; exact ⟨rfl, rfl, rfl⟩
  case free => rw [random_free h]; exact ⟨rfl, h, rfl⟩
  case frame => rw [State.random_state]; rfl
  case others => exact fun q hq => (State.reg_setReg_other _ _ hq).trans (State.reg_random q)
  case memory => rw [State.random_state]; exact fun _ => rfl

/-! ### Skips (R155 to R158, R241, R242) -/

/-- A handler that leaves `setPC w`. -/
theorem exec_setPC_result {i : Instr} {w w' : Word} (he : exec i s = .next (s.setPC w)) (hw : w = w') :
    ∃ t, exec i s = .next t ∧ t.pc = w' ∧ OnlyPC s t :=
  ⟨_, he, hw, onlyPC_setPC w⟩

/-- Settles O16: each skip raises nothing and writes PC alone. -/
theorem skipResults : Obligations.SkipResults :=
  ⟨fun _ => ⟨decode_seImm, decode_sneImm, decode_seReg, decode_sneReg⟩, fun _ _ _ _ =>
    ⟨exec_setPC_result (exec_of_not_raises fun _ => id) rfl, exec_setPC_result (exec_of_not_raises fun _ => id) rfl,
      exec_setPC_result (exec_of_not_raises fun _ => id) rfl, exec_setPC_result (exec_of_not_raises fun _ => id) rfl⟩⟩

/-- Settles O33: the latch of V[x] exists, so neither raises. -/
theorem keySkipResults : Obligations.KeySkipResults := by
  intro s x k hk
  have hlegal : ¬ 16 ≤ (s.reg x).toNat := by omega
  have hlatch : s.key[(s.reg x).toNat]? = some s.key[k.val] := by rw [hk]; exact Vector.getElem?_eq_getElem k.isLt
  refine ⟨exec_setPC_result (exec_of_not_raises fun c hr => hlegal hr.1) ?skp,
    exec_setPC_result (exec_of_not_raises fun c hr => hlegal hr.1) ?sknp⟩
  case skp => simp only [hlatch, Option.some.injEq]
  case sknp =>
    simp only [hlatch, Option.some.injEq]
    cases s.key[k.val] <;> rfl

/-! ### Waiting for a key (R244) -/

theorem keyByte_toNat (k : KeyIx) : (keyByte k).toNat = k.val := by
  rw [keyByte, BitVec.toNat_ofNat, Nat.mod_eq_of_lt (by omega)]

/-- A pressed key below which none is pressed is the one captured. -/
theorem lowestKey_eq_some {k : KeyIx} (hk : s.key[k.val] = true) (hlow : ∀ j : KeyIx, j.val < k.val → s.key[j.val] = false) :
    s.lowestKey = some k := by
  obtain ⟨j, hj⟩ := Option.ne_none_iff_exists'.mp (pressed_iff_lowestKey_ne_none.mp ⟨k, hk⟩)
  obtain ⟨hpressed, hlow'⟩ := State.lowestKey_some hj
  have hjk : ¬ j.val < k.val := fun h => by rw [hlow j h] at hpressed; cases hpressed
  have hkj : ¬ k.val < j.val := fun h => by rw [hlow' k h] at hk; cases hk
  rw [hj, show j = k from Fin.ext (by omega)]

theorem lowestKey_eq_none (h : ∀ k : KeyIx, s.key[k.val] = false) : s.lowestKey = none := by
  by_contra hne
  obtain ⟨k, hk⟩ := pressed_iff_lowestKey_ne_none.mpr hne
  rw [h k] at hk
  cases hk

/-- Settles O36: the lowest pressed key is captured; without one PC is set back. -/
theorem keyWaitResult : Obligations.KeyWaitResult := by
  refine ⟨fun _ => decode_ldVxK, fun s x => ⟨fun k hk hlow => ?captured, fun hnone => ?waiting⟩⟩
  case captured =>
    obtain ⟨t, he, hreg, hframe⟩ := exec_setReg_result (exec_ldVxK_pressed x (lowestKey_eq_some hk hlow))
    exact ⟨t, he, by rw [hreg, keyByte_toNat], hframe⟩
  case waiting => exact exec_setPC_result (exec_ldVxK_waiting x (lowestKey_eq_none hnone)) rfl

/-! ### Steps that leave the state as it is (R244, R357a) -/

theorem runSteps_fixed (h : step s = .next s) (n : Nat) : runSteps n s = .next s := by
  induction n with
  | zero => rfl
  | succ n ih => rw [runSteps_succ h, ih]

/-- Settles O37: PC moves past the instruction and back to it, and nothing else moves. -/
theorem keyWaitHoldsTheMachine : Obligations.KeyWaitHoldsTheMachine := by
  intro s c x n hh hf hd hhook hnone
  refine runSteps_fixed ?_ n
  have hwait : (s.setPC (s.pc + 2#16)).lowestKey = none := lowestKey_eq_none hnone
  calc step s
      _ = exec (.ldVxK x) (s.setPC (s.pc + 2#16)) := stepRunsDecodedInstruction s c _ hh hf hd hhook
      _ = .next ((s.setPC (s.pc + 2#16)).setPC (s.pc + 2#16 - 2#16)) := exec_ldVxK_waiting x hwait
      _ = .next s := by rw [BitVec.add_sub_cancel]; rfl

/-- Settles O60: the jump puts PC back whatever the latches are, and writes nothing else. -/
theorem selfJumpParks : Obligations.SelfJumpParks := by
  intro s c nnn hh hf hd hhook hpc
  refine ⟨hh, fun keys n => ⟨_, runSteps_fixed ?_ n, rfl⟩⟩
  have htarget : zext16 nnn = s.pc := BitVec.eq_of_toNat_eq (by rw [zext16_toNat, hpc])
  have hstep := stepRunsDecodedInstruction { s with key := keys } c _ hh hf hd hhook
  rw [hstep, exec_jp, htarget]
  rfl

end Sys2Proof.Machine
end

section
/-! PROOFS. Drawing a sprite (44_display.md R221 to R228): what `drawAt` leaves in the pixels, in VF and in the change flag, and
the statement O31 of that family. -/

namespace Sys2Proof.Machine

variable {s : State} {x y : RegIx} {l : List Byte}

/-- What `DrawSprite` does at (V[x], V[y]), by the law of the grid. -/
theorem State.blitSprite_drawStep (hs : s.StepInv) (x y : RegIx) (l : List Byte) :
    DrawStep s.cfg.rows s.cfg.cols
      (fun r c => decide (r < s.cfg.rows ∧ c < s.cfg.cols) && spriteBit l (s.reg x).toNat (s.reg y).toNat r c)
      { pix := s.pix, collision := false, touched := false }
      (blitSprite s.cfg.rows s.cfg.cols (s.reg x).toNat (s.reg y).toNat l s.pix) :=
  blitSprite_step l hs.pix_wf

/-- Inside the grid a draw XORs the sprite bits into the pixels (R223). -/
theorem State.drawAt_get (hs : s.StepInv) {r c : Nat} (hr : r < s.cfg.rows) (hc : c < s.cfg.cols) :
    (s.drawAt x y l).pix.get r c = (s.pix.get r c ^^ spriteBit l (s.reg x).toNat (s.reg y).toNat r c) := by
  rw [State.drawAt_pix, (State.blitSprite_drawStep hs x y l).get]
  simp only [hr, hc, and_self, decide_true, Bool.true_and]

/-- The collision of a draw: some pixel inside the grid was set and no longer is (R224). -/
theorem State.drawAt_collision_iff (hs : s.StepInv) :
    (blitSprite s.cfg.rows s.cfg.cols (s.reg x).toNat (s.reg y).toNat l s.pix).collision = true
      ↔ ∃ r c, r < s.cfg.rows ∧ c < s.cfg.cols ∧ s.pix.get r c = true ∧ (s.drawAt x y l).pix.get r c = false := by
  rw [(State.blitSprite_drawStep hs x y l).collision]
  simp only [Bool.false_eq_true, false_or, Bool.and_eq_true, decide_eq_true_eq]
  constructor
  · rintro ⟨r, c, ⟨⟨hr, hc⟩, hbit⟩, hset⟩
    exact ⟨r, c, hr, hc, hset, by rw [State.drawAt_get hs hr hc, hset, hbit]; rfl⟩
  · rintro ⟨r, c, hr, hc, hset, herased⟩
    rw [State.drawAt_get hs hr hc, hset, Bool.true_xor, Bool.not_eq_false'] at herased
    exact ⟨r, c, ⟨⟨hr, hc⟩, herased⟩, hset⟩

theorem State.drawAt_dispChanged :
    (s.drawAt x y l).dispChanged
      = (s.dispChanged || (blitSprite s.cfg.rows s.cfg.cols (s.reg x).toNat (s.reg y).toNat l s.pix).touched) := rfl

/-- The change flag is OR-ed with whether a sprite bit fell inside the grid (R225). -/
theorem State.drawAt_dispChanged_iff (hs : s.StepInv) :
    (s.drawAt x y l).dispChanged = true ↔ s.dispChanged = true
      ∨ ∃ r c, r < s.cfg.rows ∧ c < s.cfg.cols ∧ spriteBit l (s.reg x).toNat (s.reg y).toNat r c = true := by
  rw [State.drawAt_dispChanged, Bool.or_eq_true, (State.blitSprite_drawStep hs x y l).touched]
  simp only [Bool.false_eq_true, false_or, Bool.and_eq_true, decide_eq_true_eq, and_assoc]

/-- Settles O31: in bounds Dxyn is `drawAt` with the bytes at I. -/
theorem drawSpriteResult : Obligations.DrawSpriteResult := by
  refine ⟨fun _ => decode_drw, fun s x y n hs hbound => ?_⟩
  refine ⟨_, exec_drw_inside x y n hbound, fun r c => State.drawAt_get hs, fun herased => ?collision, fun hkept => ?noCollision,
    State.drawAt_dispChanged_iff hs, (State.blitSprite_drawStep hs x y _).wf, fun q => State.reg_setReg_other _ _, rfl,
    fun _ => rfl⟩
  case collision => rw [State.drawAt_vf, (State.drawAt_collision_iff hs).mpr herased]; rfl
  case noCollision =>
    rw [State.drawAt_vf, Bool.eq_false_of_not_eq_true fun h => hkept ((State.drawAt_collision_iff hs).mp h)]
    rfl

end Sys2Proof.Machine
end

section
/-! PROOFS. The host's ports, reset and the reset state (48_scheduler_cycle.md R270 to R279, 60_exceptions.md R315 to R319,
70_reset_and_hazards.md R340 to R343): the statements O49, O50 and O56 to O59 of those families. -/

namespace Sys2Proof

/-! ### Keys by name and by place (R95) -/

theorem Key.ofName_name (k : Key) : Key.ofName k.name = some k := by
  cases k <;> decide

theorem Key.ofName_eq_none {name : String} (h : ∀ k : Key, k.name ≠ name) : Key.ofName name = none := by
  rw [Key.ofName, List.find?_eq_none]
  intro k _
  rw [beq_iff_eq]
  exact h k

theorem Key.all_getElem_index (k : Key) : Key.all[k.index.val]? = some k := by cases k <;> rfl

theorem Key.index_injective : Function.Injective Key.index := fun j k h => by
  have := j.all_getElem_index
  rw [h, k.all_getElem_index] at this
  exact (Option.some.inj this).symm

end Sys2Proof

namespace Sys2Proof.Machine

variable {s : State}

/-! ### The hook port (R315 to R319) -/

theorem setHook_name (s : State) (k : Key) (h : Option Hook) :
    s.setHook k.name h = .ok { s with hooks := s.hooks.set k.index.val h } := by
  rw [State.setHook, Key.ofName_name]

theorem setHook_refused {name : String} (hname : ∀ k : Key, k.name ≠ name) (h : Option Hook) :
    s.setHook name h = .error (.unknownKey name) := by
  rw [State.setHook, Key.ofName_eq_none hname]

/-- A transaction that is a call of the hook port on a named key sets that key's entry. -/
theorem setHook_result {x : Transaction} {k : Key} {h : Option Hook}
    (hx : transact x s = .next (portReply s (s.setHook k.name h))) :
    ∃ t, transact x s = .next (t, .done) ∧ t.hookOf k = h ∧ (∀ j : Key, j ≠ k → t.hookOf j = s.hookOf j)
      ∧ t = { s with hooks := t.hooks } := by
  rw [setHook_name] at hx
  refine ⟨_, hx, Vector.getElem_set_self _, fun j hj => ?other, rfl⟩
  case other =>
    have hne : k.index.val ≠ j.index.val := fun e => hj (Key.index_injective (Fin.ext e.symm))
    exact Vector.getElem_set_ne k.index.isLt j.index.isLt hne

/-- Settles O59: all four are calls of one port, which looks the name up. -/
theorem hookPortSetsOneKey : Obligations.HookPortSetsOneKey := by
  refine ⟨fun s k code x h hx => ?named, fun s name code hname => ?refused⟩
  case named =>
    simp only [List.mem_cons, Prod.mk.injEq, List.not_mem_nil, or_false] at hx
    rcases hx with ⟨rfl, rfl⟩ | ⟨rfl, rfl⟩ | ⟨rfl, rfl⟩ | ⟨rfl, rfl⟩ <;> exact setHook_result rfl
  case refused =>
    have hrefused : ∀ h : Option Hook,
        portReply s (s.setHook name h) = (s, .refused (.unknownKey name)) := fun h => by
      rw [setHook_refused hname]
      rfl
    exact ⟨congrArg _ (hrefused _), congrArg _ (hrefused _), congrArg _ (hrefused _), congrArg _ (hrefused _)⟩

/-! ### Keys, queries and draws (R270 to R272, R279) -/

theorem keyIx_legal {k : Nat} (h : k < 16) : keyIx k = .ok ⟨k, h⟩ := dif_pos h

theorem keyIx_illegal {k : Nat} (h : 16 ≤ k) : keyIx k = .error (.outOfBounds k) := dif_neg (Nat.not_lt.mpr h)

theorem queueKey_legal {k : Nat} (h : k < 16) : s.queueKey k = .ok { s with keyq := s.keyq ++ [⟨k, h⟩] } := by
  rw [State.queueKey, keyIx_legal h]
  rfl

theorem queueKey_illegal {k : Nat} (h : 16 ≤ k) : s.queueKey k = .error (.outOfBounds k) := by
  rw [State.queueKey, keyIx_illegal h]
  rfl

theorem keyDown_legal {k : Nat} (h : k < 16) : s.keyDown k = .ok { s with key := s.key.set k true } := by
  rw [State.keyDown, keyIx_legal h]
  rfl

theorem keyDown_illegal {k : Nat} (h : 16 ≤ k) : s.keyDown k = .error (.outOfBounds k) := by
  rw [State.keyDown, keyIx_illegal h]
  rfl

theorem keyUp_legal {k : Nat} (h : k < 16) : s.keyUp k = .ok { s with key := s.key.set k false } := by
  rw [State.keyUp, keyIx_legal h]
  rfl

theorem keyUp_illegal {k : Nat} (h : 16 ≤ k) : s.keyUp k = .error (.outOfBounds k) := by
  rw [State.keyUp, keyIx_illegal h]
  rfl

theorem getVariable_register_legal {k : Nat} (h : k < 16) : s.getVariable (.register k) = .ok (s.reg ⟨k, h⟩).toNat :=
  dif_pos h

theorem getVariable_register_illegal {k : Nat} (h : 16 ≤ k) : s.getVariable (.register k) = .error (.outOfBounds k) :=
  dif_neg (Nat.not_lt.mpr h)

theorem getVariable_memBcd_legal {a : Nat} (h : a + 2 < memSize) :
    s.getVariable (.memBcd a)
      = .ok ((s.byteAt a).toNat * 100 + (s.byteAt (a + 1)).toNat * 10 + (s.byteAt (a + 2)).toNat) := if_pos h

theorem getVariable_memBcd_illegal {a : Nat} (h : ¬ a + 2 < memSize) :
    s.getVariable (.memBcd a) = .error (.outOfBounds a) := if_neg h

theorem takeAction_named {actions : List Nat} {a k : Nat} (h : actions[a]? = some k) :
    s.takeAction actions (a + 1) = s.queueKey k := by
  simp only [State.takeAction, h]

theorem takeAction_above {actions : List Nat} {a : Nat} (h : actions.length ≤ a) :
    s.takeAction actions (a + 1) = .error (.outOfBounds (a + 1)) := by
  simp only [State.takeAction, List.getElem?_eq_none h]

/-- ST is above 0 when its byte is not the zero byte. -/
theorem buzzer_eq (s : State) : s.buzzer = decide (0 < s.st.toNat) := by
  rw [State.buzzer, decide_eq_decide, Nat.pos_iff_ne_zero, ne_eq, ne_eq, ← BitVec.toNat_inj]
  rfl

/-- Settles O58: each port checks its index, and answers as its function does. -/
theorem keyAndQueryPorts : Obligations.KeyAndQueryPorts := by
  intro s k actions a b
  refine ⟨fun h => ?legal, fun h => ?illegal, fun h => ?bcd, fun h => ?bcdOutside, rfl, ?buzzer, rfl, rfl, fun ha h => ?action,
    fun ha h => ?actionKey, takeAction_above, rfl⟩
  case legal =>
    simp only [transact, queueKey_legal h, keyDown_legal h, keyUp_legal h, getVariable_register_legal h]
    exact ⟨rfl, rfl, rfl, rfl⟩
  case illegal =>
    simp only [transact, queueKey_illegal h, keyDown_illegal h, keyUp_illegal h, getVariable_register_illegal h]
    exact ⟨rfl, rfl, rfl, rfl⟩
  case bcd =>
    have hin : k + 2 < memSize := Nat.lt_succ_of_le h
    simp only [transact, getVariable_memBcd_legal hin]
    rfl
  case bcdOutside =>
    have hout : ¬ k + 2 < memSize := Nat.not_lt.mpr h
    simp only [transact, getVariable_memBcd_illegal hout]
    rfl
  case buzzer => rw [transact, buzzer_eq]
  case action => rw [takeAction_named ha, queueKey_legal h]
  case actionKey => rw [takeAction_named ha, queueKey_illegal h]

/-! ### Loading (R276) -/

theorem loadRom_fits {image : List Byte} (h : image.length ≤ romMax) :
    s.loadRom image = .ok (s.putRun programOffset image) := if_pos h

theorem loadRom_tooLong {image : List Byte} (h : ¬ image.length ≤ romMax) :
    s.loadRom image = .error (.romTooLarge image.length) := if_neg h

/-- Settles O57: an image that fits is one run of bytes stored at the program offset. -/
theorem loadRomPlacesTheImage : Obligations.LoadRomPlacesTheImage := by
  intro s image hs
  refine ⟨fun hfits => ?fits, fun hlong => ?long⟩
  case fits =>
    have hbound : 0x200 + image.length ≤ 4096 := by omega
    refine ⟨s.putRun programOffset image, ?reply, fun k hk => ?inside, ?outside, rfl⟩
    case reply => rw [transact, loadRom_fits hfits]; rfl
    case inside => exact byteAt_putRun_add hs hbound hk
    case outside => exact sameMemoryOutside_putRun rfl hbound hs.mem_wf
  case long =>
    have hno : ¬ image.length ≤ romMax := Nat.not_le.mpr hlong
    rw [transact, loadRom_tooLong hno]
    rfl

/-! ### The change query and reset (R273, R340) -/

/-- Settles O56: the query clears both flags, so the next one finds neither. -/
theorem outputChangedReadsOnce : Obligations.OutputChangedReadsOnce := fun _ => ⟨_, rfl, rfl, rfl⟩

/-- With nothing listed in memory every address reads as its reset contents. -/
theorem hostReset_byteAt (s : State) (a : Nat) : s.hostReset.byteAt a = resetByte s.cfg a := rfl

/-- Settles O50: `reset()` is construction with the hooks, the configuration and the model's own fields kept. -/
theorem hostResetRestoresResetState : Obligations.HostResetRestoresResetState := fun s =>
  ⟨_, rfl, rfl, fun a _ => hostReset_byteAt s a⟩

/-! ### The reset state (R45, R343) -/

theorem reset_byteAt_font {a : Nat} (h : a < 80) : State.reset.byteAt a = defaultConfig.fontTable.getD a 0#8 :=
  if_pos ⟨Nat.zero_le a, (Nat.zero_add _).symm ▸ h⟩

theorem reset_byteAt_zero {a : Nat} (h : 80 ≤ a) : State.reset.byteAt a = 0#8 :=
  if_neg fun hin => absurd hin.2 (Nat.not_lt.mpr h)

/-- Settles O49: the fields are those of `State.initial`; the font bytes are evaluated glyph by glyph. -/
theorem resetState : Obligations.ResetState := by
  refine ⟨fun r => Vector.getElem_replicate r.isLt, rfl, rfl, rfl, fun j => Vector.getElem_replicate j.isLt, rfl, rfl,
    fun k => Vector.getElem_replicate k.isLt, rfl, rfl, Grid.wf_blank, fun r c _ _ => Grid.get_blank r c, rfl, rfl, rfl, rfl, rfl,
    rfl, rfl, initial_noHooks _ _ _ _, rfl, rfl, rfl, rfl, rfl, fun a => reset_byteAt_font, ?_⟩
  refine ⟨rfl, rfl, rfl, rfl, rfl, rfl, rfl, rfl, rfl, rfl, rfl, rfl, rfl, rfl, rfl, rfl, fun a h _ => reset_byteAt_zero h⟩

end Sys2Proof.Machine
end
